-- ==== Sys2Proof/Word.lean ====
section
/-! DEFINITION. The word types of the block and nothing else: the widths are those of `spec/10_state.md`
rules R21 to R38 and of `spec/20_memory.md` rules R64 to R68. All numbers are unsigned (rule R15). -/

namespace Sys2Proof

/-- A byte: 8 bits everywhere (rule R43). -/
abbrev Byte := BitVec 8

/-- A chunk: four consecutive input bytes as one unsigned 32-bit value (rules R18, R66). -/
abbrev Chunk := BitVec 32

/-- A chunk hash, the index of the CHUNK and PRED tables (rules R9, R27, R28). -/
abbrev Hash := BitVec 16

/-- A stream offset, a limit or a signature word (rules R31, R32, R37 to R39). -/
abbrev Word64 := BitVec 64

/-- A counter: every counter of the block is 32 bits wide and wraps (rules R23, R25, R34, R36). -/
abbrev Counter := BitVec 32

end Sys2Proof
end

