-- ==== Sys2Proof/Syntax.lean ====
section
/-! DEFINITION. The instructions: one constructor per row of `spec/opcode_table.json` (41 rows, rule R111),
grouped by the table's formats CMD, RESUME, STATUS, SEL, LET, BYTES and INTERNAL, and the small
enumerations their operands need. -/

namespace Sys2Proof

/-- The four classification forms (rules R18, R94). -/
inductive Form where
  | literal
  | dictA
  | dictB
  | predicted
deriving DecidableEq, Repr

/-- The two instances of the rank table (rule R120). -/
inductive RankTableId where
  | form
  | letter
deriving DecidableEq, Repr

/-- The six statuses of a command (rules R92, R251 to R256). -/
inductive Status where
  | ready
  | stallOnInput
  | stallOnOutput
  | infoEfficiencyCheck
  | infoNewBlock
  | error
deriving DecidableEq, Repr

/-- Which of the two resumable commands is being executed (`spec/43_encode_driver.md`, its opening). -/
inductive Mode where
  | step
  | flush
deriving DecidableEq, Repr

/-- What the host presents as one command: the triple of rule R95. -/
structure CommandWord where
  cmd : BitVec 2
  inLimit : Word64
  outLimit : Word64
deriving DecidableEq, Repr

/-- One constructor per row of the opcode table, in the table's order. An operand is what the row's
rule takes as operand; the limits and the mode of a command in progress are latched (rule R202) and
are no operand of the operations that run inside it. -/
inductive Instr where
  /-- INIT, rule R201. -/
  | init
  /-- STEP, rule R203. -/
  | step (inLimit outLimit : Word64)
  /-- FLUSH, rule R204. -/
  | flush (inLimit outLimit : Word64)
  /-- CMD_RESERVED, the command code 3, rule R108. -/
  | cmdReserved
  /-- PREPARE_NEW_BLOCK, resume code 0, rule R205. -/
  | prepareNewBlock
  /-- READ_CHUNK, resume code 1, rule R211. -/
  | readChunk
  /-- CHECK_SIGNATURE_STATE, resume code 2, rule R215. -/
  | checkSignatureState
  /-- RESUME_UNRECOGNIZED, resume code 3, rule R202. -/
  | resumeUnrecognized
  /-- STATUS_Ready, rule R256. -/
  | statusReady
  /-- STATUS_StallOnInput, rule R251. -/
  | statusStallOnInput
  /-- STATUS_StallOnOutput, rule R252. -/
  | statusStallOnOutput
  /-- STATUS_InfoEfficiencyCheck, rule R253. -/
  | statusInfoEfficiencyCheck
  /-- STATUS_InfoNewBlock, rule R254. -/
  | statusInfoNewBlock
  /-- STATUS_Error, rule R255. -/
  | statusError
  /-- SEL_RANK0, the selector code of rank 0, rules R98, R176. -/
  | selRank0
  /-- SEL_RANK1, the selector code of rank 1, rules R98, R176. -/
  | selRank1
  /-- SEL_RANK2, the selector code of rank 2, rules R98, R176. -/
  | selRank2
  /-- SEL_RANK3, the selector code of rank 3, rules R98, R176. -/
  | selRank3
  /-- SEL_END, the end code, rules R99, R180. -/
  | selEnd
  /-- LETTER, the letter code of a rank, rules R100, R178. -/
  | letter (rank : BitVec 8)
  /-- HASH16, the two hash bytes, rules R101, R177. -/
  | hash16 (h : Hash)
  /-- SIGWORD, a signature word of the wire format, rules R97, R171. -/
  | sigword (w : Word64)
  /-- TAIL, one raw tail byte, rules R102, R181. -/
  | tail (t : Byte)
  /-- PROCESS_UNIT, rule R213. -/
  | processUnit
  /-- FLUSH_TAIL, rule R216. -/
  | flushTail
  /-- RECORD_USE_FORM, rule R122. -/
  | recordUseForm (f : Form)
  /-- RECORD_USE_LETTER, rule R123. -/
  | recordUseLetter (b : Byte)
  /-- RANK_INIT, rule R129. -/
  | rankInit (t : RankTableId)
  /-- HASH, rule R141. -/
  | hash (c : Chunk)
  /-- CLASSIFY, rule R142. -/
  | classify (c : Chunk) (h : Hash)
  /-- DICT_UPDATE, rule R143. -/
  | dictUpdate (f : Form) (c : Chunk) (h : Hash)
  /-- PROCESS_CHUNK, rule R144. -/
  | processChunk (c : Chunk)
  /-- DICT_RESET, rule R154. -/
  | dictReset
  /-- START_SIG, rule R171. -/
  | startSig
  /-- PUSH, rule R172: `content` is u64 and `bits` is u8, as the source's `push` has them. -/
  | push (content : Word64) (bits : BitVec 8)
  /-- EMIT_SELECTOR, rule R176. -/
  | emitSelector (f : Form)
  /-- EMIT_HASH16, rule R177. -/
  | emitHash16 (h : Hash)
  /-- EMIT_LETTER, rule R178. -/
  | emitLetter (b : Byte)
  /-- EMIT_LITERAL, rule R179. -/
  | emitLiteral (c : Chunk)
  /-- EMIT_END, rule R180. -/
  | emitEnd
  /-- EMIT_TAIL, rule R181. -/
  | emitTail
deriving DecidableEq, Repr

end Sys2Proof
end

