-- ==== Sys2Proof/Config.lean ====
section
/-! DEFINITION. The configuration of rules R10 to R13: the open parameters, as one record of plain data,
and the hash functions the record may name. The checks a configuration must pass stand in
`Sys2Proof/Machine/Operands.lean` (`configAccepted`); the values rules R98 and R99 fix for `FORM_CODE` and
`END_CODE`, and the test configuration, stand in `Sys2Proof/Decode.lean`. -/

namespace Sys2Proof

/-- One variable-length code: `bits` bits, bit 0 of `content` packed first (rules R69, R100). -/
structure Code where
  content : Word64
  bits : BitVec 8
deriving DecidableEq, Repr

/-- The open parameter `H` of rule R10. `fold` is the spec's test instance `H_FOLD`; `free n` is an
arbitrary function, the `n`-th value of the uninterpreted constant `Config.freeHash`, so that a claim
about a state whose configuration names it holds for every hash. -/
inductive HashFunction where
  | fold
  | free (n : Nat)
deriving DecidableEq, Repr

/-- An arbitrary total function from 32-bit values to 16-bit values, for each number: rule R10 allows
nothing more to be assumed of the hash (log entry 2). -/
opaque Config.freeHash : Nat → Chunk → Hash

/-- The order in which the bits of a signature word lie in memory (rule R67). -/
inductive BitOrder where
  | leastSignificantFirst
  | mostSignificantFirst
deriving DecidableEq, Repr

/-- The configuration of a session (rules R10 to R13, R40). -/
structure Config where
  /-- `H`, rule R10. -/
  hash : HashFunction
  /-- `CODEBOOK`, rule R11: entry `r` is the code of rank `r`. -/
  codebook : List Code
  /-- `FORM_CODE`, rules R13, R98: entry `r` is the selector code of rank `r`. -/
  formCode : List Code
  /-- `END_CODE`, rules R13, R99. -/
  endCode : Code
  /-- `EFF_T`, rule R12. -/
  effT : Counter
  /-- `BLK_T`, rule R12. -/
  blkT : Counter
  /-- `PERIODIC_RESET_EN`, rule R12. -/
  periodicResetEn : Bool
  /-- `RESET_CYCLE`, rule R12. -/
  resetCycle : Counter
  /-- `MIN_LOOKAHEAD`, rule R12, in bytes. -/
  minLookahead : Word64
  /-- The bit order the stream is declared in; only the least-significant-first order is defined
  (rule R67). -/
  bitOrder : BitOrder
deriving DecidableEq, Repr

end Sys2Proof
end

