-- ==== Sys2Proof/WellFormed.lean ====
section
/-! DEFINITION. The check of an instruction's operands. Every operand's range is its type's, but for PUSH,
whose operands rule R175 restricts: `1 <= bits <= 64` and `content < 2^bits`. What a configuration must
pass (rules R11, R12) is `configAccepted` of `Sys2Proof/Machine/Operands.lean`. -/

namespace Sys2Proof

/-- Rule R175's operand discipline. -/
def pushOperandsLegal (content : Word64) (bits : BitVec 8) : Bool :=
  decide (1 ≤ bits.toNat) && decide (bits.toNat ≤ 64) && decide (content.toNat < 2 ^ bits.toNat)

/-- The instruction's operands are ones its rule gives a meaning to. -/
def Instr.wellFormed : Instr → Bool
  | .push content bits => pushOperandsLegal content bits
  | .init | .step _ _ | .flush _ _ | .cmdReserved => true
  | .prepareNewBlock | .readChunk | .checkSignatureState | .resumeUnrecognized => true
  | .statusReady | .statusStallOnInput | .statusStallOnOutput => true
  | .statusInfoEfficiencyCheck | .statusInfoNewBlock | .statusError => true
  | .selRank0 | .selRank1 | .selRank2 | .selRank3 | .selEnd => true
  | .letter _ | .hash16 _ | .sigword _ | .tail _ => true
  | .processUnit | .flushTail | .recordUseForm _ | .recordUseLetter _ | .rankInit _ => true
  | .hash _ | .classify _ _ | .dictUpdate _ _ _ | .processChunk _ | .dictReset => true
  | .startSig | .emitSelector _ | .emitHash16 _ | .emitLetter _ | .emitLiteral _ => true
  | .emitEnd | .emitTail => true

/-- The row is of format INTERNAL: an operation that no bit of any code space selects (rules R90, R111). -/
def Instr.internal : Instr → Bool
  | .init | .step _ _ | .flush _ _ | .cmdReserved => false
  | .prepareNewBlock | .readChunk | .checkSignatureState | .resumeUnrecognized => false
  | .statusReady | .statusStallOnInput | .statusStallOnOutput => false
  | .statusInfoEfficiencyCheck | .statusInfoNewBlock | .statusError => false
  | .selRank0 | .selRank1 | .selRank2 | .selRank3 | .selEnd => false
  | .letter _ | .hash16 _ | .sigword _ | .tail _ => false
  | .processUnit | .flushTail | .recordUseForm _ | .recordUseLetter _ | .rankInit _ => true
  | .hash _ | .classify _ _ | .dictUpdate _ _ _ | .processChunk _ | .dictReset => true
  | .startSig | .push _ _ | .emitSelector _ | .emitHash16 _ | .emitLetter _ | .emitLiteral _ => true
  | .emitEnd | .emitTail => true

end Sys2Proof
end

