-- ==== Sys2Proof/Decode.lean ====
section
/-! DEFINITION. The code spaces of `spec/30_encoding.md`, a total decoder of their code words that rejects
by name, and the encoder. The block has no instruction stream: what the host presents is a command
(rules R91, R95), `resume` is the driver's program counter (R93), `status` is the answer (R92), and the
selector, letter and byte-stream items are what the block writes to OUT (R96 to R103). A code word
therefore carries the code space it stands in, since the same bits mean different rows in different
spaces (log entry 5). The internal operations have no encoding (R90). -/

namespace Sys2Proof

/-- The formats of the opcode table (rule R111). -/
inductive Space where
  | cmd
  | resume
  | status
  | sel
  | letter
  | bytes
  | internal
deriving DecidableEq, Repr

/-- A code word: its code space, how many bits it has, and the bits as one number whose bit 0 is the
least significant, or first-packed, bit. -/
structure CodeWord where
  space : Space
  len : Nat
  val : Nat
deriving DecidableEq, Repr

/-- Why a code word is no instruction. -/
inductive DecodeError where
  /-- The value has more bits than the word says it has. -/
  | tooWide
  /-- No row of the code space has this many bits. -/
  | wrongLength
  /-- A status code the block never produces (rule R92: 6 and 7). -/
  | neverProduced
  /-- The bits end before a selector code does, or go on after it. -/
  | noSuchSelector
  /-- No entry of the codebook has these bits (rule R100). -/
  | noSuchLetter
  /-- The word claims to be an internal operation, which no bit of any code space selects (rule R111). -/
  | noEncoding
deriving DecidableEq, Repr

/-! ### The fixed code tables and the test configuration -/

/-- The value rule R98 fixes for `FORM_CODE`: the selector code of each rank. -/
def fixedFormCode : List Code := [⟨0, 1⟩, ⟨3, 3⟩, ⟨7, 4⟩, ⟨15, 4⟩]

/-- The value rule R99 fixes for `END_CODE`. -/
def fixedEndCode : Code := ⟨1, 2⟩

/-- The configuration's selector codes are the ones rules R98 and R99 fix. -/
abbrev selectorCodesFixed (cfg : Config) : Prop := cfg.formCode = fixedFormCode ∧ cfg.endCode = fixedEndCode

/-- Entry `r` of the test codebook `CB_TEST` (rule R11). -/
def Config.testCode (r : Nat) : Code :=
  if r < 16 then ⟨BitVec.ofNat 64 (2 * r), 5⟩ else ⟨BitVec.ofNat 64 (2 * r + 1), 9⟩

/-- The test configuration at the head of `spec/95_test_vectors.md`. -/
def Config.test : Config where
  hash := .fold
  codebook := (List.range 256).map Config.testCode
  formCode := fixedFormCode
  endCode := fixedEndCode
  effT := 64
  blkT := 256
  periodicResetEn := false
  resetCycle := 1
  minLookahead := 65
  bitOrder := .leastSignificantFirst

/-! ### Bit strings -/

/-- The `n` low bits of a number, bit 0 first: the packing order of rule R69. -/
def bitsOf : Nat → Nat → List Bool
  | 0, _ => []
  | n + 1, v => (v % 2 == 1) :: bitsOf n (v / 2)

/-- A code's bits in packing order. -/
def Code.bitString (c : Code) : List Bool := bitsOf c.bits.toNat c.content.toNat

/-- What is left of a bit stream after the bits of a code, if the stream starts with them. -/
def stripBits : List Bool → List Bool → Option (List Bool)
  | [], stream => some stream
  | _ :: _, [] => none
  | a :: as, b :: bs => if a = b then stripBits as bs else none

/-- The index of the first code of a table that a bit stream starts with, and the rest of the stream. -/
def matchCode : List Code → Nat → List Bool → Option (Nat × List Bool)
  | [], _, _ => none
  | c :: cs, i, stream =>
    match stripBits c.bitString stream with
    | some rest => some (i, rest)
    | none => matchCode cs (i + 1) stream

/-- No code of the table starts another of its codes: the property rule R11 leaves to the supplier of
the codebook, and which the block does not check. -/
abbrev codesSelfDelimiting (table : List Code) : Prop :=
  table.Pairwise (fun c d => stripBits c.bitString d.bitString = none ∧
    stripBits d.bitString c.bitString = none)

/-! ### The decoder -/

/-- The command triple as one 130-bit number, `cmd` lowest, then `in_limit`, then `out_limit`: the order
in which rule R95 lists them (log entry 5). -/
def CommandWord.toNat (c : CommandWord) : Nat :=
  c.cmd.toNat + 4 * (c.inLimit.toNat + 2 ^ 64 * c.outLimit.toNat)

/-- The command triple read from that number. -/
def CommandWord.ofNat (w : Nat) : CommandWord :=
  ⟨BitVec.ofNat 2 w, BitVec.ofNat 64 (w / 4), BitVec.ofNat 64 (w / 4 / 2 ^ 64)⟩

/-- Rule R91: the command a triple is. INIT and the reserved code ignore the limits (rule R95). -/
def decodeCommand (c : CommandWord) : Instr :=
  match c.cmd.toNat with
  | 0 => .init
  | 1 => .step c.inLimit c.outLimit
  | 2 => .flush c.inLimit c.outLimit
  | _ => .cmdReserved

/-- Rule R93: the driver position a value of `resume` is. -/
def decodeResume (r : BitVec 2) : Instr :=
  match r.toNat with
  | 0 => .prepareNewBlock
  | 1 => .readChunk
  | 2 => .checkSignatureState
  | _ => .resumeUnrecognized

/-- Rule R92: the status a 3-bit code is; 6 and 7 are never produced. -/
def decodeStatus (c : BitVec 3) : Option Status :=
  match c.toNat with
  | 0 => some .ready
  | 1 => some .stallOnInput
  | 2 => some .stallOnOutput
  | 3 => some .infoEfficiencyCheck
  | 4 => some .infoNewBlock
  | 5 => some .error
  | _ => none

/-- The row of the table that stands for a status. -/
def Status.instr : Status → Instr
  | .ready => .statusReady
  | .stallOnInput => .statusStallOnInput
  | .stallOnOutput => .statusStallOnOutput
  | .infoEfficiencyCheck => .statusInfoEfficiencyCheck
  | .infoNewBlock => .statusInfoNewBlock
  | .error => .statusError

/-- The row of a selector code, by its rank. -/
def selectorRow : Nat → Instr
  | 0 => .selRank0
  | 1 => .selRank1
  | 2 => .selRank2
  | _ => .selRank3

/-- The selector-space row a bit stream starts with, and the rest of the stream (rule R107): the code of a
rank 0 to 3, or the end code. -/
def decodeSelector (cfg : Config) (stream : List Bool) : Option (Instr × List Bool) :=
  match matchCode (cfg.formCode.take 4) 0 stream with
  | some (r, rest) => some (selectorRow r, rest)
  | none => (stripBits cfg.endCode.bitString stream).map fun rest => (.selEnd, rest)

/-- The letter code a bit stream starts with, and the rest of the stream (rules R100, R107). -/
def decodeLetter (cfg : Config) (stream : List Bool) : Option (Instr × List Bool) :=
  (matchCode cfg.codebook 0 stream).map fun p => (.letter (BitVec.ofNat 8 p.1), p.2)

/-- A byte-stream item, by its length (rules R96, R97, R101, R102). Byte `k` of the item is bits
`8k+7 .. 8k` of the number, so both multi-byte items are little-endian. -/
def decodeBytes (len val : Nat) : Except DecodeError Instr :=
  if len = 8 then .ok (.tail (BitVec.ofNat 8 val))
  else if len = 16 then .ok (.hash16 (BitVec.ofNat 16 val))
  else if len = 64 then .ok (.sigword (BitVec.ofNat 64 val))
  else .error .wrongLength

/-- The instruction a code word is, or by what name it is rejected. -/
def decode (cfg : Config) (w : CodeWord) : Except DecodeError Instr :=
  if 2 ^ w.len ≤ w.val then .error .tooWide
  else
    match w.space with
    | .cmd =>
      if w.len = 130 then .ok (decodeCommand (CommandWord.ofNat w.val)) else .error .wrongLength
    | .resume =>
      if w.len = 2 then .ok (decodeResume (BitVec.ofNat 2 w.val)) else .error .wrongLength
    | .status =>
      if w.len = 3 then
        match decodeStatus (BitVec.ofNat 3 w.val) with
        | some st => .ok st.instr
        | none => .error .neverProduced
      else .error .wrongLength
    | .sel =>
      match decodeSelector cfg (bitsOf w.len w.val) with
      | some (i, []) => .ok i
      | _ => .error .noSuchSelector
    | .letter =>
      match decodeLetter cfg (bitsOf w.len w.val) with
      | some (i, []) => .ok i
      | _ => .error .noSuchLetter
    | .bytes => decodeBytes w.len w.val
    | .internal => .error .noEncoding

/-- What the block's command port reads from an instruction whose bits are `w`, numbered as the opcode
table numbers them, every bit above them 0: the 130-bit command triple. A row of no bits (`nbits = 0`,
an internal operation) is no instruction. The port knows the CMD space only, so a row of another space
reads as the command with the same low bits (log entry 5). -/
def decodeTableWord (nbits w : Nat) : Option Instr :=
  if nbits = 0 then none else some (decodeCommand (CommandWord.ofNat (w % 2 ^ nbits)))

/-! ### The encoder -/

/-- The command code of rule R91 and the triple of rule R95; the limits that INIT and the reserved code
ignore are written as 0. -/
def encodeCommand : Instr → Option CommandWord
  | .init => some ⟨0, 0, 0⟩
  | .step il ol => some ⟨1, il, ol⟩
  | .flush il ol => some ⟨2, il, ol⟩
  | .cmdReserved => some ⟨3, 0, 0⟩
  | _ => none

/-- The code of a table entry, as a code word of the given space. -/
def Code.word (sp : Space) (c : Code) : CodeWord := ⟨sp, c.bits.toNat, c.content.toNat⟩

/-- The code word of an instruction; `none` where the spec gives it no encoding (the internal
operations, rule R90), or where the configuration's table has no entry for a rank. -/
def encode (cfg : Config) (i : Instr) : Option CodeWord :=
  match i with
  | .init | .step _ _ | .flush _ _ | .cmdReserved =>
    (encodeCommand i).map fun c => ⟨.cmd, 130, c.toNat⟩
  | .prepareNewBlock => some ⟨.resume, 2, 0⟩
  | .readChunk => some ⟨.resume, 2, 1⟩
  | .checkSignatureState => some ⟨.resume, 2, 2⟩
  | .resumeUnrecognized => some ⟨.resume, 2, 3⟩
  | .statusReady => some ⟨.status, 3, 0⟩
  | .statusStallOnInput => some ⟨.status, 3, 1⟩
  | .statusStallOnOutput => some ⟨.status, 3, 2⟩
  | .statusInfoEfficiencyCheck => some ⟨.status, 3, 3⟩
  | .statusInfoNewBlock => some ⟨.status, 3, 4⟩
  | .statusError => some ⟨.status, 3, 5⟩
  | .selRank0 => (cfg.formCode[0]?).map (Code.word .sel)
  | .selRank1 => (cfg.formCode[1]?).map (Code.word .sel)
  | .selRank2 => (cfg.formCode[2]?).map (Code.word .sel)
  | .selRank3 => (cfg.formCode[3]?).map (Code.word .sel)
  | .selEnd => some (cfg.endCode.word .sel)
  | .letter r => (cfg.codebook[r.toNat]?).map (Code.word .letter)
  | .hash16 h => some ⟨.bytes, 16, h.toNat⟩
  | .sigword w => some ⟨.bytes, 64, w.toNat⟩
  | .tail t => some ⟨.bytes, 8, t.toNat⟩
  | .processUnit | .flushTail | .recordUseForm _ | .recordUseLetter _ | .rankInit _
  | .hash _ | .classify _ _ | .dictUpdate _ _ _ | .processChunk _ | .dictReset
  | .startSig | .push _ _ | .emitSelector _ | .emitHash16 _ | .emitLetter _
  | .emitLiteral _ | .emitEnd | .emitTail => none

end Sys2Proof
end

