-- ==== Sys2Proof/Machine/State.lean ====
section
/-! DEFINITION. The state of the block, as plain data: every register and table of `spec/10_state.md` rule
R41 (fields `resume` to `outPtr`), the two streams IN and OUT the block reaches (rule R60), the
configuration it is given (rule R40), and, last, the model's own fields: the latched arguments of the
command in progress, the last status, the result wire of an internal operation, and the commands the
host has still to present. What a field's rule is stands in INVENTORY.md under "State". -/

namespace Sys2Proof.Machine

/-- Why the machine stops. The first three are the model faults of `spec/93_implementation_defined.md`
section 2: breaches of the host's contract, outside the block's defined behaviour. -/
inductive Fault where
  /-- A write to OUT would touch an offset at or beyond `out_limit` (rules R64, R76, R298). Raised by
  `memWrite`. Safe: the host contract excludes it (rule R222). -/
  | outputOverrun
  /-- A cursor would reach 2^64, or a command's `in_limit` is below `in_ptr` (rules R76, R298). Raised by
  `advance` and by `dispatch`. Safe: the host contract excludes it. -/
  | offsetOverflow
  /-- PUSH with `bits` outside 1..64 or `content >= 2^bits` (rule R175). Raised by `push`. Safe:
  unreachable with an accepted configuration. -/
  | pushOperand
  /-- A read of IN at or beyond `in_limit`, or of a byte the host has not supplied although its
  `in_limit` covers it: `MemRead` is defined only below `in_limit` (rules R61, R62). Raised by `memRead`.
  Safe: every read of a command is preceded by the test of the bytes available (log entry 9). -/
  | inputOverrun
  /-- The driver made more transfers of control than a command can make. Never raised: rule R220 says
  every command terminates, and the bound `driverFuel` is above what it can need. Safe (log entry 10). -/
  | noProgress
deriving DecidableEq, Repr

/-- Why the machine refuses an instruction. -/
inductive Refusal where
  /-- The instruction has no meaning in this model yet. Raised by no arm of `exec`. Safe. -/
  | notModelled (mnemonic : String)
  /-- INIT under a configuration that fails its checks: no session is created (rule R201 and
  `spec/93_implementation_defined.md` U7). Raised by `execInit`. Safe. -/
  | configRejected
deriving DecidableEq, Repr

/-- A table of `w`-bit cells: the cells that differ from the table's fresh contents, by rising index
(log entry 4). What an unlisted cell holds is the fresh contents, `zeroCell` or `identityCell` of
`Sys2Proof/Machine/Ops.lean`. -/
abbrev Cells (w : Nat) := List (Nat × BitVec w)

/-- A stream's bytes: the bytes that have been supplied or written, by rising offset. An unlisted offset
holds no value (log entry 3). -/
abbrev Memory := List Host.Cell

/-- A rank table (rule R120): `usage` and `rank` by element, `byRank` by rank. The fresh contents are 0
for a usage and the identity for the other two (rule R129). -/
structure RankTable where
  usage : Cells 32
  rank : Cells 8
  byRank : Cells 8
deriving DecidableEq, Repr

/-- The arguments of the STEP or FLUSH in progress, latched before dispatch and forgotten when the
command returns (rules R39, R202). -/
structure Latch where
  mode : Mode
  inLimit : Word64
  outLimit : Word64
deriving DecidableEq, Repr

/-- No command is in progress (log entry 6). -/
def Latch.idle : Latch := ⟨.step, 0, 0⟩

/-- The state of the machine. -/
structure State where
  /-- `resume`, rule R21. -/
  resume : BitVec 2
  /-- LETTER, rule R23. -/
  letter : RankTable
  /-- FORM, rule R25. -/
  form : RankTable
  /-- `chunk_a`, rule R27. -/
  chunkA : Cells 32
  /-- `chunk_b`, rule R27. -/
  chunkB : Cells 32
  /-- `pred`, rule R28. -/
  pred : Cells 32
  /-- `last_hash`, rule R29. -/
  lastHash : Hash
  /-- `sig_addr`, rule R31. -/
  sigAddr : Word64
  /-- `sig_word`, rule R32. -/
  sigWord : Word64
  /-- The bit cursor `s`, 7 bits holding 0..64, rule R33. -/
  bitPos : BitVec 7
  /-- `sig_count`, rule R34. -/
  sigCount : Counter
  /-- `eff_checked`, rule R35. -/
  effChecked : Bool
  /-- `reset_cycle`, rule R36. -/
  resetCycle : Counter
  /-- `in_ptr`, rule R37. -/
  inPtr : Word64
  /-- `out_ptr`, rule R38. -/
  outPtr : Word64
  /-- The input stream IN, rules R60, R61. -/
  input : Memory
  /-- The output stream OUT, rules R60, R64. -/
  output : Memory
  /-- The configuration the host supplies, rules R40, R268 (log entry 11). -/
  cfg : Config
  /-- The model's own: the arguments of the command in progress, rules R39, R202 (log entry 6). -/
  latch : Latch
  /-- The model's own: the status of the last command that returned, rule R268 (log entry 12). -/
  status : Option Status
  /-- The model's own: the value the last executed operation with a result handed to its caller (log
  entry 12). -/
  result : BitVec 16
  /-- The model's own: the commands the host has still to present, rule R110 (log entries 5, 12). -/
  commands : List CommandWord
deriving DecidableEq, Repr

/-- A rank table in its fresh state (rule R129). -/
def RankTable.fresh : RankTable := ⟨[], [], []⟩

/-- The machine right after hardware reset: `resume` is 3 and nothing else is given a value by the spec
(rule R280). The other values are the model's choice (log entry 1); no command reads them before
INIT has overwritten them. -/
def State.reset : State where
  resume := 3
  letter := RankTable.fresh
  form := RankTable.fresh
  chunkA := []
  chunkB := []
  pred := []
  lastHash := 0
  sigAddr := 0
  sigWord := 0
  bitPos := 0
  sigCount := 0
  effChecked := false
  resetCycle := 0
  inPtr := 0
  outPtr := 0
  input := []
  output := []
  cfg := Config.test
  latch := Latch.idle
  status := none
  result := 0
  commands := []

end Sys2Proof.Machine
end

