-- ==== Sys2Proof/Machine/Operands.lean ====
section
/-! DEFINITION. Operand forms and derived operands: byte order, form identifiers, table codes, the hash,
the bytes available (rule R17), and the checks of a configuration (rules R11, R12, R67). -/

namespace Sys2Proof.Machine

/-! ### Byte order (rules R64, R66, R68) -/

/-- `le32` of rule R16: the chunk assembled from four bytes, the first in bits 7..0. -/
def le32 (b0 b1 b2 b3 : Byte) : Chunk :=
  BitVec.ofNat 32 (b0.toNat + 256 * b1.toNat + 65536 * b2.toNat + 16777216 * b3.toNat)

/-- Byte `k` of a chunk, `chunk[8k+7:8k]`: the byte at the `k`-th input offset of the chunk (rule R66). -/
def chunkByte (c : Chunk) (k : Nat) : Byte := BitVec.ofNat 8 (c.toNat / 2 ^ (8 * k))

/-! ### Forms and code tables (rules R94, R98, R100) -/

/-- The form identifier of rule R94, as the 8-bit cell of the FORM table holds it (rule R25). -/
def formId : Form → BitVec 8
  | .literal => 0
  | .dictA => 1
  | .dictB => 2
  | .predicted => 3

/-- The status code of rule R92. -/
def statusCode : Status → BitVec 3
  | .ready => 0
  | .stallOnInput => 1
  | .stallOnOutput => 2
  | .infoEfficiencyCheck => 3
  | .infoNewBlock => 4
  | .error => 5

/-- `CODEBOOK[r]` (rule R11), and a code of no bits, which PUSH refuses, where the table ends before
rank `r`: an accepted codebook has all 256 entries. -/
def codebookAt (cfg : Config) (r : BitVec 8) : Code := cfg.codebook.getD r.toNat ⟨0, 0⟩

/-- `FORM_CODE[r]` (rules R13, R98), and a code of no bits, which PUSH refuses, where the table ends before
rank `r`. -/
def formCodeAt (cfg : Config) (r : BitVec 8) : Code := cfg.formCode.getD r.toNat ⟨0, 0⟩

/-! ### The hash (rules R10, R141) -/

/-- The hash function a configuration names; `fold` is `H_FOLD` of rule R10. -/
def applyHash : HashFunction → Chunk → Hash
  | .fold, c => BitVec.ofNat 16 ((c ^^^ (c >>> 16)).toNat)
  | .free n, c => Config.freeHash n c

/-- `H(chunk)`, rule R141. -/
def hashOf (cfg : Config) (c : Chunk) : Hash := applyHash cfg.hash c

/-! ### Bytes available (rule R17) -/

/-- `in_avail`: `in_limit - in_ptr`, or 0 where the limit is below the cursor. -/
def inAvail (s : State) : Nat := s.latch.inLimit.toNat - s.inPtr.toNat

/-- `out_avail`: `out_limit - out_ptr`, or 0 where the limit is below the cursor. -/
def outAvail (s : State) : Nat := s.latch.outLimit.toNat - s.outPtr.toNat

/-! ### The checks of a configuration (rules R11, R12, R67; `spec/93_implementation_defined.md` U7) -/

/-- `LMAX`, the longest code of a codebook (rule R11). -/
def longestCode : List Code → Nat
  | [] => 0
  | c :: cs => max c.bits.toNat (longestCode cs)

/-- `T`, the most bits one processing unit can push (rules R12, R183). -/
def unitBits (cfg : Config) : Nat := 8 * (4 + 4 * longestCode cfg.codebook)

/-- `W = ceil(T / 64)`, the most signature words one processing unit can start (rule R222). -/
def unitWords (cfg : Config) : Nat := (unitBits cfg + 63) / 64

/-- A code satisfies rule R175's operand discipline, which rule R11 asks of every codebook entry. -/
def codeLegal (c : Code) : Bool := pushOperandsLegal c.content c.bits

/-- The codebook is well formed: 256 entries, each `1 <= len <= 64` and `code < 2^len` (rule R11). -/
def codebookAccepted (cfg : Config) : Bool := cfg.codebook.length == 256 && cfg.codebook.all codeLegal

/-- `EFF_T >= 1` and `BLK_T >= 1`, and `RESET_CYCLE >= 1` when the periodic reset is enabled (rule R12). -/
def thresholdsAccepted (cfg : Config) : Bool :=
  cfg.effT != 0 && cfg.blkT != 0 && (!cfg.periodicResetEn || cfg.resetCycle != 0)

/-- `MIN_LOOKAHEAD` meets its bound `8*ceil(T/64) + 25` (rules R12, R222). -/
def lookaheadAccepted (cfg : Config) : Bool := decide (8 * unitWords cfg + 25 ≤ cfg.minLookahead.toNat)

/-- The stream is least-significant-bit first: the other order is refused (rule R67). -/
def bitOrderAccepted (cfg : Config) : Bool := cfg.bitOrder == .leastSignificantFirst

/-- The configuration passes every check; INIT refuses one that does not (rule R201). -/
def configAccepted (cfg : Config) : Bool :=
  codebookAccepted cfg && thresholdsAccepted cfg && lookaheadAccepted cfg && bitOrderAccepted cfg

end Sys2Proof.Machine
end

