-- ==== Sys2Proof/Machine/Flags.lean ====
section
/-! DEFINITION. The one flag of the block, `eff_checked` (rule R35), and the tests the driver makes on it
and on the counters. The block has no carry, zero, sign or overflow flag. -/

namespace Sys2Proof.Machine

/-- Test 2 of PREPARE_NEW_BLOCK: `sig_count` equals `EFF_T` and the check has not fired in this block
(rule R207). -/
def efficiencyCheckDue (s : State) : Bool := s.sigCount == s.cfg.effT && !s.effChecked

/-- Test 3 of PREPARE_NEW_BLOCK: `sig_count` equals `BLK_T` (rule R208). -/
def blockEndDue (s : State) : Bool := s.sigCount == s.cfg.blkT

/-- `out_avail < MIN_LOOKAHEAD`, the test of PREPARE_NEW_BLOCK and of CHECK_SIGNATURE_STATE (rules R206,
R215). -/
def outputShort (s : State) : Bool := decide (outAvail s < s.cfg.minLookahead.toNat)

/-- The current signature word is exactly full (rules R19, R33). -/
def wordFull (s : State) : Bool := s.bitPos == 64

/-- The flag after the efficiency check has fired (rule R207). -/
def markEfficiencyChecked (s : State) : State := { s with effChecked := true }

/-- The flag and the word counter at a block end (rule R208). -/
def clearBlockCounters (s : State) : State := { s with sigCount := 0, effChecked := false }

end Sys2Proof.Machine
end

