-- ==== Sys2Proof/Machine/Ops.lean ====
section
/-! DEFINITION. The named operations over the tables, the streams and the registers: reading and writing a
cell, `MemRead` and `MemWrite` (rules R62, R64), RECORD_USE and RANK_INIT (R121, R129), DICT_RESET
(R154), latching a command, and returning a status, the block's one way of taking an exception
(R260). -/

namespace Sys2Proof.Machine

/-! ### Keyed lists: the one form of memory and of tables -/

/-- The value listed under a key. -/
def lookup {α : Type} : List (Nat × α) → Nat → Option α
  | [], _ => none
  | (k, v) :: t, a => if k = a then some v else lookup t a

/-- The list with the value under a key written, the keys kept in rising order. -/
def insert {α : Type} : List (Nat × α) → Nat → α → List (Nat × α)
  | [], a, v => [(a, v)]
  | (k, w) :: t, a, v =>
    if a < k then (a, v) :: (k, w) :: t
    else if a = k then (a, v) :: t
    else (k, w) :: insert t a v

/-- The list with nothing under a key. -/
def erase {α : Type} : List (Nat × α) → Nat → List (Nat × α)
  | [], _ => []
  | (k, w) :: t, a => if k = a then erase t a else (k, w) :: erase t a

/-- The keys rise strictly, so that a list is the only one with its contents. -/
abbrev keysRise {α : Type} (m : List (Nat × α)) : Prop := m.Pairwise (fun x y => x.1 < y.1)

/-! ### Tables -/

/-- The fresh contents of a usage, CHUNK or PRED cell: 0 (rules R129, R154). -/
def zeroCell {w : Nat} (_ : Nat) : BitVec w := 0

/-- The fresh contents of a rank cell: its own index (rule R129). -/
def identityCell (i : Nat) : BitVec 8 := BitVec.ofNat 8 i

/-- Read cell `i` of a table. -/
def getCell {w : Nat} (fresh : Nat → BitVec w) (t : Cells w) (i : Nat) : BitVec w :=
  (lookup t i).getD (fresh i)

/-- Write cell `i` of a table; a cell that gets its fresh contents back is no longer listed. -/
def setCell {w : Nat} (fresh : Nat → BitVec w) (t : Cells w) (i : Nat) (v : BitVec w) : Cells w :=
  if v = fresh i then erase t i else insert t i v

/-- A table is in its one canonical form: indexes rise, are below the table's size `n`, and no listed
cell holds its fresh contents. -/
abbrev Cells.wf {w : Nat} (fresh : Nat → BitVec w) (n : Nat) (t : Cells w) : Prop :=
  keysRise t ∧ ∀ c ∈ t, c.1 < n ∧ c.2 ≠ fresh c.1

/-! ### The streams -/

/-- What an offset of a stream holds: no value where nothing has been supplied or written there. -/
def readByte (m : Memory) (a : Nat) : Option Byte := lookup m a

/-- A stream's bytes are in their one canonical form: offsets rise and are below 2^64 (rule R60). -/
abbrev Memory.wf (m : Memory) : Prop := keysRise m ∧ ∀ c ∈ m, c.1 < 2 ^ 64

/-- The `n` bytes of a stream from offset `a`, lowest offset first. -/
def readBytes (m : Memory) (a : Nat) : Nat → Option (List Byte)
  | 0 => some []
  | n + 1 =>
    match readByte m a, readBytes m (a + 1) n with
    | some b, some bs => some (b :: bs)
    | _, _ => none

/-- `n` bytes of the value `v` stored from offset `a`, least-significant byte first (rule R64). -/
def writeBytes (m : Memory) (a : Nat) : Nat → Nat → Memory
  | 0, _ => m
  | n + 1, v => writeBytes (insert m a (BitVec.ofNat 8 v)) (a + 1) n (v / 256)

/-- `MemRead(IN, addr, n)`, rule R62. -/
def memRead (s : State) (a n : Nat) : Except Fault (List Byte) :=
  if s.latch.inLimit.toNat < a + n then .error .inputOverrun
  else
    match readBytes s.input a n with
    | some bs => .ok bs
    | none => .error .inputOverrun

/-- `MemWrite(OUT, addr, n, v)`, rule R64; a write at or beyond `out_limit` is a fault (rule R76). -/
def memWrite (s : State) (a n v : Nat) : Except Fault State :=
  if s.latch.outLimit.toNat < a + n then .error .outputOverrun
  else .ok { s with output := writeBytes s.output a n v }

/-- A cursor moved forward; no offset wraps (rule R76). -/
def advance (p : Word64) (n : Nat) : Except Fault Word64 :=
  if p.toNat + n < 2 ^ 64 then .ok (BitVec.ofNat 64 (p.toNat + n)) else .error .offsetOverflow

/-! ### Rank tables -/

/-- `T.usage[e]`. -/
def RankTable.usageOf (t : RankTable) (e : BitVec 8) : Counter := getCell zeroCell t.usage e.toNat

/-- `T.rank[e]`. -/
def RankTable.rankOf (t : RankTable) (e : BitVec 8) : BitVec 8 := getCell identityCell t.rank e.toNat

/-- `T.by_rank[r]`. -/
def RankTable.atRank (t : RankTable) (r : BitVec 8) : BitVec 8 := getCell identityCell t.byRank r.toNat

/-- `T.usage[e] <- u`. -/
def RankTable.setUsage (t : RankTable) (e : BitVec 8) (u : Counter) : RankTable :=
  { t with usage := setCell zeroCell t.usage e.toNat u }

/-- `T.rank[e] <- r`. -/
def RankTable.setRank (t : RankTable) (e r : BitVec 8) : RankTable :=
  { t with rank := setCell identityCell t.rank e.toNat r }

/-- `T.by_rank[r] <- e`. -/
def RankTable.setAtRank (t : RankTable) (r e : BitVec 8) : RankTable :=
  { t with byRank := setCell identityCell t.byRank r.toNat e }

/-- The four writes of RECORD_USE's swap: `e`, of rank `r`, changes places with `o`, one rank above it
(rule R121). -/
def RankTable.swapUp (t : RankTable) (e o r : BitVec 8) : RankTable :=
  (((t.setRank e (r - 1)).setRank o r).setAtRank (r - 1) e).setAtRank r o

/-- The usage increment of RECORD_USE, modulo 2^32 (rules R121, R128). -/
def RankTable.countUse (t : RankTable) (e : BitVec 8) : RankTable := t.setUsage e (t.usageOf e + 1)

/-- The table after RECORD_USE(T, e), rule R121. -/
def RankTable.recordUse (t : RankTable) (e : BitVec 8) : RankTable :=
  let r := t.rankOf e
  let counted := t.countUse e
  let o := t.atRank (r - 1)
  if r ≠ 0 ∧ counted.usageOf o < counted.usageOf e then counted.swapUp e o r else counted

/-- RANK_INIT(T), rule R129: every usage 0, every rank the identity. -/
def rankInit : RankTable := RankTable.fresh

/-- RANK_INIT of one of the two tables (rule R120). -/
def rankInitOf (t : RankTableId) (s : State) : State :=
  match t with
  | .form => { s with form := rankInit }
  | .letter => { s with letter := rankInit }

/-! ### The dictionary tables -/

/-- `chunk_a[h]`. -/
def chunkAAt (s : State) (h : Hash) : Chunk := getCell zeroCell s.chunkA h.toNat

/-- `chunk_b[h]`. -/
def chunkBAt (s : State) (h : Hash) : Chunk := getCell zeroCell s.chunkB h.toNat

/-- `pred[h]`. -/
def predAt (s : State) (h : Hash) : Chunk := getCell zeroCell s.pred h.toNat

/-- Write both slots of a bucket of the CHUNK table. -/
def setBucket (s : State) (h : Hash) (a b : Chunk) : State :=
  { s with
    chunkA := setCell zeroCell s.chunkA h.toNat a
    chunkB := setCell zeroCell s.chunkB h.toNat b }

/-- `pred[h] <- c`. -/
def setPred (s : State) (h : Hash) (c : Chunk) : State :=
  { s with pred := setCell zeroCell s.pred h.toNat c }

/-- `last_hash <- h`. -/
def setLastHash (s : State) (h : Hash) : State := { s with lastHash := h }

/-- DICT_RESET(), rule R154: the LETTER table fresh, CHUNK and PRED all zero, `last_hash` 0. -/
def dictReset (s : State) : State :=
  { rankInitOf .letter s with chunkA := [], chunkB := [], pred := [], lastHash := 0 }

/-! ### Named updates of single registers -/

/-- `resume <- r`. -/
def setResume (s : State) (r : BitVec 2) : State := { s with resume := r }

/-- The FORM table replaced. -/
def setForm (s : State) (t : RankTable) : State := { s with form := t }

/-- The LETTER table replaced. -/
def setLetter (s : State) (t : RankTable) : State := { s with letter := t }

/-- The value an operation hands its caller. -/
def setResult (s : State) (v : BitVec 16) : State := { s with result := v }

/-- The arguments of STEP or FLUSH, latched before dispatch (rule R202). -/
def latchCommand (s : State) (m : Mode) (il ol : Word64) : State := { s with latch := ⟨m, il, ol⟩ }

/-- The end of a command: its status is presented and its arguments are forgotten (rules R39, R260). -/
def endCommand (s : State) (st : Status) : State := { s with status := some st, latch := Latch.idle }

/-! ### Returning a status: the block's exception entry (rules R257, R260) -/

/-- The block-end work of PREPARE_NEW_BLOCK's test 3: counters cleared and the periodic dictionary reset
of rule R209. -/
def endBlock (s : State) : State :=
  let cleared := clearBlockCounters s
  if s.cfg.periodicResetEn then
    let counted := { cleared with resetCycle := s.resetCycle + 1 }
    if s.resetCycle + 1 = s.cfg.resetCycle then { dictReset counted with resetCycle := 0 } else counted
  else cleared

/-- The row of the cause table of rule R257 that a status is returned for. -/
inductive Cause where
  | initReady
  | flushReady
  | stallOnInput
  | stallOnOutputPrepare
  | stallOnOutputCheck
  | efficiencyCheck
  | newBlock
  | error
deriving DecidableEq, Repr

/-- The status column of rule R257. -/
def Cause.status : Cause → Status
  | .initReady => .ready
  | .flushReady => .ready
  | .stallOnInput => .stallOnInput
  | .stallOnOutputPrepare => .stallOnOutput
  | .stallOnOutputCheck => .stallOnOutput
  | .efficiencyCheck => .infoEfficiencyCheck
  | .newBlock => .infoNewBlock
  | .error => .error

/-- The state written for a cause before the status is presented: the "`resume` after" and "other state
written" columns of rule R257, but for what the raising operation has written before (the INIT
column; the END code and the tail bytes). -/
def causeWrites (c : Cause) (s : State) : State :=
  match c with
  | .initReady => setResume s 0
  | .flushReady => setResume s 3
  | .stallOnInput => setResume s 1
  | .stallOnOutputPrepare => setResume s 0
  | .stallOnOutputCheck => setResume s 2
  | .efficiencyCheck => setResume (markEfficiencyChecked s) 0
  | .newBlock => setResume (endBlock s) 0
  | .error => s

/-- Rule R260: the state of the cause is written, `resume` is written, the command ends and its status is
presented. The return from a status is the next STEP or FLUSH, which re-enters at `resume` (rule R261);
it is `dispatch` of `Sys2Proof/Machine/Driver.lean`. -/
def raise (c : Cause) (s : State) : State := endCommand (causeWrites c s) c.status

/-! ### The command port -/

/-- The next command the host presents, and the state with that command taken. -/
def fetchCommand (s : State) : Option (CommandWord × State) :=
  match s.commands with
  | [] => none
  | c :: cs => some (c, { s with commands := cs })

/-! ### Outcomes -/

/-- An operation's end as an outcome of the machine. -/
def outcomeOf : Except Fault State → Host.Outcome State Fault Refusal
  | .ok s => .next s
  | .error f => .fault f

end Sys2Proof.Machine
end

