-- ==== Sys2Proof/Machine/Rank.lean ====
section
/-! DEFINITION. The rank selector (`spec/40_rank_selector.md`): RECORD_USE_FORM, RECORD_USE_LETTER and
RANK_INIT. The rank a RECORD_USE returns is the rank before the update (rule R126). -/

namespace Sys2Proof.Machine

/-- The FORM table after RECORD_USE_FORM(f), in the state (rule R122). -/
def recordForm (s : State) (f : Form) : State := setForm s (s.form.recordUse (formId f))

/-- The LETTER table after RECORD_USE_LETTER(b), in the state (rule R123). -/
def recordLetter (s : State) (b : Byte) : State := setLetter s (s.letter.recordUse b)

/-- RECORD_USE_FORM(f), rule R122; its result is the form's rank before the update. -/
def execRecordUseForm (f : Form) (s : State) : Host.Outcome State Fault Refusal :=
  .next (setResult (recordForm s f) ((s.form.rankOf (formId f)).setWidth 16))

/-- RECORD_USE_LETTER(b), rule R123; its result is the byte's rank before the update. -/
def execRecordUseLetter (b : Byte) (s : State) : Host.Outcome State Fault Refusal :=
  .next (setResult (recordLetter s b) ((s.letter.rankOf b).setWidth 16))

/-- RANK_INIT(T), rule R129. -/
def execRankInit (t : RankTableId) (s : State) : Host.Outcome State Fault Refusal :=
  .next (rankInitOf t s)

end Sys2Proof.Machine
end

