-- ==== Sys2Proof/Machine/Packer.lean ====
section
/-! DEFINITION. The signature packer (`spec/42_signature_packer.md`): START_SIG, PUSH and the emission
operations. -/

namespace Sys2Proof.Machine

/-! ### START_SIG and PUSH -/

/-- START_SIG(), rule R171. -/
def startSig (s : State) : Except Fault State := do
  let t ← memWrite s s.outPtr.toNat 8 0
  let p ← advance s.outPtr 8
  .ok { t with sigAddr := s.outPtr, sigWord := 0, outPtr := p, bitPos := 0, sigCount := s.sigCount + 1 }

/-- The first two lines of PUSH's pseudocode (rule R172): the bits that fit are ORed into the word at the
cursor, none where the cursor is 64 (rule R174), and the word is written through (rule R32). -/
def orIntoWord (content : Word64) (s : State) : Except Fault State := do
  let word := s.sigWord ||| (content <<< s.bitPos.toNat)
  let t ← memWrite s s.sigAddr.toNat 8 word.toNat
  .ok { t with sigWord := word }

/-- The inner PUSH of rule R173, made right after START_SIG with at most 64 bits: it cannot overflow. -/
def pushRest (content : Word64) (bits : Nat) (s : State) : Except Fault State :=
  if bits ≤ 64 ∧ content.toNat < 2 ^ bits then do
    let t ← orIntoWord content s
    .ok { t with bitPos := BitVec.ofNat 7 bits }
  else .error .pushOperand

/-- PUSH(content, bits), rule R172, under the operand discipline of rule R175. -/
def push (content : Word64) (bits : BitVec 8) (s : State) : Except Fault State :=
  if pushOperandsLegal content bits then do
    let t ← orIntoWord content s
    let n := s.bitPos.toNat + bits.toNat
    if 64 < n then do
      let u ← startSig t
      pushRest (content >>> (64 - s.bitPos.toNat)) (n - 64) u
    else .ok { t with bitPos := BitVec.ofNat 7 n }
  else .error .pushOperand

/-- PUSH of a table entry (rules R98 to R100). -/
def pushCode (c : Code) (s : State) : Except Fault State := push c.content c.bits s

/-! ### Emission -/

/-- EMIT_SELECTOR(form), rule R176: the code of the rank before the update. -/
def emitSelector (f : Form) (s : State) : Except Fault State :=
  pushCode (formCodeAt s.cfg (s.form.rankOf (formId f))) (recordForm s f)

/-- EMIT_HASH16(h), rule R177: two bytes at `out_ptr`, low byte first (rule R68). -/
def emitHash16 (h : Hash) (s : State) : Except Fault State := do
  let t ← memWrite s s.outPtr.toNat 2 h.toNat
  let p ← advance s.outPtr 2
  .ok { t with outPtr := p }

/-- EMIT_LETTER(b), rule R178: the codebook entry of the rank before the update. -/
def emitLetter (b : Byte) (s : State) : Except Fault State :=
  pushCode (codebookAt s.cfg (s.letter.rankOf b)) (recordLetter s b)

/-- EMIT_LITERAL(chunk), rule R179: the four bytes one after another, lowest input offset first. -/
def emitLiteral (c : Chunk) (s : State) : Except Fault State := do
  let t0 ← emitLetter (chunkByte c 0) s
  let t1 ← emitLetter (chunkByte c 1) t0
  let t2 ← emitLetter (chunkByte c 2) t1
  emitLetter (chunkByte c 3) t2

/-- EMIT_END(), rule R180: the end code, with no update of the FORM table. -/
def emitEnd (s : State) : Except Fault State := pushCode s.cfg.endCode s

/-- One raw byte appended to OUT and counted in both cursors: the body of EMIT_TAIL's loop (rule R181). -/
def tailByte (b : Byte) (s : State) : Except Fault State := do
  let t ← memWrite s s.outPtr.toNat 1 b.toNat
  let p ← advance s.outPtr 1
  let q ← advance s.inPtr 1
  .ok { t with outPtr := p, inPtr := q }

/-- `n` turns of EMIT_TAIL's loop (rule R181). -/
def tailBytes : Nat → State → Except Fault State
  | 0, s => .ok s
  | n + 1, s => do
    let bs ← memRead s s.inPtr.toNat 1
    let t ← tailByte (bs.headD 0) s
    tailBytes n t

/-- EMIT_TAIL(), rule R181: every turn lowers `in_avail` by one, so the loop makes `in_avail` turns. -/
def emitTail (s : State) : Except Fault State := tailBytes (inAvail s) s

/-! ### The meanings -/

/-- START_SIG, rule R171. -/
def execStartSig (s : State) : Host.Outcome State Fault Refusal := outcomeOf (startSig s)

/-- PUSH, rule R172. -/
def execPush (content : Word64) (bits : BitVec 8) (s : State) : Host.Outcome State Fault Refusal :=
  outcomeOf (push content bits s)

/-- EMIT_SELECTOR, rule R176. -/
def execEmitSelector (f : Form) (s : State) : Host.Outcome State Fault Refusal :=
  outcomeOf (emitSelector f s)

/-- EMIT_HASH16, rule R177. -/
def execEmitHash16 (h : Hash) (s : State) : Host.Outcome State Fault Refusal :=
  outcomeOf (emitHash16 h s)

/-- EMIT_LETTER, rule R178. -/
def execEmitLetter (b : Byte) (s : State) : Host.Outcome State Fault Refusal :=
  outcomeOf (emitLetter b s)

/-- EMIT_LITERAL, rule R179. -/
def execEmitLiteral (c : Chunk) (s : State) : Host.Outcome State Fault Refusal :=
  outcomeOf (emitLiteral c s)

/-- EMIT_END, rule R180. -/
def execEmitEnd (s : State) : Host.Outcome State Fault Refusal := outcomeOf (emitEnd s)

/-- EMIT_TAIL, rule R181. -/
def execEmitTail (s : State) : Host.Outcome State Fault Refusal := outcomeOf (emitTail s)

end Sys2Proof.Machine
end

