-- ==== Sys2Proof/Machine/Dictionary.lean ====
section
/-! DEFINITION. The dictionary and the chunk classifier (`spec/41_dictionary.md`): HASH, CLASSIFY,
DICT_UPDATE, PROCESS_CHUNK and DICT_RESET. -/

namespace Sys2Proof.Machine

/-- CLASSIFY(chunk, h), rule R142: the three equality tests in the priority of rule R151. -/
def classify (s : State) (c : Chunk) (h : Hash) : Form :=
  if predAt s s.lastHash = c then .predicted
  else if chunkAAt s h = c then .dictA
  else if chunkBAt s h = c then .dictB
  else .literal

/-- The CHUNK half of DICT_UPDATE (rule R143): on DICT_B and LITERAL slot A moves to slot B and the chunk
becomes the most recent; on DICT_A the shift is not performed. -/
def updateBucket (f : Form) (c : Chunk) (h : Hash) (s : State) : State :=
  match f with
  | .dictB | .literal => setBucket s h c (chunkAAt s h)
  | .dictA | .predicted => s

/-- The PRED half of DICT_UPDATE (rules R143, R149): every form but PREDICTED writes `pred[last_hash]`. -/
def updatePred (f : Form) (c : Chunk) (s : State) : State :=
  match f with
  | .predicted => s
  | .literal | .dictA | .dictB => setPred s s.lastHash c

/-- DICT_UPDATE(form, chunk, h), rule R143. -/
def dictUpdate (f : Form) (c : Chunk) (h : Hash) (s : State) : State := updatePred f c (updateBucket f c h s)

/-- The payload of a chunk (rules R103, R145 to R148): hash bytes for DICT_B, four letters for LITERAL. -/
def emitPayload (f : Form) (c : Chunk) (h : Hash) (s : State) : Except Fault State :=
  match f with
  | .dictB => emitHash16 h s
  | .literal => emitLiteral c s
  | .dictA | .predicted => .ok s

/-- PROCESS_CHUNK(chunk), rule R144. -/
def processChunk (c : Chunk) (s : State) : Except Fault State := do
  let h := hashOf s.cfg c
  let f := classify s c h
  let t ← emitSelector f s
  let u ← emitPayload f c h t
  .ok (setLastHash (dictUpdate f c h u) h)

/-- HASH(chunk), rule R141; its result is the hash and no other state is read or written. -/
def execHash (c : Chunk) (s : State) : Host.Outcome State Fault Refusal := .next (setResult s (hashOf s.cfg c))

/-- CLASSIFY(chunk, h), rule R142; its result is the form's identifier (rule R94). -/
def execClassify (c : Chunk) (h : Hash) (s : State) : Host.Outcome State Fault Refusal :=
  .next (setResult s ((formId (classify s c h)).setWidth 16))

/-- DICT_UPDATE(form, chunk, h), rule R143. -/
def execDictUpdate (f : Form) (c : Chunk) (h : Hash) (s : State) : Host.Outcome State Fault Refusal :=
  .next (dictUpdate f c h s)

/-- PROCESS_CHUNK(chunk), rule R144. -/
def execProcessChunk (c : Chunk) (s : State) : Host.Outcome State Fault Refusal :=
  outcomeOf (processChunk c s)

/-- DICT_RESET(), rule R154. -/
def execDictReset (s : State) : Host.Outcome State Fault Refusal := .next (dictReset s)

end Sys2Proof.Machine
end

