-- ==== Sys2Proof/Machine/Status.lean ====
section
/-! DEFINITION. The STATUS rows of the opcode table: returning each status, by the one shared operation
`raise` (rules R251 to R257, R260). Two statuses have two causes in the cause table of rule R257; which
of the two a bare `return` stands for is read from the state (log entry 8). -/

namespace Sys2Proof.Machine

/-- The cause of a `Ready`: with a FLUSH in progress its completion, otherwise INIT (rules R219, R256:
STEP never returns `Ready`). -/
def readyCause (s : State) : Cause :=
  match s.latch.mode with
  | .flush => .flushReady
  | .step => .initReady

/-- The cause of a `StallOnOutput`: PREPARE_NEW_BLOCK is entered only with no bit in the current word
or with the word exactly full, CHECK_SIGNATURE_STATE stalls with neither (rules R210, R215, R252). -/
def stallOnOutputCause (s : State) : Cause :=
  if s.bitPos = 0 ∨ s.bitPos = 64 then .stallOnOutputPrepare else .stallOnOutputCheck

/-- STATUS_Ready, rule R256. -/
def execStatusReady (s : State) : Host.Outcome State Fault Refusal := .next (raise (readyCause s) s)

/-- STATUS_StallOnInput, rule R251. -/
def execStatusStallOnInput (s : State) : Host.Outcome State Fault Refusal := .next (raise .stallOnInput s)

/-- STATUS_StallOnOutput, rule R252. -/
def execStatusStallOnOutput (s : State) : Host.Outcome State Fault Refusal :=
  .next (raise (stallOnOutputCause s) s)

/-- STATUS_InfoEfficiencyCheck, rule R253. -/
def execStatusInfoEfficiencyCheck (s : State) : Host.Outcome State Fault Refusal :=
  .next (raise .efficiencyCheck s)

/-- STATUS_InfoNewBlock, rule R254. -/
def execStatusInfoNewBlock (s : State) : Host.Outcome State Fault Refusal := .next (raise .newBlock s)

/-- STATUS_Error, rule R255. -/
def execStatusError (s : State) : Host.Outcome State Fault Refusal := .next (raise .error s)

end Sys2Proof.Machine
end

