-- ==== Sys2Proof/Machine/Driver.lean ====
section
/-! DEFINITION. The encode driver (`spec/43_encode_driver.md`): the three handlers and FLUSH_TAIL, one
function each that says where control goes (the transfer table of rule R218); the loop that runs them
until one returns a status (rule R200); dispatch (R202); and the host's commands. -/

namespace Sys2Proof.Machine

/-! ### Input -/

/-- `n` chunks of IN from offset `a`, read and processed strictly one after another (rules R79, R213,
R214). -/
def processChunks : Nat → Nat → State → Except Fault State
  | 0, _, s => .ok s
  | n + 1, a, s => do
    let b ← memRead s a 4
    let t ← processChunk (le32 (b.getD 0 0) (b.getD 1 0) (b.getD 2 0) (b.getD 3 0)) s
    processChunks n (a + 4) t

/-- PROCESS_UNIT(), rule R213. -/
def processUnit (s : State) : Except Fault State := do
  let t ← processChunks 8 s.inPtr.toNat s
  let p ← advance t.inPtr 32
  .ok { t with inPtr := p }

/-- One turn of FLUSH_TAIL's loop (rule R216): a chunk is read and counted, then processed. -/
def tailChunk (s : State) : Except Fault State := do
  let b ← memRead s s.inPtr.toNat 4
  let p ← advance s.inPtr 4
  processChunk (le32 (b.getD 0 0) (b.getD 1 0) (b.getD 2 0) (b.getD 3 0)) { s with inPtr := p }

/-- At most `n` turns of FLUSH_TAIL's loop `while s != 64 and in_avail >= 4` (rule R216). -/
def tailChunks : Nat → State → Except Fault State
  | 0, s => .ok s
  | n + 1, s =>
    if wordFull s then .ok s
    else if inAvail s < 4 then .ok s
    else do
      let t ← tailChunk s
      tailChunks n t

/-! ### The handlers -/

/-- Where control stands in the driver (rule R218). -/
inductive Place where
  | prepareNewBlock
  | readChunk
  | checkSignatureState
  | flushTail
deriving DecidableEq, Repr

/-- How a handler ends: control goes on in the same command, or the command has returned a status. -/
inductive Transfer where
  | goto (p : Place) (s : State)
  | returned (s : State)
deriving DecidableEq, Repr

/-- PREPARE_NEW_BLOCK, rules R205 to R210. -/
def prepareNewBlock (s : State) : Except Fault Transfer :=
  if outputShort s then .ok (.returned (raise .stallOnOutputPrepare s))
  else if efficiencyCheckDue s then .ok (.returned (raise .efficiencyCheck s))
  else if blockEndDue s then .ok (.returned (raise .newBlock s))
  else do
    let t ← startSig s
    .ok (.goto .readChunk t)

/-- READ_CHUNK, rules R211, R212. -/
def readChunk (s : State) : Except Fault Transfer :=
  if 32 ≤ inAvail s then do
    let t ← processUnit s
    .ok (.goto .checkSignatureState t)
  else
    match s.latch.mode with
    | .step => .ok (.returned (raise .stallOnInput s))
    | .flush => .ok (.goto .flushTail s)

/-- CHECK_SIGNATURE_STATE, rule R215. -/
def checkSignatureState (s : State) : Except Fault Transfer :=
  if wordFull s then .ok (.goto .prepareNewBlock s)
  else if outputShort s then .ok (.returned (raise .stallOnOutputCheck s))
  else .ok (.goto .readChunk s)

/-- The completion of FLUSH_TAIL: the END code, the tail bytes, and `Ready` (rules R216, R217). -/
def finishStream (s : State) : Except Fault State := do
  let t ← emitEnd s
  let u ← emitTail t
  .ok (raise .flushReady u)

/-- FLUSH_TAIL, rule R216. Every turn of its loop takes 4 bytes, so `in_avail / 4` turns are all the loop
can make. DESIGN CHOICE (log entry 14): the mode of the rule's `goto PREPARE_NEW_BLOCK(FLUSH)` is the mode of
the command in progress, which READ_CHUNK has found to be FLUSH; where FLUSH_TAIL is executed by itself
while the latched command is a STEP, that mode stays STEP, and READ_CHUNK then stalls on input. -/
def flushTail (s : State) : Except Fault Transfer := do
  let t ← tailChunks (inAvail s / 4) s
  if 4 ≤ inAvail t then .ok (.goto .prepareNewBlock t)
  else do
    let u ← finishStream t
    .ok (.returned u)

/-- The handler at a place. -/
def handler (p : Place) (s : State) : Except Fault Transfer :=
  match p with
  | .prepareNewBlock => prepareNewBlock s
  | .readChunk => readChunk s
  | .checkSignatureState => checkSignatureState s
  | .flushTail => flushTail s

/-- Handlers run one after another until one returns a status (rule R200), for at most `n` transfers. -/
def runDriver : Nat → Place → State → Except Fault State
  | 0, _, _ => .error .noProgress
  | n + 1, p, s =>
    match handler p s with
    | .error f => .error f
    | .ok (.returned t) => .ok t
    | .ok (.goto q t) => runDriver n q t

/-- More transfers of control than a command can make: between two of them that consume no input at most
four follow one another, and one that consumes takes at least 4 bytes (rule R220, log entry 10). -/
def driverFuel (s : State) : Nat := inAvail s + 8

/-- The driver entered at a place, run to the status that ends the command. -/
def drive (p : Place) (s : State) : Except Fault State := runDriver (driverFuel s) p s

/-! ### Dispatch and the commands -/

/-- Dispatch of STEP and FLUSH (rule R202), their arguments latched. `resume = 3` is `Error` before
anything else (rule R259); then an `in_limit` below `in_ptr` is a breach of the host's contract (rule
R298). -/
def dispatch (s : State) : Except Fault State :=
  if s.resume = 3 then .ok (raise .error s)
  else if s.latch.inLimit.toNat < s.inPtr.toNat then .error .offsetOverflow
  else if s.resume = 0 then drive .prepareNewBlock s
  else if s.resume = 1 then drive .readChunk s
  else drive .checkSignatureState s

/-- The writes of INIT before it returns (rule R201). -/
def initState (s : State) : State :=
  { rankInitOf .form (dictReset s) with
    sigCount := 0, effChecked := false, resetCycle := 0, bitPos := 0, sigWord := 0, sigAddr := 0,
    inPtr := 0, outPtr := 0 }

/-- INIT, rule R201: refused under a configuration that fails its checks, otherwise always `Ready`. -/
def execInit (s : State) : Host.Outcome State Fault Refusal :=
  if configAccepted s.cfg then .next (raise .initReady (initState s)) else .refused .configRejected

/-- STEP(in_limit, out_limit), rule R203. -/
def execStep (il ol : Word64) (s : State) : Host.Outcome State Fault Refusal :=
  outcomeOf (dispatch (latchCommand s .step il ol))

/-- FLUSH(in_limit, out_limit), rule R204. -/
def execFlush (il ol : Word64) (s : State) : Host.Outcome State Fault Refusal :=
  outcomeOf (dispatch (latchCommand s .flush il ol))

/-- The reserved command code, rule R108: `Error`, and nothing changes. -/
def execCmdReserved (s : State) : Host.Outcome State Fault Refusal := .next (raise .error s)

/-- PREPARE_NEW_BLOCK, rule R205, run on to the status that ends the command in progress. -/
def execPrepareNewBlock (s : State) : Host.Outcome State Fault Refusal :=
  outcomeOf (drive .prepareNewBlock s)

/-- READ_CHUNK, rule R211, run on to the status that ends the command in progress. -/
def execReadChunk (s : State) : Host.Outcome State Fault Refusal := outcomeOf (drive .readChunk s)

/-- CHECK_SIGNATURE_STATE, rule R215, run on to the status that ends the command in progress. -/
def execCheckSignatureState (s : State) : Host.Outcome State Fault Refusal :=
  outcomeOf (drive .checkSignatureState s)

/-- The unrecognized resume code, rule R202: `Error`, and nothing changes. -/
def execResumeUnrecognized (s : State) : Host.Outcome State Fault Refusal := .next (raise .error s)

/-- PROCESS_UNIT, rule R213. -/
def execProcessUnit (s : State) : Host.Outcome State Fault Refusal := outcomeOf (processUnit s)

/-- FLUSH_TAIL, rule R216, run on to the status that ends the command in progress. -/
def execFlushTail (s : State) : Host.Outcome State Fault Refusal := outcomeOf (drive .flushTail s)

end Sys2Proof.Machine
end

