-- ==== Sys2Proof/Machine/Wire.lean ====
section
/-! DEFINITION. The code words and items of the wire format as rows of their own (formats SEL, LET and
BYTES of the opcode table): each is the emission of that item, by the operation whose rule the row
cites (log entry 7). -/

namespace Sys2Proof.Machine

/-- The selector code of rank `r` is emitted: the use of the form that holds rank `r` is recorded and the
code of rank `r`, its rank before the update, is pushed (rules R98, R176). -/
def emitSelectorOfRank (r : BitVec 8) (s : State) : Except Fault State :=
  pushCode (formCodeAt s.cfg r) (setForm s (s.form.recordUse (s.form.atRank r)))

/-- The letter code of rank `r` is emitted: the use of the letter that holds rank `r` is recorded and
`CODEBOOK[r]` is pushed (rules R100, R178). -/
def emitLetterOfRank (r : BitVec 8) (s : State) : Except Fault State :=
  pushCode (codebookAt s.cfg r) (setLetter s (s.letter.recordUse (s.letter.atRank r)))

/-- A whole signature word is placed in OUT: it is started at `out_ptr` (rule R171), filled from bit 0
upwards with the 64 bits of `w`, stored little-endian at `sig_addr` (rules R67, R97), and left exactly
full. -/
def placeWord (w : Word64) (s : State) : Except Fault State := do
  let t ← startSig s
  pushRest w 64 t

/-- SEL_RANK0, rules R98, R176. -/
def execSelRank0 (s : State) : Host.Outcome State Fault Refusal := outcomeOf (emitSelectorOfRank 0 s)

/-- SEL_RANK1, rules R98, R176. -/
def execSelRank1 (s : State) : Host.Outcome State Fault Refusal := outcomeOf (emitSelectorOfRank 1 s)

/-- SEL_RANK2, rules R98, R176. -/
def execSelRank2 (s : State) : Host.Outcome State Fault Refusal := outcomeOf (emitSelectorOfRank 2 s)

/-- SEL_RANK3, rules R98, R176. -/
def execSelRank3 (s : State) : Host.Outcome State Fault Refusal := outcomeOf (emitSelectorOfRank 3 s)

/-- SEL_END, rules R99, R180. -/
def execSelEnd (s : State) : Host.Outcome State Fault Refusal := outcomeOf (pushCode s.cfg.endCode s)

/-- LETTER, rules R100, R178. -/
def execLetter (r : BitVec 8) (s : State) : Host.Outcome State Fault Refusal :=
  outcomeOf (emitLetterOfRank r s)

/-- HASH16, rules R101, R177. -/
def execHash16 (h : Hash) (s : State) : Host.Outcome State Fault Refusal := outcomeOf (emitHash16 h s)

/-- SIGWORD, rules R97, R171. -/
def execSigword (w : Word64) (s : State) : Host.Outcome State Fault Refusal := outcomeOf (placeWord w s)

/-- TAIL, rules R102, R181. -/
def execTail (t : Byte) (s : State) : Host.Outcome State Fault Refusal := outcomeOf (tailByte t s)

end Sys2Proof.Machine
end

