-- ==== Sys2Proof/Machine/Dispatch.lean ====
section
/-! DEFINITION. The dispatch of instructions to their meanings: one arm per constructor of `Instr`. -/

namespace Sys2Proof.Machine

def exec (i : Instr) (s : State) : Host.Outcome State Fault Refusal :=
  match i with
  | .init => Sys2Proof.Machine.execInit s
  | .step il ol => Sys2Proof.Machine.execStep il ol s
  | .flush il ol => Sys2Proof.Machine.execFlush il ol s
  | .cmdReserved => Sys2Proof.Machine.execCmdReserved s
  | .prepareNewBlock => Sys2Proof.Machine.execPrepareNewBlock s
  | .readChunk => Sys2Proof.Machine.execReadChunk s
  | .checkSignatureState => Sys2Proof.Machine.execCheckSignatureState s
  | .resumeUnrecognized => Sys2Proof.Machine.execResumeUnrecognized s
  | .statusReady => Sys2Proof.Machine.execStatusReady s
  | .statusStallOnInput => Sys2Proof.Machine.execStatusStallOnInput s
  | .statusStallOnOutput => Sys2Proof.Machine.execStatusStallOnOutput s
  | .statusInfoEfficiencyCheck => Sys2Proof.Machine.execStatusInfoEfficiencyCheck s
  | .statusInfoNewBlock => Sys2Proof.Machine.execStatusInfoNewBlock s
  | .statusError => Sys2Proof.Machine.execStatusError s
  | .selRank0 => Sys2Proof.Machine.execSelRank0 s
  | .selRank1 => Sys2Proof.Machine.execSelRank1 s
  | .selRank2 => Sys2Proof.Machine.execSelRank2 s
  | .selRank3 => Sys2Proof.Machine.execSelRank3 s
  | .selEnd => Sys2Proof.Machine.execSelEnd s
  | .letter r => Sys2Proof.Machine.execLetter r s
  | .hash16 h => Sys2Proof.Machine.execHash16 h s
  | .sigword w => Sys2Proof.Machine.execSigword w s
  | .tail t => Sys2Proof.Machine.execTail t s
  | .processUnit => Sys2Proof.Machine.execProcessUnit s
  | .flushTail => Sys2Proof.Machine.execFlushTail s
  | .recordUseForm f => Sys2Proof.Machine.execRecordUseForm f s
  | .recordUseLetter b => Sys2Proof.Machine.execRecordUseLetter b s
  | .rankInit t => Sys2Proof.Machine.execRankInit t s
  | .hash c => Sys2Proof.Machine.execHash c s
  | .classify c h => Sys2Proof.Machine.execClassify c h s
  | .dictUpdate f c h => Sys2Proof.Machine.execDictUpdate f c h s
  | .processChunk c => Sys2Proof.Machine.execProcessChunk c s
  | .dictReset => Sys2Proof.Machine.execDictReset s
  | .startSig => Sys2Proof.Machine.execStartSig s
  | .push content bits => Sys2Proof.Machine.execPush content bits s
  | .emitSelector f => Sys2Proof.Machine.execEmitSelector f s
  | .emitHash16 h => Sys2Proof.Machine.execEmitHash16 h s
  | .emitLetter b => Sys2Proof.Machine.execEmitLetter b s
  | .emitLiteral c => Sys2Proof.Machine.execEmitLiteral c s
  | .emitEnd => Sys2Proof.Machine.execEmitEnd s
  | .emitTail => Sys2Proof.Machine.execEmitTail s

end Sys2Proof.Machine
end

