-- ==== Sys2Proof/Machine/Step.lean ====
section
/-! DEFINITION. One step of the machine: the next command the host presents is taken and run to its status
as one atomic transaction (rule R8). Between commands the block is idle and keeps its state (rules R265,
R267). -/

namespace Sys2Proof.Machine

/-- One step. With no command presented nothing changes. -/
def step (s : State) : Host.Outcome State Fault Refusal :=
  match fetchCommand s with
  | none => .next s
  | some (c, t) => exec (decodeCommand c) t

/-- The state with an instruction word, numbered as the opcode table numbers it, presented as the host's
next command. A row of no bits is no command, and presents nothing. -/
def State.withFetchWord (s : State) (nbits w : Nat) : State :=
  if nbits = 0 then s
  else { s with commands := CommandWord.ofNat (w % 2 ^ nbits) :: s.commands }

end Sys2Proof.Machine
end

