-- ==== Sys2Proof/Safety.lean ====
section
/-! DEFINITION. The terms in which claims about the machine are stated: what a stream holds, what an update
of a rank table and a PUSH amount to cell by cell, the invariants the spec states of the state, and the
host's duties under which no command stops. -/

namespace Sys2Proof.Machine

/-! ### Streams -/

/-- The `n` bytes from offset `a` are the value `v`, least-significant byte first (rule R64). -/
def holdsLE (m : Memory) (a n v : Nat) : Prop :=
  ∀ k, k < n → readByte m (a + k) = some (BitVec.ofNat 8 (v / 256 ^ k))

/-- The two streams read the same at every offset outside the `n` bytes from `a`. -/
def sameOutside (m m' : Memory) (a n : Nat) : Prop :=
  ∀ x, x < a ∨ a + n ≤ x → readByte m' x = readByte m x

/-- `m'` is `m` with the `n`-byte value `v` stored at `a`, and nothing else changed. -/
def storedAt (m m' : Memory) (a n v : Nat) : Prop := holdsLE m' a n v ∧ sameOutside m m' a n

/-- The host has supplied every byte of IN from `in_ptr` up to a limit (rule R61). -/
def inputSupplied (s : State) (limit : Nat) : Prop :=
  ∀ a, s.inPtr.toNat ≤ a → a < limit → (readByte s.input a).isSome

/-! ### Rank tables -/

/-- `rank` is a permutation of `0 .. n-1` and `by_rank` is its inverse (rules R24, R26). -/
def RankTable.consistent (n : Nat) (t : RankTable) : Prop :=
  ∀ x : BitVec 8, x.toNat < n →
    (t.rankOf x).toNat < n ∧ t.atRank (t.rankOf x) = x ∧ (t.atRank x).toNat < n ∧ t.rankOf (t.atRank x) = x

/-- `t'` is `t` after one use of `e`, cell by cell (rule R121): the usage counted modulo 2^32, and, if the
rank is not 0 and the new usage exceeds that of the element one rank above, the two ranks exchanged. -/
def RankTable.useRecorded (t t' : RankTable) (e : BitVec 8) : Prop :=
  (∀ x, t'.usageOf x = if x = e then t.usageOf e + 1 else t.usageOf x) ∧
  if t.rankOf e ≠ 0 ∧ t'.usageOf (t.atRank (t.rankOf e - 1)) < t'.usageOf e then
    (∀ x, t'.rankOf x =
      if x = e then t.rankOf e - 1 else if x = t.atRank (t.rankOf e - 1) then t.rankOf e else t.rankOf x) ∧
    (∀ r, t'.atRank r =
      if r = t.rankOf e - 1 then e else if r = t.rankOf e then t.atRank (t.rankOf e - 1) else t.atRank r)
  else (∀ x, t'.rankOf x = t.rankOf x) ∧ (∀ r, t'.atRank r = t.atRank r)

/-- Every cell of the table is as RANK_INIT leaves it (rule R129). -/
def RankTable.isFresh (t : RankTable) : Prop :=
  ∀ x, t.usageOf x = 0 ∧ t.rankOf x = x ∧ t.atRank x = x

/-- The two rank tables are consistent (rules R24, R26). -/
def tablesConsistent (s : State) : Prop := s.letter.consistent 256 ∧ s.form.consistent 4

/-! ### The packer -/

/-- The bits of the current word and, above them, of a field put at the cursor, as one unbounded number
(rules R104, R172). -/
def packedValue (c : Code) (s : State) : Nat := s.sigWord.toNat ||| (c.content.toNat <<< s.bitPos.toNat)

/-- `t` is `s` after the field `c` has been packed at the cursor (rules R104, R172 to R174): a field that
fits stays in the current word; one that does not leaves its low bits there and its high bits in a new
word started at `out_ptr`. Every component not named here is unchanged. -/
def fieldPacked (c : Code) (s t : State) : Prop :=
  if s.bitPos.toNat + c.bits.toNat ≤ 64 then
    storedAt s.output t.output s.sigAddr.toNat 8 (packedValue c s) ∧
    t = { s with
      output := t.output
      sigWord := BitVec.ofNat 64 (packedValue c s)
      bitPos := BitVec.ofNat 7 (s.bitPos.toNat + c.bits.toNat) }
  else
    holdsLE t.output s.sigAddr.toNat 8 (packedValue c s % 2 ^ 64) ∧
    holdsLE t.output s.outPtr.toNat 8 (packedValue c s / 2 ^ 64) ∧
    (∀ x, (x < s.sigAddr.toNat ∨ s.sigAddr.toNat + 8 ≤ x) → (x < s.outPtr.toNat ∨ s.outPtr.toNat + 8 ≤ x) →
      readByte t.output x = readByte s.output x) ∧
    t = { s with
      output := t.output
      sigAddr := s.outPtr
      sigWord := BitVec.ofNat 64 (packedValue c s / 2 ^ 64)
      outPtr := BitVec.ofNat 64 (s.outPtr.toNat + 8)
      bitPos := BitVec.ofNat 7 (s.bitPos.toNat + c.bits.toNat - 64)
      sigCount := s.sigCount + 1 }

/-- A word is open for `n` more words: the cursor is in its range, the current word lies below `out_ptr`,
and there is room for the current word and for `n` words and `b` bytes at `out_ptr`. -/
def roomToPack (n b : Nat) (s : State) : Prop :=
  s.bitPos.toNat ≤ 64 ∧ s.sigAddr.toNat + 8 ≤ s.outPtr.toNat ∧
    s.outPtr.toNat + 8 * n + b ≤ s.latch.outLimit.toNat

/-- The packer's invariant: the cursor is in 0..64 (rule R33); every bit of the word at or above the
cursor is 0 (rule R106); once a word has been started it lies below `out_ptr` and OUT holds it, little
end first (rules R32, R67, R80 (c)); and every byte below `out_ptr` has been written (rule R80 (a)). -/
def packerSound (s : State) : Prop :=
  s.bitPos.toNat ≤ 64 ∧ s.sigWord.toNat < 2 ^ s.bitPos.toNat ∧
  (s.outPtr ≠ 0 → s.sigAddr.toNat + 8 ≤ s.outPtr.toNat ∧
    holdsLE s.output s.sigAddr.toNat 8 s.sigWord.toNat) ∧
  ∀ a, a < s.outPtr.toNat → (readByte s.output a).isSome

/-- Where a session is parked (rules R31, R210, R215): at PREPARE_NEW_BLOCK with no word yet or with the
word exactly full, at READ_CHUNK with a word that is not full, at CHECK_SIGNATURE_STATE with one that is
neither empty nor full. -/
def parkedSound (s : State) : Prop :=
  (s.resume = 0 → (s.outPtr = 0 ∧ s.bitPos = 0) ∨ (s.outPtr ≠ 0 ∧ s.bitPos = 64)) ∧
  (s.resume = 1 → s.outPtr ≠ 0 ∧ s.bitPos ≠ 64) ∧
  (s.resume = 2 → s.outPtr ≠ 0 ∧ s.bitPos ≠ 64 ∧ s.bitPos ≠ 0)

/-! ### Storage -/

/-- Every table and stream is in its one canonical form. -/
def storageCanonical (s : State) : Prop :=
  Memory.wf s.input ∧ Memory.wf s.output ∧
  Cells.wf zeroCell 256 s.letter.usage ∧ Cells.wf identityCell 256 s.letter.rank ∧
  Cells.wf identityCell 256 s.letter.byRank ∧
  Cells.wf zeroCell 256 s.form.usage ∧ Cells.wf identityCell 256 s.form.rank ∧
  Cells.wf identityCell 256 s.form.byRank ∧
  Cells.wf zeroCell 65536 s.chunkA ∧ Cells.wf zeroCell 65536 s.chunkB ∧ Cells.wf zeroCell 65536 s.pred

/-! ### The host's duties -/

/-- What a session needs besides the limits of a command: an accepted configuration with the selector codes
of rules R98 and R99 (on which the output-room bound of rule R222 rests), consistent tables, a sound packer
and a sound park. -/
def sessionSound (s : State) : Prop :=
  configAccepted s.cfg = true ∧ selectorCodesFixed s.cfg ∧ tablesConsistent s ∧ packerSound s ∧ parkedSound s

/-- The room an earlier test has promised READ_CHUNK: `MIN_LOOKAHEAD` less the one word that
PREPARE_NEW_BLOCK may have started since (rule R222). It holds as long as the host does not lower
`out_limit`. -/
def roomPromised (s : State) (outLimit : Nat) : Prop :=
  s.outPtr.toNat + s.cfg.minLookahead.toNat ≤ outLimit + 8

/-- The host's duties for one STEP or FLUSH of an open session (rules R61, R65, R284): the session is
sound and not over, `in_limit` is not below `in_ptr`, the bytes below it are supplied, and the room
promised to a session parked at READ_CHUNK has not been taken away. -/
def commandReady (s : State) (inLimit outLimit : Word64) : Prop :=
  sessionSound s ∧ s.resume ≠ 3 ∧ s.inPtr.toNat ≤ inLimit.toNat ∧ inputSupplied s inLimit.toNat ∧
  (s.resume = 1 → roomPromised s outLimit.toNat)

/-- The same for a handler entered in the middle of a command, its arguments latched. READ_CHUNK and
FLUSH_TAIL rely on the room tested before them, and FLUSH_TAIL is entered only with fewer than 32 bytes
left (rule R212). -/
def handlerReady (p : Place) (s : State) : Prop :=
  configAccepted s.cfg = true ∧ selectorCodesFixed s.cfg ∧ tablesConsistent s ∧ packerSound s ∧
  inputSupplied s s.latch.inLimit.toNat ∧
  match p with
  | .prepareNewBlock => True
  | .readChunk => s.outPtr ≠ 0 ∧ roomPromised s s.latch.outLimit.toNat
  | .checkSignatureState => s.outPtr ≠ 0
  | .flushTail => s.outPtr ≠ 0 ∧ roomPromised s s.latch.outLimit.toNat ∧ inAvail s < 32

end Sys2Proof.Machine
end

