-- ==== Sys2Proof/Certificates/Slice0/Obligations.lean ====
section
/-! DEFINITION. The statements for the provers. Each is about every state unless its premises say otherwise;
what each formalises stands in OBLIGATIONS.json. -/

open Sys2Proof Sys2Proof.Machine

/-! ### Encodings -/

/-- Decoding the code word of an instruction gives the instruction back, operands included, for every row
that has a code word (rules R91 to R102). The codebook's self-delimiting property, which rule R11 leaves
to its supplier, is needed for LETTER only, and the selector codes of rules R98 and R99 for the SEL rows
only. -/
def Obligations.DecodeOfEncodeIsTheInstruction : Prop :=
  ∀ (cfg : Config) (i : Instr) (w : CodeWord), codebookAccepted cfg = true →
    codesSelfDelimiting cfg.codebook → selectorCodesFixed cfg → encode cfg i = some w → decode cfg w = .ok i

/-- The internal operations have no encoding and nothing decodes to one (rules R90, R111); every other row
has a code word, in a configuration with a code for each of the 256 letter ranks and the four form ranks. -/
def Obligations.OnlyInternalOperationsHaveNoCode : Prop :=
  (∀ (cfg : Config) (w : CodeWord) (i : Instr), decode cfg w = .ok i → i.internal = false) ∧
  (∀ (cfg : Config) (i : Instr), codebookAccepted cfg = true → 4 ≤ cfg.formCode.length →
    ((encode cfg i).isSome = true ↔ i.internal = false))

/-- The selector code space read from its first-packed bit (rules R98, R99, R107). -/
def Obligations.SelectorStreamReadsFromItsFirstBit : Prop :=
  ∀ (cfg : Config) (rest : List Bool), selectorCodesFixed cfg →
    decodeSelector cfg (false :: rest) = some (.selRank0, rest) ∧
    decodeSelector cfg (true :: false :: rest) = some (.selEnd, rest) ∧
    decodeSelector cfg (true :: true :: false :: rest) = some (.selRank1, rest) ∧
    decodeSelector cfg (true :: true :: true :: false :: rest) = some (.selRank2, rest) ∧
    decodeSelector cfg (true :: true :: true :: true :: rest) = some (.selRank3, rest)

/-- A word of each code space. The resume, status and selector words are written out from the tables of
rules R93, R92 and R98, the hash bytes from rule R101, and the letter's word from the test codebook
`CB_TEST` of rule R11. The command words are the codes of rule R91 in the model's own packing of the triple
of rule R95 (log entry 5, DESIGN CHOICE): `cmd` in bits 1 to 0, `in_limit` above it, `out_limit` from bit
66. -/
def Obligations.WordsWrittenOutDecode : Prop :=
  decode Config.test ⟨.cmd, 130, 0⟩ = .ok .init ∧
  decode Config.test ⟨.cmd, 130, 1 + 4 * 38 + 2 ^ 66 * 121⟩ = .ok (.step 38 121) ∧
  decode Config.test ⟨.resume, 2, 2⟩ = .ok .checkSignatureState ∧
  decode Config.test ⟨.status, 3, 4⟩ = .ok .statusInfoNewBlock ∧
  decode Config.test ⟨.sel, 3, 3⟩ = .ok .selRank1 ∧
  decode Config.test ⟨.letter, 9, 131⟩ = .ok (.letter 65) ∧
  decode Config.test ⟨.bytes, 16, 0x0602⟩ = .ok (.hash16 0x0602)

/-! ### One step of the machine -/

/-- A step takes the host's next command and is the meaning of the instruction that command decodes to,
which is well formed; with no command nothing changes. -/
def Obligations.StepRunsTheDecodedCommand : Prop :=
  ∀ s : State, (s.commands = [] → step s = .next s) ∧
    ∀ (c : CommandWord) (cs : List CommandWord), s.commands = c :: cs →
      (decodeCommand c).wellFormed = true ∧
      step s = exec (decodeCommand c) { s with commands := cs }

/-- Hardware reset leaves `resume` at 3, and STEP and FLUSH then return `Error` and change nothing (rules
R255, R280). -/
def Obligations.AfterResetStepAndFlushReturnError : Prop :=
  State.reset.resume = 3 ∧ ∀ il ol : Word64,
    exec (.step il ol) State.reset = .next { State.reset with status := some .error } ∧
    exec (.flush il ol) State.reset = .next { State.reset with status := some .error }

/-- `Error` changes nothing but what the host is told (rules R108, R202, R255): STEP and FLUSH with
`resume = 3`, the reserved command, the unrecognized resume code and the status row. -/
def Obligations.ErrorChangesNoState : Prop :=
  ∀ (s : State) (il ol : Word64),
    (s.resume = 3 →
      exec (.step il ol) s = .next { s with status := some .error, latch := Latch.idle } ∧
      exec (.flush il ol) s = .next { s with status := some .error, latch := Latch.idle }) ∧
    exec .cmdReserved s = .next { s with status := some .error, latch := Latch.idle } ∧
    exec .resumeUnrecognized s = .next { s with status := some .error, latch := Latch.idle } ∧
    exec .statusError s = .next { s with status := some .error, latch := Latch.idle }

/-! ### INIT and the configuration -/

/-- INIT gives every register and table cell the value of the INIT column of rule R41, whatever the state
before, writes nothing to OUT, and returns `Ready` (rules R201, R281). -/
def Obligations.InitGivesEveryRegisterItsValue : Prop :=
  ∀ s : State, configAccepted s.cfg = true → ∃ t, exec .init s = .next t ∧
    t.letter.isFresh ∧ t.form.isFresh ∧
    (∀ h, chunkAAt t h = 0 ∧ chunkBAt t h = 0 ∧ predAt t h = 0) ∧
    t = { s with
      resume := 0, letter := t.letter, form := t.form, chunkA := t.chunkA, chunkB := t.chunkB
      pred := t.pred, lastHash := 0, sigAddr := 0, sigWord := 0, bitPos := 0, sigCount := 0
      effChecked := false, resetCycle := 0, inPtr := 0, outPtr := 0
      status := some .ready, latch := Latch.idle }

/-- INIT under a configuration that fails its checks creates no session (rule R201, U7). -/
def Obligations.InitRefusesABadConfiguration : Prop :=
  ∀ s : State, configAccepted s.cfg = false → exec .init s = .refused .configRejected

/-- What the configuration check accepts (rules R11, R12, R67): `L` is `LMAX`. -/
def Obligations.AcceptedConfigurationsAreTheWellFormedOnes : Prop :=
  ∀ cfg : Config, configAccepted cfg = true ↔
    (cfg.codebook.length = 256 ∧
      (∀ c ∈ cfg.codebook, 1 ≤ c.bits.toNat ∧ c.bits.toNat ≤ 64 ∧ c.content.toNat < 2 ^ c.bits.toNat)) ∧
    1 ≤ cfg.effT.toNat ∧ 1 ≤ cfg.blkT.toNat ∧ (cfg.periodicResetEn = true → 1 ≤ cfg.resetCycle.toNat) ∧
    (∃ L, (∀ c ∈ cfg.codebook, c.bits.toNat ≤ L) ∧ (∃ c ∈ cfg.codebook, c.bits.toNat = L) ∧
      8 * ((8 * (4 + 4 * L) + 63) / 64) + 25 ≤ cfg.minLookahead.toNat) ∧
    cfg.bitOrder = .leastSignificantFirst

/-- No command writes the configuration or the input stream (rules R40, R62, R83). -/
def Obligations.StepNeverWritesConfigurationOrInput : Prop :=
  ∀ s t : State, step s = .next t → t.cfg = s.cfg ∧ t.input = s.input

/-! ### Dispatch and the driver -/

/-- STEP and FLUSH latch their arguments and are the handler that `resume` names (rules R202 to R204). -/
def Obligations.StepAndFlushEnterTheParkedHandler : Prop :=
  ∀ (s : State) (il ol : Word64), s.resume ≠ 3 → s.inPtr.toNat ≤ il.toNat →
    exec (.step il ol) s = exec (decodeResume s.resume) { s with latch := ⟨.step, il, ol⟩ } ∧
    exec (.flush il ol) s = exec (decodeResume s.resume) { s with latch := ⟨.flush, il, ol⟩ }

/-- A STEP or FLUSH of an open session whose `in_limit` is below `in_ptr` stops (rule R298, U6). -/
def Obligations.LoweredInLimitStops : Prop :=
  ∀ (s : State) (il ol : Word64), s.resume ≠ 3 → il.toNat < s.inPtr.toNat →
    exec (.step il ol) s = .fault .offsetOverflow ∧ exec (.flush il ol) s = .fault .offsetOverflow

/-- The returns of PREPARE_NEW_BLOCK, in the order of its tests (rules R205 to R208, R259). -/
def Obligations.PrepareNewBlockReturnsInTestOrder : Prop :=
  ∀ s : State,
    (outAvail s < s.cfg.minLookahead.toNat → exec .prepareNewBlock s =
      .next { s with resume := 0, status := some .stallOnOutput, latch := Latch.idle }) ∧
    (s.cfg.minLookahead.toNat ≤ outAvail s → s.sigCount = s.cfg.effT → s.effChecked = false →
      exec .prepareNewBlock s = .next { s with
        effChecked := true, resume := 0, status := some .infoEfficiencyCheck, latch := Latch.idle }) ∧
    (s.cfg.minLookahead.toNat ≤ outAvail s → ¬(s.sigCount = s.cfg.effT ∧ s.effChecked = false) →
      s.sigCount = s.cfg.blkT → exec .prepareNewBlock s = exec .statusInfoNewBlock s)

/-- The block end (rules R208, R209, R254): the counters are cleared and, with the periodic reset enabled,
`reset_cycle` counts up to `RESET_CYCLE`, where the Dictionary, and nothing else, is reset. -/
def Obligations.BlockEndCountsAndResets : Prop :=
  ∀ s : State,
    (s.cfg.periodicResetEn = false → exec .statusInfoNewBlock s = .next { s with
      sigCount := 0, effChecked := false, resume := 0, status := some .infoNewBlock, latch := Latch.idle }) ∧
    (s.cfg.periodicResetEn = true → s.resetCycle + 1 ≠ s.cfg.resetCycle →
      exec .statusInfoNewBlock s = .next { s with
        sigCount := 0, effChecked := false, resetCycle := s.resetCycle + 1, resume := 0
        status := some .infoNewBlock, latch := Latch.idle }) ∧
    (s.cfg.periodicResetEn = true → s.resetCycle + 1 = s.cfg.resetCycle → ∃ t,
      exec .statusInfoNewBlock s = .next t ∧ t.letter.isFresh ∧
      (∀ h, chunkAAt t h = 0 ∧ chunkBAt t h = 0 ∧ predAt t h = 0) ∧
      t = { s with
        letter := t.letter, chunkA := t.chunkA, chunkB := t.chunkB, pred := t.pred, lastHash := 0
        sigCount := 0, effChecked := false, resetCycle := 0, resume := 0
        status := some .infoNewBlock, latch := Latch.idle })

/-- The other status rows: what each writes before it ends the command (rules R251 to R253, R256, R257).
`StallOnOutput` parks at PREPARE_NEW_BLOCK where the current word is empty or full and at
CHECK_SIGNATURE_STATE elsewhere, and `Ready` ends the session in a FLUSH and opens it otherwise: the
model's reading of the two-cause rows (log entry 8). -/
def Obligations.StatusRowsWriteTheirPark : Prop :=
  ∀ s : State,
    exec .statusStallOnInput s =
      .next { s with resume := 1, status := some .stallOnInput, latch := Latch.idle } ∧
    exec .statusStallOnOutput s = .next { s with
      resume := if s.bitPos = 0 ∨ s.bitPos = 64 then 0 else 2
      status := some .stallOnOutput, latch := Latch.idle } ∧
    exec .statusInfoEfficiencyCheck s = .next { s with
      effChecked := true, resume := 0, status := some .infoEfficiencyCheck, latch := Latch.idle } ∧
    exec .statusReady s = .next { s with
      resume := if s.latch.mode = .flush then 3 else 0, status := some .ready, latch := Latch.idle }

/-- A STEP of a session parked at READ_CHUNK with fewer than 32 bytes available consumes nothing and
changes nothing (rules R211, R251). -/
def Obligations.StepWithoutAUnitStallsOnInput : Prop :=
  ∀ (s : State) (il ol : Word64), s.resume = 1 → s.inPtr.toNat ≤ il.toNat →
    il.toNat < s.inPtr.toNat + 32 → exec (.step il ol) s =
      .next { s with status := some .stallOnInput, latch := Latch.idle }

/-- Every transfer of control between handlers (rules R200, R218): the command goes on as the handler it
is sent to, in the state the sender leaves. That a handler executed by itself goes on so, and that
FLUSH_TAIL under a latched STEP keeps that mode, is the model's choice (log entry 14). -/
def Obligations.HandlersFollowTheTransferTable : Prop :=
  ∀ s t : State,
    (s.cfg.minLookahead.toNat ≤ outAvail s → ¬(s.sigCount = s.cfg.effT ∧ s.effChecked = false) →
      s.sigCount ≠ s.cfg.blkT → exec .startSig s = .next t →
      exec .prepareNewBlock s = exec .readChunk t) ∧
    (32 ≤ inAvail s → exec .processUnit s = .next t → exec .readChunk s = exec .checkSignatureState t) ∧
    (inAvail s < 32 → s.latch.mode = .step → exec .readChunk s =
      .next { s with resume := 1, status := some .stallOnInput, latch := Latch.idle }) ∧
    (inAvail s < 32 → s.latch.mode = .flush → exec .readChunk s = exec .flushTail s) ∧
    (s.bitPos = 64 → exec .checkSignatureState s = exec .prepareNewBlock s) ∧
    (s.bitPos ≠ 64 → outAvail s < s.cfg.minLookahead.toNat → exec .checkSignatureState s =
      .next { s with resume := 2, status := some .stallOnOutput, latch := Latch.idle }) ∧
    (s.bitPos ≠ 64 → s.cfg.minLookahead.toNat ≤ outAvail s →
      exec .checkSignatureState s = exec .readChunk s) ∧
    (s.bitPos = 64 → 4 ≤ inAvail s → exec .flushTail s = exec .prepareNewBlock s) ∧
    (s.bitPos ≠ 64 → 4 ≤ inAvail s → ∀ b0 b1 b2 b3,
      readBytes s.input s.inPtr.toNat 4 = some [b0, b1, b2, b3] →
      exec (.processChunk (le32 b0 b1 b2 b3)) { s with inPtr := s.inPtr + 4 } = .next t →
      exec .flushTail s = exec .flushTail t) ∧
    (inAvail s < 4 → ∀ u, exec .emitEnd s = .next t → exec .emitTail t = .next u → exec .flushTail s =
      .next { u with resume := 3, status := some .ready, latch := Latch.idle })

/-- Every command and every handler terminates (rule R220): no instruction runs out of transfers. -/
def Obligations.EveryCommandTerminates : Prop :=
  ∀ (i : Instr) (s : State), exec i s ≠ .fault .noProgress

/-- Which command can return which status (rule R219). -/
def Obligations.StatusesOfEachCommand : Prop :=
  ∀ (s t : State) (il ol : Word64),
    (exec .init s = .next t → t.status = some .ready) ∧
    (exec (.step il ol) s = .next t → t.status ≠ none ∧ t.status ≠ some .ready ∧
      (t.status = some .error ↔ s.resume = 3)) ∧
    (exec (.flush il ol) s = .next t → t.status ≠ none ∧ t.status ≠ some .stallOnInput ∧
      (t.status = some .error ↔ s.resume = 3) ∧ (t.status = some .ready → t.resume = 3))

/-- The efficiency check fires at most once in a block (rules R207, R253): it needs the flag clear and sets
it, and only a block end clears it again; and it fires only where `sig_count` stands at exactly `EFF_T`
(rule R293). -/
def Obligations.EfficiencyCheckFiresOncePerBlock : Prop :=
  ∀ (s t : State) (il ol : Word64),
    exec (.step il ol) s = .next t ∨ exec (.flush il ol) s = .next t →
      (t.status = some .infoEfficiencyCheck →
        s.effChecked = false ∧ t.effChecked = true ∧ t.sigCount = t.cfg.effT) ∧
      (s.effChecked = true → t.effChecked = true ∨ t.status = some .infoNewBlock)

/-! ### Completion of the commands and handlers -/

/-- A STEP or FLUSH whose host keeps its duties never stops, and leaves a session whose duties can be kept
again (rules R203, R204, R219, R222, R251 to R257): a STEP consumes whole units, all it is given unless it
returns for another reason, and a FLUSH that returns `Ready` has consumed everything. -/
def Obligations.CommandsCompleteUnderTheHostsDuties : Prop :=
  ∀ (s : State) (il ol : Word64), commandReady s il ol →
    (∃ t, exec (.step il ol) s = .next t ∧
      (t.status = some .stallOnInput ∧ il.toNat < t.inPtr.toNat + 32 ∨
        t.status = some .stallOnOutput ∧ ol.toNat < t.outPtr.toNat + t.cfg.minLookahead.toNat ∨
        t.status = some .infoEfficiencyCheck ∨ t.status = some .infoNewBlock) ∧
      32 ∣ t.inPtr.toNat - s.inPtr.toNat ∧
      sessionSound t ∧ t.resume ≠ 3 ∧ t.inPtr.toNat ≤ il.toNat ∧ t.outPtr.toNat ≤ max s.outPtr.toNat ol.toNat ∧
      (t.resume = 1 → roomPromised t ol.toNat)) ∧
    (∃ t, exec (.flush il ol) s = .next t ∧
      ((t.status = some .ready ∧ t.resume = 3 ∧ t.inPtr = il) ∨
       (t.status = some .stallOnOutput ∧ ol.toNat < t.outPtr.toNat + t.cfg.minLookahead.toNat ∨
        t.status = some .infoEfficiencyCheck ∨ t.status = some .infoNewBlock) ∧
        t.resume ≠ 3 ∧ t.inPtr.toNat ≤ il.toNat) ∧
      sessionSound t ∧ t.outPtr.toNat ≤ max s.outPtr.toNat ol.toNat)

/-- A STEP parked at READ_CHUNK with one unit of input, and room for it and for the test after it, processes
that unit (rules R203, R211, R215): it then stalls on input in the state PROCESS_UNIT left, or, where the
unit left the word exactly full, goes on as PREPARE_NEW_BLOCK does. -/
def Obligations.StepProcessesTheUnitItHas : Prop :=
  ∀ (s : State) (il ol : Word64), sessionSound s → s.resume = 1 → inputSupplied s il.toNat →
    s.inPtr.toNat + 32 ≤ il.toNat → il.toNat < s.inPtr.toNat + 64 →
    s.outPtr.toNat + 8 * unitWords s.cfg + 16 + s.cfg.minLookahead.toNat ≤ ol.toNat →
    ∃ u t, exec .processUnit { s with latch := ⟨.step, il, ol⟩ } = .next u ∧
      exec (.step il ol) s = .next t ∧ t.inPtr.toNat = s.inPtr.toNat + 32 ∧
      (u.bitPos ≠ 64 → t = { u with resume := 1, status := some .stallOnInput, latch := Latch.idle }) ∧
      (u.bitPos = 64 → exec .prepareNewBlock u = .next t)

/-- The handlers, entered in the middle of a command whose duties are kept, run it to a status: no handler
stops (rules R205, R211, R215, R216, R222). -/
def Obligations.HandlersRunTheCommandToAStatus : Prop :=
  ∀ s : State,
    (handlerReady .prepareNewBlock s → ∃ t st, exec .prepareNewBlock s = .next t ∧ t.status = some st ∧
      st ≠ .error ∧ t.latch = Latch.idle ∧ packerSound t ∧ tablesConsistent t) ∧
    (handlerReady .readChunk s → ∃ t st, exec .readChunk s = .next t ∧ t.status = some st ∧
      st ≠ .error ∧ t.latch = Latch.idle ∧ packerSound t ∧ tablesConsistent t) ∧
    (handlerReady .checkSignatureState s → ∃ t st, exec .checkSignatureState s = .next t ∧
      t.status = some st ∧ st ≠ .error ∧ t.latch = Latch.idle ∧ packerSound t ∧ tablesConsistent t) ∧
    (handlerReady .flushTail s → ∃ t st, exec .flushTail s = .next t ∧ t.status = some st ∧
      st ≠ .error ∧ t.latch = Latch.idle ∧ packerSound t ∧ tablesConsistent t)

/-! ### Invariants that every step keeps -/

/-- The invariants hold right after reset. That the registers other than `resume` hold these values at
reset is the model's choice (log entry 1). -/
def Obligations.InvariantsHoldAtReset : Prop :=
  storageCanonical State.reset ∧ tablesConsistent State.reset ∧ packerSound State.reset ∧
  parkedSound State.reset ∧ State.reset.latch = Latch.idle

/-- Every step keeps memory and tables in their one canonical form, so that equal contents are equal
states. -/
def Obligations.StepKeepsStorageCanonical : Prop :=
  ∀ s t : State, storageCanonical s → step s = .next t → storageCanonical t

/-- Every step keeps both rank arrays permutations with `by_rank` their exact inverse (rules R24, R26). -/
def Obligations.StepKeepsRankTablesConsistent : Prop :=
  ∀ s t : State, tablesConsistent s → step s = .next t → tablesConsistent t

/-- Every step keeps the packer's invariant: the cursor in 0..64, no bit above it, the word written
through to OUT, and every byte below `out_ptr` written (rules R32, R33, R80, R106). -/
def Obligations.StepKeepsThePackerSound : Prop :=
  ∀ s t : State, packerSound s → parkedSound s → step s = .next t → packerSound t

/-- Every step leaves the session parked as rules R210 and R215 say, so that PREPARE_NEW_BLOCK never
abandons a bit. -/
def Obligations.StepKeepsTheParkSound : Prop :=
  ∀ s t : State, parkedSound s → step s = .next t → parkedSound t

/-- OUT is append-only but for the current word (rules R22, R65, R80): a command, or a handler entered in
the middle of one, moves no cursor backwards, changes no byte below the current word or between it and
`out_ptr`, and writes nothing at or beyond where it leaves `out_ptr`; and IN, the configuration, the
commands still to come and the result wire stay as they are. -/
def Obligations.CommandsOnlyAppendToOutput : Prop :=
  ∀ (i : Instr) (s t : State), packerSound s →
    ((∃ il ol, i = .step il ol ∨ i = .flush il ol) ∧ parkedSound s) ∨
      (i = .prepareNewBlock ∨ i = .readChunk ∨ i = .checkSignatureState ∨ i = .flushTail) ∧ s.outPtr ≠ 0 →
    exec i s = .next t →
      s.inPtr.toNat ≤ t.inPtr.toNat ∧ s.outPtr.toNat ≤ t.outPtr.toNat ∧
      (s.outPtr ≠ 0 → s.sigAddr.toNat ≤ t.sigAddr.toNat) ∧
      (∀ x, x < s.outPtr.toNat → (x < s.sigAddr.toNat ∨ s.sigAddr.toNat + 8 ≤ x) →
        readByte t.output x = readByte s.output x) ∧
      (∀ x, t.outPtr.toNat ≤ x → readByte t.output x = readByte s.output x) ∧
      t.input = s.input ∧ t.cfg = s.cfg ∧ t.commands = s.commands ∧ t.result = s.result

/-- Buffer-boundary invariance (rule R221): a STEP that stalled, followed by a command with limits at least
as large, is that command alone. -/
def Obligations.StallingChangesNoOutput : Prop :=
  ∀ (s t : State) (il ol il' ol' : Word64), exec (.step il ol) s = .next t →
    (t.status = some .stallOnInput ∨ t.status = some .stallOnOutput) →
    il.toNat ≤ il'.toNat → ol.toNat ≤ ol'.toNat →
      exec (.step il' ol') t = exec (.step il' ol') s ∧ exec (.flush il' ol') t = exec (.flush il' ol') s

/-! ### The rank selector -/

/-- RECORD_USE_FORM and RECORD_USE_LETTER (rules R121 to R123, R126): the rank before the update is
returned, the table is updated cell by cell as rule R121 says, and nothing else changes. -/
def Obligations.RecordUseUpdatesOneTable : Prop :=
  ∀ s : State,
    (∀ f : Form, ∃ t, exec (.recordUseForm f) s = .next t ∧
      s.form.useRecorded t.form (formId f) ∧
      t = { s with form := t.form, result := (s.form.rankOf (formId f)).setWidth 16 }) ∧
    (∀ b : Byte, ∃ t, exec (.recordUseLetter b) s = .next t ∧
      s.letter.useRecorded t.letter b ∧
      t = { s with letter := t.letter, result := (s.letter.rankOf b).setWidth 16 })

/-- RECORD_USE keeps the rank permutation and its inverse: without a swap neither array changes, with one
the two elements exchange the two adjacent ranks and `by_rank` follows at exactly those two (rule R125,
which the spec marks as its own inference from rule R121). -/
def Obligations.RecordUseKeepsThePermutation : Prop :=
  ∀ (n : Nat) (t : RankTable) (e : BitVec 8), e.toNat < n → t.consistent n →
    (t.recordUse e).consistent n ∧ t.useRecorded (t.recordUse e) e

/-- RANK_INIT makes its table fresh and touches nothing else (rule R129). -/
def Obligations.RankInitMakesTheTableFresh : Prop :=
  ∀ s : State,
    (∃ t, exec (.rankInit .form) s = .next t ∧ t.form.isFresh ∧ t = { s with form := t.form }) ∧
    (∃ t, exec (.rankInit .letter) s = .next t ∧ t.letter.isFresh ∧ t = { s with letter := t.letter })

/-! ### The dictionary -/

/-- HASH completes in every state: its result is `H(chunk)` with `H` the configuration's function (rule
R141), the same in every state under that configuration, and nothing else changes; for the test instance
`H_FOLD` it is the formula of rule R10. That the result stands in a field of State is the model's choice
(log entry 12), and so is how a configuration names its hash (log entry 2). -/
def Obligations.HashDependsOnTheChunkAlone : Prop :=
  ∀ (s : State) (c : Chunk),
    exec (.hash c) s = .next { s with result := hashOf s.cfg c } ∧
    (∀ s' : State, s'.cfg.hash = s.cfg.hash →
      exec (.hash c) s' = .next { s' with result := hashOf s.cfg c }) ∧
    (s.cfg.hash = .fold → ∃ t, exec (.hash c) s = .next t ∧
      t.result.toNat = (c.toNat ^^^ c.toNat >>> 16) &&& 0xFFFF)

/-- CLASSIFY makes its three tests in the order PRED, slot A, slot B, and changes nothing (rules R142,
R151). -/
def Obligations.ClassifyTestsInPriorityOrder : Prop :=
  ∀ (s : State) (c : Chunk) (h : Hash),
    (predAt s s.lastHash = c → exec (.classify c h) s = .next { s with result := 3 }) ∧
    (predAt s s.lastHash ≠ c → chunkAAt s h = c → exec (.classify c h) s = .next { s with result := 1 }) ∧
    (predAt s s.lastHash ≠ c → chunkAAt s h ≠ c → chunkBAt s h = c →
      exec (.classify c h) s = .next { s with result := 2 }) ∧
    (predAt s s.lastHash ≠ c → chunkAAt s h ≠ c → chunkBAt s h ≠ c →
      exec (.classify c h) s = .next { s with result := 0 })

/-- DICT_UPDATE, form by form and cell by cell (rule R143). -/
def Obligations.DictUpdateWritesPerForm : Prop :=
  ∀ (s : State) (f : Form) (c : Chunk) (h : Hash), ∃ t, exec (.dictUpdate f c h) s = .next t ∧
    t = { s with chunkA := t.chunkA, chunkB := t.chunkB, pred := t.pred } ∧
    (∀ x, chunkAAt t x = if x = h ∧ (f = .dictB ∨ f = .literal) then c else chunkAAt s x) ∧
    (∀ x, chunkBAt t x = if x = h ∧ (f = .dictB ∨ f = .literal) then chunkAAt s h else chunkBAt s x) ∧
    (∀ x, predAt t x = if x = s.lastHash ∧ f ≠ .predicted then c else predAt s x)

/-- DICT_RESET makes the Dictionary fresh and touches nothing else (rules R30, R154, R282). -/
def Obligations.DictResetCoversTheDictionaryOnly : Prop :=
  ∀ s : State, ∃ t, exec .dictReset s = .next t ∧ t.letter.isFresh ∧
    (∀ h, chunkAAt t h = 0 ∧ chunkBAt t h = 0 ∧ predAt t h = 0) ∧
    t = { s with letter := t.letter, chunkA := t.chunkA, chunkB := t.chunkB, pred := t.pred, lastHash := 0 }

/-- Everything PROCESS_CHUNK writes (rules R144 to R150, R153): the FORM table always, LETTER for a LITERAL
only, the CHUNK bucket for DICT_B and LITERAL, PRED for every form but PREDICTED, the context always; no
register of the driver but the packer's and `out_ptr`; and in OUT nothing outside the current word and
what is appended. -/
def Obligations.ProcessChunkWritesPerForm : Prop :=
  ∀ (s t : State) (c : Chunk), s.sigAddr.toNat + 8 ≤ s.outPtr.toNat →
    exec (.processChunk c) s = .next t →
    let h := hashOf s.cfg c
    let f := classify s c h
    t = { s with
      form := t.form, letter := t.letter, chunkA := t.chunkA, chunkB := t.chunkB, pred := t.pred
      lastHash := h, sigAddr := t.sigAddr, sigWord := t.sigWord, bitPos := t.bitPos
      sigCount := t.sigCount, outPtr := t.outPtr, output := t.output } ∧
    s.form.useRecorded t.form (formId f) ∧ (f ≠ .literal → t.letter = s.letter) ∧
    (∀ x, chunkAAt t x = if x = h ∧ (f = .dictB ∨ f = .literal) then c else chunkAAt s x) ∧
    (∀ x, chunkBAt t x = if x = h ∧ (f = .dictB ∨ f = .literal) then chunkAAt s h else chunkBAt s x) ∧
    (∀ x, predAt t x = if x = s.lastHash ∧ f ≠ .predicted then c else predAt s x) ∧
    (∀ x, x < s.outPtr.toNat ∨ t.outPtr.toNat ≤ x → (x < s.sigAddr.toNat ∨ s.sigAddr.toNat + 8 ≤ x) →
      readByte t.output x = readByte s.output x)

/-- The PRED write (rule R149, whose second sentence the spec marks as its own inference from rules R142
and R143): it happens exactly when the form is not PREDICTED, and after any
PROCESS_CHUNK the PRED cell of the old context holds the chunk while no other PRED cell has changed. -/
def Obligations.ContextPredictsTheLastChunk : Prop :=
  ∀ (s t : State) (c : Chunk), exec (.processChunk c) s = .next t →
    (classify s c (hashOf s.cfg c) = .predicted → t.pred = s.pred) ∧
    (classify s c (hashOf s.cfg c) ≠ .predicted → predAt t s.lastHash ≠ predAt s s.lastHash) ∧
    predAt t s.lastHash = c ∧ ∀ h, h ≠ s.lastHash → predAt t h = predAt s h

/-- A chunk that follows a context a second time, with another context in between, is PREDICTED (rule
R156). -/
def Obligations.SecondOccurrenceIsPredicted : Prop :=
  ∀ (s t u : State) (c d : Chunk), exec (.processChunk c) s = .next t → exec (.processChunk d) t = .next u →
    hashOf s.cfg d = s.lastHash → hashOf s.cfg c ≠ s.lastHash →
    exec (.classify c (hashOf s.cfg c)) u = .next { u with result := 3 }

/-- PROCESS_CHUNK completes wherever its five fields and its hash have room (rules R144, R183). -/
def Obligations.ProcessChunkCompletes : Prop :=
  ∀ (s : State) (c : Chunk), codebookAccepted s.cfg = true → selectorCodesFixed s.cfg →
    tablesConsistent s → roomToPack 5 2 s →
    ∃ t, exec (.processChunk c) s = .next t ∧ t.lastHash = hashOf s.cfg c ∧ tablesConsistent t ∧
      1 ≤ t.bitPos.toNat ∧ t.bitPos.toNat ≤ 64 ∧ t.sigAddr.toNat + 8 ≤ t.outPtr.toNat ∧
      t.outPtr.toNat ≤ s.outPtr.toNat + 42

/-- PROCESS_CHUNK is its selector, then its payload, then DICT_UPDATE, then the new context, in this order
(rules R105, R144): the hash of a DICT_B lies at `out_ptr` as the selector left it. -/
def Obligations.ProcessChunkRunsItsStepsInOrder : Prop :=
  ∀ (s u v w : State) (c : Chunk),
    let h := hashOf s.cfg c
    let f := classify s c h
    exec (.emitSelector f) s = .next u →
    (f = .predicted ∨ f = .dictA → v = u) → (f = .dictB → exec (.emitHash16 h) u = .next v) →
    (f = .literal → exec (.emitLiteral c) u = .next v) → exec (.dictUpdate f c h) v = .next w →
    exec (.processChunk c) s = .next { w with lastHash := h }

/-- PROCESS_UNIT is eight PROCESS_CHUNKs on the eight chunks of the unit in stream order, each on the state
the one before it left, and then the cursor (rules R66, R79, R213, R214). -/
def Obligations.ProcessUnitIsEightChunksInOrder : Prop :=
  ∀ s t : State, exec .processUnit s = .next t →
    ∃ u : Nat → State, u 0 = s ∧
      (∀ k, k < 8 → ∃ b0 b1 b2 b3, readBytes s.input (s.inPtr.toNat + 4 * k) 4 = some [b0, b1, b2, b3] ∧
        exec (.processChunk (le32 b0 b1 b2 b3)) (u k) = .next (u (k + 1))) ∧
      t = { u 8 with inPtr := BitVec.ofNat 64 (s.inPtr.toNat + 32) }

/-- PROCESS_UNIT completes wherever the bound of rule R222 has room: it consumes 32 bytes and appends at
most `W` words and eight hashes. -/
def Obligations.ProcessUnitStaysWithinItsBound : Prop :=
  ∀ s : State, codebookAccepted s.cfg = true → selectorCodesFixed s.cfg → tablesConsistent s →
    roomToPack (unitWords s.cfg) 16 s → 32 ≤ inAvail s → inputSupplied s s.latch.inLimit.toNat →
    ∃ t, exec .processUnit s = .next t ∧ t.inPtr.toNat = s.inPtr.toNat + 32 ∧ tablesConsistent t ∧
      1 ≤ t.bitPos.toNat ∧ t.bitPos.toNat ≤ 64 ∧ t.sigAddr.toNat + 8 ≤ t.outPtr.toNat ∧
      t.outPtr.toNat ≤ s.outPtr.toNat + 8 * unitWords s.cfg + 16

/-! ### The packer -/

/-- START_SIG (rule R171): a zeroed word at `out_ptr`, wherever that is and whatever `s` is, the new word's
registers, one more word counted, and nothing else; without room it stops. -/
def Obligations.StartSigPlacesAZeroWord : Prop :=
  ∀ s : State,
    (s.outPtr.toNat + 8 ≤ s.latch.outLimit.toNat → ∃ t, exec .startSig s = .next t ∧
      storedAt s.output t.output s.outPtr.toNat 8 0 ∧
      t = { s with
        output := t.output, sigAddr := s.outPtr, sigWord := 0, bitPos := 0
        outPtr := BitVec.ofNat 64 (s.outPtr.toNat + 8), sigCount := s.sigCount + 1 }) ∧
    (s.latch.outLimit.toNat < s.outPtr.toNat + 8 → exec .startSig s = .fault .outputOverrun)

/-- PUSH packs its field at the cursor, splitting it over at most two words (rules R104, R172 to R174). -/
def Obligations.PushPacksItsField : Prop :=
  ∀ (s : State) (content : Word64) (bits : BitVec 8), (Instr.push content bits).wellFormed = true →
    roomToPack 1 0 s →
    ∃ t, exec (.push content bits) s = .next t ∧ fieldPacked ⟨content, bits⟩ s t

/-- PUSH gives its operands no meaning outside `1 <= bits <= 64` and `content < 2^bits` (rule R175). -/
def Obligations.PushStopsOnBadOperands : Prop :=
  ∀ (s : State) (content : Word64) (bits : BitVec 8), (Instr.push content bits).wellFormed = false →
    exec (.push content bits) s = .fault .pushOperand

/-- A PUSH starts no word or one, and every bit of its field is written exactly once, above the bits
already there (rule R104, and rule R173, which the spec marks as its own inference from rule R172): the
old word and the new one together are the earlier bits with the field on top. -/
def Obligations.EveryBitOfAFieldIsWrittenOnce : Prop :=
  ∀ (s t : State) (content : Word64) (bits : BitVec 8), s.bitPos.toNat ≤ 64 →
    s.sigWord.toNat < 2 ^ s.bitPos.toNat → s.sigAddr.toNat + 8 ≤ s.outPtr.toNat →
    exec (.push content bits) s = .next t →
    ∃ old : Nat, holdsLE t.output s.sigAddr.toNat 8 old ∧ old < 2 ^ 64 ∧
      (s.bitPos.toNat + bits.toNat ≤ 64 → t.sigAddr = s.sigAddr ∧ old = t.sigWord.toNat ∧
        old = s.sigWord.toNat + content.toNat * 2 ^ s.bitPos.toNat ∧
        t.outPtr = s.outPtr ∧ t.sigCount = s.sigCount) ∧
      (64 < s.bitPos.toNat + bits.toNat → t.sigAddr = s.outPtr ∧
        holdsLE t.output t.sigAddr.toNat 8 t.sigWord.toNat ∧
        old + 2 ^ 64 * t.sigWord.toNat = s.sigWord.toNat + content.toNat * 2 ^ s.bitPos.toNat ∧
        t.outPtr.toNat = s.outPtr.toNat + 8 ∧ t.sigCount = s.sigCount + 1)

/-- A write of the packer at or beyond `out_limit` stops (rules R76, R298, U4), and so does a read of IN at
or beyond `in_limit` (rule R62, under the model's own fault, log entry 9), a read of a byte the host has
not supplied (log entry 9), and a cursor that would reach 2^64 (rule R76). What the rows SIGWORD, HASH16
and TAIL do when executed by themselves, that TAIL advances `in_ptr` among it, is the model's reading of
them (log entry 7, DEDUCED). -/
def Obligations.AccessesBeyondALimitStop : Prop :=
  ∀ s : State,
    (s.latch.outLimit.toNat < s.outPtr.toNat + 8 → ∀ w, exec (.sigword w) s = .fault .outputOverrun) ∧
    (s.latch.outLimit.toNat < s.outPtr.toNat + 2 → ∀ h,
      exec (.emitHash16 h) s = .fault .outputOverrun ∧ exec (.hash16 h) s = .fault .outputOverrun) ∧
    (s.latch.outLimit.toNat < s.outPtr.toNat + 1 → ∀ b, exec (.tail b) s = .fault .outputOverrun) ∧
    (∀ content bits, (Instr.push content bits).wellFormed = true →
      s.latch.outLimit.toNat < s.sigAddr.toNat + 8 ∨
        (64 < s.bitPos.toNat + bits.toNat ∧ s.latch.outLimit.toNat < s.outPtr.toNat + 8) →
      exec (.push content bits) s = .fault .outputOverrun) ∧
    (inAvail s < 4 → exec .processUnit s = .fault .inputOverrun) ∧
    (0 < inAvail s → readByte s.input s.inPtr.toNat = none → exec .emitTail s = .fault .inputOverrun) ∧
    (s.outPtr.toNat + 1 ≤ s.latch.outLimit.toNat → s.inPtr.toNat + 1 = 2 ^ 64 → ∀ b,
      exec (.tail b) s = .fault .offsetOverflow)

/-- EMIT_SELECTOR pushes the code of the rank before the update (rules R126, R176): whatever legal code the
configuration's `FORM_CODE` has for that rank (rule R13), and the four codes of rule R98 where it holds
them. -/
def Obligations.EmitSelectorPushesThePreUpdateRank : Prop :=
  ∀ (s : State) (f : Form), roomToPack 1 0 s →
    (∀ c, s.cfg.formCode[(s.form.rankOf (formId f)).toNat]? = some c → codeLegal c = true →
      ∃ t F, exec (.emitSelector f) s = .next t ∧ s.form.useRecorded F (formId f) ∧
        fieldPacked c { s with form := F } t) ∧
    (selectorCodesFixed s.cfg → s.form.consistent 4 →
      ∃ t F, exec (.emitSelector f) s = .next t ∧ s.form.useRecorded F (formId f) ∧
        (s.form.rankOf (formId f) = 0 → fieldPacked ⟨0, 1⟩ { s with form := F } t) ∧
        (s.form.rankOf (formId f) = 1 → fieldPacked ⟨3, 3⟩ { s with form := F } t) ∧
        (s.form.rankOf (formId f) = 2 → fieldPacked ⟨7, 4⟩ { s with form := F } t) ∧
        (s.form.rankOf (formId f) = 3 → fieldPacked ⟨15, 4⟩ { s with form := F } t))

/-- The selector codes as rows: each is the emission of the form that holds its rank (rules R98, R176), the
model's reading of these rows (log entry 7, DEDUCED). -/
def Obligations.SelectorRowsEmitTheFormOfTheirRank : Prop :=
  ∀ s : State, selectorCodesFixed s.cfg → roomToPack 1 0 s →
    (∃ t F, exec .selRank0 s = .next t ∧ s.form.useRecorded F (s.form.atRank 0) ∧
      fieldPacked ⟨0, 1⟩ { s with form := F } t) ∧
    (∃ t F, exec .selRank1 s = .next t ∧ s.form.useRecorded F (s.form.atRank 1) ∧
      fieldPacked ⟨3, 3⟩ { s with form := F } t) ∧
    (∃ t F, exec .selRank2 s = .next t ∧ s.form.useRecorded F (s.form.atRank 2) ∧
      fieldPacked ⟨7, 4⟩ { s with form := F } t) ∧
    (∃ t F, exec .selRank3 s = .next t ∧ s.form.useRecorded F (s.form.atRank 3) ∧
      fieldPacked ⟨15, 4⟩ { s with form := F } t)

/-- The end code is pushed with no update of the FORM table (rule R180): whatever legal code the
configuration's `END_CODE` is (rule R13), and the field (1, 2) where it is that of rule R99. That the row
SEL_END executed by itself does the same is the model's reading of it (log entry 7, DEDUCED). -/
def Obligations.EndCodeIsPushedWithoutAUse : Prop :=
  ∀ s : State, roomToPack 1 0 s →
    (codeLegal s.cfg.endCode = true →
      (∃ t, exec .emitEnd s = .next t ∧ fieldPacked s.cfg.endCode s t) ∧
      (∃ t, exec .selEnd s = .next t ∧ fieldPacked s.cfg.endCode s t)) ∧
    (selectorCodesFixed s.cfg →
      (∃ t, exec .emitEnd s = .next t ∧ fieldPacked ⟨1, 2⟩ s t) ∧
      (∃ t, exec .selEnd s = .next t ∧ fieldPacked ⟨1, 2⟩ s t))

/-- EMIT_LETTER pushes the codebook entry of the byte's rank before the update; the row LETTER emits the
byte that holds its rank (rules R100, R126, R178). -/
def Obligations.LettersPushTheirCodebookEntry : Prop :=
  ∀ s : State, codebookAccepted s.cfg = true → roomToPack 1 0 s →
    (∀ b : Byte, ∃ t L c, exec (.emitLetter b) s = .next t ∧ s.letter.useRecorded L b ∧
      s.cfg.codebook[(s.letter.rankOf b).toNat]? = some c ∧ fieldPacked c { s with letter := L } t) ∧
    (∀ r : BitVec 8, ∃ t L c, exec (.letter r) s = .next t ∧ s.letter.useRecorded L (s.letter.atRank r) ∧
      s.cfg.codebook[r.toNat]? = some c ∧ fieldPacked c { s with letter := L } t)

/-- EMIT_LITERAL emits the four bytes of the chunk one after another, lowest input offset first, each on
the table the one before it left (rule R179). -/
def Obligations.LiteralEmitsItsFourBytesInOrder : Prop :=
  ∀ (s : State) (b0 b1 b2 b3 : Byte), codebookAccepted s.cfg = true → roomToPack 4 0 s →
    ∃ t0 t1 t2 t, exec (.emitLetter b0) s = .next t0 ∧ exec (.emitLetter b1) t0 = .next t1 ∧
      exec (.emitLetter b2) t1 = .next t2 ∧ exec (.emitLetter b3) t2 = .next t ∧
      exec (.emitLiteral (le32 b0 b1 b2 b3)) s = .next t

/-- The hash payload is two bytes at `out_ptr`, low byte first, outside the signature word (rules R68,
R101, R177). That the row HASH16 executed by itself appends them, as EMIT_HASH16 does, is the model's
reading of the row (log entry 7, DEDUCED). -/
def Obligations.HashPayloadIsTwoBytesAtTheCursor : Prop :=
  ∀ (s : State) (h : Hash), s.outPtr.toNat + 2 ≤ s.latch.outLimit.toNat →
    (∃ t, exec (.emitHash16 h) s = .next t ∧
      readByte t.output s.outPtr.toNat = some (h.setWidth 8) ∧
      readByte t.output (s.outPtr.toNat + 1) = some ((h >>> 8).setWidth 8) ∧
      sameOutside s.output t.output s.outPtr.toNat 2 ∧
      t = { s with output := t.output, outPtr := BitVec.ofNat 64 (s.outPtr.toNat + 2) }) ∧
    (∃ t, exec (.hash16 h) s = .next t ∧ storedAt s.output t.output s.outPtr.toNat 2 h.toNat ∧
      t = { s with output := t.output, outPtr := BitVec.ofNat 64 (s.outPtr.toNat + 2) })

/-- EMIT_TAIL copies every byte left of IN to OUT unchanged, counts it in both cursors and touches no table
and no other register (rule R181). -/
def Obligations.EmitTailCopiesTheRest : Prop :=
  ∀ s : State, inputSupplied s s.latch.inLimit.toNat → s.inPtr.toNat ≤ s.latch.inLimit.toNat →
    s.outPtr.toNat + inAvail s ≤ s.latch.outLimit.toNat → ∃ t, exec .emitTail s = .next t ∧
      (∀ k, k < inAvail s →
        readByte t.output (s.outPtr.toNat + k) = readByte s.input (s.inPtr.toNat + k)) ∧
      sameOutside s.output t.output s.outPtr.toNat (inAvail s) ∧
      t = { s with
        output := t.output, inPtr := s.latch.inLimit
        outPtr := BitVec.ofNat 64 (s.outPtr.toNat + inAvail s) }

/-- The row TAIL appends its byte and counts it in both cursors (rules R102, R181). -/
def Obligations.TailRowAppendsItsByte : Prop :=
  ∀ (s : State) (b : Byte), s.outPtr.toNat + 1 ≤ s.latch.outLimit.toNat → s.inPtr.toNat + 1 < 2 ^ 64 →
    ∃ t, exec (.tail b) s = .next t ∧ storedAt s.output t.output s.outPtr.toNat 1 b.toNat ∧
      t = { s with
        output := t.output, outPtr := BitVec.ofNat 64 (s.outPtr.toNat + 1)
        inPtr := BitVec.ofNat 64 (s.inPtr.toNat + 1) }

/-- The row SIGWORD places a whole word, little end first, at `out_ptr` (rules R67, R97, R171). That the
row leaves the word exactly full is the model's reading of it (log entry 7). -/
def Obligations.SigwordRowPlacesAFullWord : Prop :=
  ∀ (s : State) (w : Word64), s.outPtr.toNat + 8 ≤ s.latch.outLimit.toNat →
    ∃ t, exec (.sigword w) s = .next t ∧ storedAt s.output t.output s.outPtr.toNat 8 w.toNat ∧
      t = { s with
        output := t.output, sigAddr := s.outPtr, sigWord := w, bitPos := 64
        outPtr := BitVec.ofNat 64 (s.outPtr.toNat + 8), sigCount := s.sigCount + 1 }

/-- The end of a stream with at most three bytes left (rules R216, R217): END, then the bytes unchanged,
`resume <- 3` and `Ready`; no table is touched. -/
def Obligations.FlushEndsTheStreamWithItsTail : Prop :=
  ∀ (s : State) (il ol : Word64), s.cfg.endCode = fixedEndCode → packerSound s → s.outPtr ≠ 0 → s.resume = 1 →
    s.inPtr.toNat ≤ il.toNat → il.toNat < s.inPtr.toNat + 4 → inputSupplied s il.toNat →
    s.outPtr.toNat + 8 + (il.toNat - s.inPtr.toNat) ≤ ol.toNat → ∃ u t,
      exec (.flush il ol) s = .next t ∧
      fieldPacked ⟨1, 2⟩ { s with latch := ⟨.flush, il, ol⟩ } u ∧
      (∀ k, k < il.toNat - s.inPtr.toNat →
        readByte t.output (u.outPtr.toNat + k) = readByte s.input (s.inPtr.toNat + k)) ∧
      sameOutside u.output t.output u.outPtr.toNat (il.toNat - s.inPtr.toNat) ∧
      t = { u with
        output := t.output, inPtr := il
        outPtr := BitVec.ofNat 64 (u.outPtr.toNat + (il.toNat - s.inPtr.toNat))
        resume := 3, status := some .ready, latch := Latch.idle }
end

