-- ==== Sys2Proof/Laws/Decode.lean ====
section
/-! SUPPORT. What reading codes off a bit stream can do: stripping a code from a stream, and the test
codebook's self-delimiting property (rule R11). -/

namespace Sys2Proof

@[simp] theorem length_bitsOf (n v : Nat) : (bitsOf n v).length = n := by
  induction n generalizing v with
  | zero => rfl
  | succ n ih => simp [bitsOf, ih]

/-- A code is stripped exactly when the stream is the code and then the rest. -/
theorem stripBits_eq_some {as bs rest : List Bool} : stripBits as bs = some rest ↔ bs = as ++ rest := by
  induction as generalizing bs with
  | nil => simp [stripBits]
  | cons a as ih =>
    cases bs with
    | nil => simp [stripBits]
    | cons b bs =>
      by_cases h : a = b
      · simp [stripBits, h, ih]
      · simp [stripBits, h, Ne.symm h]

/-- No code is stripped from a shorter stream. -/
theorem stripBits_eq_none_of_longer {as bs : List Bool} (h : bs.length < as.length) : stripBits as bs = none := by
  rw [Option.eq_none_iff_forall_ne_some]
  intro rest hr
  rw [stripBits_eq_some] at hr
  simp [hr] at h

/-- A code is not stripped from another that differs from it in its low bits. -/
theorem stripBits_bitsOf_eq_none {n m v w : Nat} (hn : n ≤ m) (h : v % 2 ^ n ≠ w % 2 ^ n) :
    stripBits (bitsOf n v) (bitsOf m w) = none := by
  induction n generalizing m v w with
  | zero => simp at h; omega
  | succ n ih =>
    obtain ⟨m, rfl⟩ : ∃ k, m = k + 1 := ⟨m - 1, by omega⟩
    by_cases hb : v % 2 = w % 2
    · have h2 : (v / 2) % 2 ^ n ≠ (w / 2) % 2 ^ n := by
        intro e
        apply h
        rw [Nat.pow_succ', Nat.mod_mul, Nat.mod_mul, hb, e]
      simp [bitsOf, stripBits, hb, ih (by omega : n ≤ m) h2]
    · have hne : (v % 2 == 1) ≠ (w % 2 == 1) := by
        intro e
        have : v % 2 < 2 := Nat.mod_lt _ (by decide)
        have : w % 2 < 2 := Nat.mod_lt _ (by decide)
        simp only [beq_eq_beq] at e
        omega
      simp [bitsOf, stripBits, hne]

/-- The test codebook is self-delimiting: the lowest bit tells its two lengths apart. -/
theorem test_codebook_selfDelimiting : codesSelfDelimiting Config.test.codebook := by
  have key (i j : Nat) (hij : i ≠ j) (hi : i < 256) (hj : j < 256) :
      stripBits (Config.testCode i).bitString (Config.testCode j).bitString = none := by
    unfold Config.testCode Code.bitString
    split <;> split
    · exact stripBits_bitsOf_eq_none (by simp) (by simp; omega)
    · exact stripBits_bitsOf_eq_none (by simp) (by simp; omega)
    · exact stripBits_eq_none_of_longer (by simp)
    · exact stripBits_bitsOf_eq_none (by simp) (by simp; omega)
  show ((List.range 256).map Config.testCode).Pairwise _
  rw [List.pairwise_map]
  refine List.pairwise_lt_range.imp_of_mem ?_
  intro i j hi hj hij
  rw [List.mem_range] at hi hj
  exact ⟨key i j (by omega) hi hj, key j i (by omega) hj hi⟩

end Sys2Proof
end

