-- ==== Sys2Proof/Laws/Memory.lean ====
section
/-! SUPPORT. The laws of the keyed lists that hold memory and tables: what is read after a write, and that
every operation keeps the canonical form. The reading laws hold of every list, canonical or not. -/

namespace Sys2Proof.Machine

/-! ### Reading after a write -/

@[simp] theorem lookup_nil {α : Type} (a : Nat) : lookup ([] : List (Nat × α)) a = none := rfl

theorem lookup_insert {α : Type} (m : List (Nat × α)) (a b : Nat) (v : α) :
    lookup (insert m a v) b = if a = b then some v else lookup m b := by
  induction m with
  | nil => simp [insert, lookup]
  | cons c t ih =>
    obtain ⟨k, w⟩ := c
    unfold insert
    split
    · simp [lookup]
    · split
      · next h => subst h; simp only [lookup]; split <;> simp_all
      · next h =>
        simp only [lookup, ih]
        by_cases hk : k = b
        · have : a ≠ b := fun e => h (e.trans hk.symm)
          simp [hk, this]
        · simp [hk]

@[simp] theorem lookup_insert_self {α : Type} (m : List (Nat × α)) (a : Nat) (v : α) :
    lookup (insert m a v) a = some v := by simp [lookup_insert]

theorem lookup_insert_of_ne {α : Type} (m : List (Nat × α)) {a b : Nat} (v : α) (h : a ≠ b) :
    lookup (insert m a v) b = lookup m b := by simp [lookup_insert, h]

theorem lookup_erase {α : Type} (m : List (Nat × α)) (a b : Nat) :
    lookup (erase m a) b = if a = b then none else lookup m b := by
  induction m with
  | nil => simp [erase]
  | cons c t ih =>
    obtain ⟨k, w⟩ := c
    unfold erase
    split
    · next h =>
      subst h
      simp only [ih, lookup]
      split <;> simp_all
    · next h =>
      simp only [lookup, ih]
      by_cases hk : k = b
      · have : a ≠ b := fun e => h (hk.trans e.symm)
        simp [hk, this]
      · simp [hk]

/-- A cell of a table after a cell has been written. -/
theorem getCell_setCell {w : Nat} (fresh : Nat → BitVec w) (t : Cells w) (i j : Nat) (v : BitVec w) :
    getCell fresh (setCell fresh t i v) j = if i = j then v else getCell fresh t j := by
  unfold setCell getCell
  split
  · next h =>
    rw [lookup_erase]
    split
    · next e => subst e; simp [h]
    · rfl
  · rw [lookup_insert]
    split <;> simp

@[simp] theorem getCell_setCell_self {w : Nat} (fresh : Nat → BitVec w) (t : Cells w) (i : Nat)
    (v : BitVec w) : getCell fresh (setCell fresh t i v) i = v := by simp [getCell_setCell]

@[simp] theorem getCell_nil {w : Nat} (fresh : Nat → BitVec w) (i : Nat) : getCell fresh [] i = fresh i := rfl

/-- An offset of a stream after `n` bytes of `v` have been stored from `a`. -/
theorem readByte_writeBytes (n : Nat) : ∀ (m : Memory) (a v x : Nat),
    readByte (writeBytes m a n v) x =
      if a ≤ x ∧ x < a + n then some (BitVec.ofNat 8 (v / 256 ^ (x - a))) else readByte m x := by
  induction n with
  | zero => intro m a v x; simp [writeBytes]
  | succ n ih =>
    intro m a v x
    simp only [writeBytes, ih]
    by_cases h1 : a + 1 ≤ x ∧ x < a + 1 + n
    · have h2 : a ≤ x ∧ x < a + (n + 1) := by omega
      have h3 : x - a = (x - (a + 1)) + 1 := by omega
      simp only [h1, h2, and_self, if_true, h3, Nat.pow_succ, Nat.div_div_eq_div_mul]
      rw [Nat.mul_comm (256 ^ _) 256]
    · simp only [h1, if_false]
      by_cases h2 : x = a
      · subst h2
        simp [readByte]
      · have h3 : ¬(a ≤ x ∧ x < a + (n + 1)) := by omega
        simp only [h3, if_false, readByte]
        exact lookup_insert_of_ne _ _ (fun e => h2 e.symm)

/-- Reading `n` bytes is reading each of them. -/
theorem readBytes_eq_some {m : Memory} {n : Nat} : ∀ {a : Nat} {bs : List Byte},
    readBytes m a n = some bs ↔ bs.length = n ∧ ∀ k (h : k < bs.length), readByte m (a + k) = some bs[k] := by
  induction n with
  | zero =>
    intro a bs
    constructor
    · intro h; simp [readBytes] at h; subst h; simp
    · rintro ⟨h, -⟩; have := List.eq_nil_of_length_eq_zero h; simp [readBytes, this]
  | succ n ih =>
    intro a bs
    unfold readBytes
    constructor
    · intro h
      split at h
      · next b bs' hb hbs =>
        obtain ⟨hl, hk⟩ := ih.mp hbs
        simp only [Option.some.injEq] at h
        subst h
        refine ⟨by simp [hl], ?_⟩
        intro k hlt
        cases k with
        | zero => simpa using hb
        | succ k =>
          have := hk k (by simpa using hlt)
          simpa [Nat.add_assoc, Nat.add_comm 1 k] using this
      · simp at h
    · rintro ⟨hl, hk⟩
      cases bs with
      | nil => simp at hl
      | cons b bs =>
        have h0 := hk 0 (by simp)
        have ht : readBytes m (a + 1) n = some bs := by
          refine ih.mpr ⟨by simpa using hl, ?_⟩
          intro k hlt
          have := hk (k + 1) (by simpa using hlt)
          simpa [Nat.add_assoc, Nat.add_comm 1 k] using this
        simp only [Nat.add_zero, List.getElem_cons_zero] at h0
        rw [h0, ht]

/-! ### The canonical form is kept -/

theorem mem_insert {α : Type} {m : List (Nat × α)} {a : Nat} {v : α} {c : Nat × α}
    (h : c ∈ insert m a v) : c = (a, v) ∨ c ∈ m := by
  induction m with
  | nil => simpa [insert] using h
  | cons d t ih =>
    obtain ⟨k, w⟩ := d
    unfold insert at h
    split at h
    · simpa using h
    · split at h
      · simp only [List.mem_cons] at h ⊢; tauto
      · simp only [List.mem_cons] at h ⊢
        rcases h with h | h
        · exact .inr (.inl h)
        · rcases ih h with h | h
          · exact .inl h
          · exact .inr (.inr h)

theorem mem_erase {α : Type} {m : List (Nat × α)} {a : Nat} {c : Nat × α} (h : c ∈ erase m a) :
    c ∈ m ∧ c.1 ≠ a := by
  induction m with
  | nil => simp [erase] at h
  | cons d t ih =>
    obtain ⟨k, w⟩ := d
    unfold erase at h
    split at h
    · exact ⟨List.mem_cons_of_mem _ (ih h).1, (ih h).2⟩
    · next hk =>
      simp only [List.mem_cons] at h
      rcases h with h | h
      · subst h; exact ⟨by simp, hk⟩
      · exact ⟨List.mem_cons_of_mem _ (ih h).1, (ih h).2⟩

theorem insert_keysRise {α : Type} {m : List (Nat × α)} (a : Nat) (v : α) (h : keysRise m) :
    keysRise (insert m a v) := by
  induction m with
  | nil => simp [insert, keysRise]
  | cons d t ih =>
    obtain ⟨k, w⟩ := d
    unfold keysRise at h ih ⊢
    rw [List.pairwise_cons] at h
    unfold insert
    split
    · next hlt =>
      rw [List.pairwise_cons, List.pairwise_cons]
      refine ⟨?_, h⟩
      intro c hc
      rcases List.mem_cons.mp hc with rfl | hc
      · exact hlt
      · exact Nat.lt_trans hlt (h.1 c hc)
    · split
      · next e => subst e; rw [List.pairwise_cons]; exact h
      · next hlt hne =>
        rw [List.pairwise_cons]
        refine ⟨?_, ih h.2⟩
        intro c hc
        rcases mem_insert hc with rfl | hc
        · simp only; omega
        · exact h.1 c hc

theorem erase_keysRise {α : Type} {m : List (Nat × α)} (a : Nat) (h : keysRise m) :
    keysRise (erase m a) := by
  induction m with
  | nil => simp [erase, keysRise]
  | cons d t ih =>
    obtain ⟨k, w⟩ := d
    unfold keysRise at h ih ⊢
    rw [List.pairwise_cons] at h
    unfold erase
    split
    · exact ih h.2
    · rw [List.pairwise_cons]
      exact ⟨fun c hc => h.1 c (mem_erase hc).1, ih h.2⟩

/-- Writing a cell keeps a table canonical. -/
theorem setCell_wf {w n : Nat} {fresh : Nat → BitVec w} {t : Cells w} {i : Nat} {v : BitVec w}
    (h : Cells.wf fresh n t) (hi : i < n) : Cells.wf fresh n (setCell fresh t i v) := by
  unfold setCell
  split
  · exact ⟨erase_keysRise _ h.1, fun c hc => h.2 c (mem_erase hc).1⟩
  · next hv =>
    refine ⟨insert_keysRise _ _ h.1, fun c hc => ?_⟩
    rcases mem_insert hc with rfl | hc
    · exact ⟨hi, hv⟩
    · exact h.2 c hc

/-- Storing bytes below 2^64 keeps a stream canonical. -/
theorem writeBytes_wf (n : Nat) : ∀ {m : Memory} {a v : Nat}, Memory.wf m → a + n ≤ 2 ^ 64 →
    Memory.wf (writeBytes m a n v) := by
  induction n with
  | zero => intro m a v h _; exact h
  | succ n ih =>
    intro m a v h ha
    refine ih ⟨insert_keysRise _ _ h.1, fun c hc => ?_⟩ (by omega)
    rcases mem_insert hc with rfl | hc
    · simp only; omega
    · exact h.2 c hc

/-- Two canonical streams that read the same at every offset are the same list. -/
theorem keysRise_ext {α : Type} : ∀ {m m' : List (Nat × α)}, keysRise m → keysRise m' →
    (∀ a, lookup m a = lookup m' a) → m = m' := by
  have head : ∀ {k : Nat} {w : α} {t : List (Nat × α)} {a : Nat}, keysRise ((k, w) :: t) →
      lookup t a ≠ none → k < a := by
    intro k w t a h ha
    have h1 := (List.pairwise_cons.mp h).1
    have : ∃ v, (a, v) ∈ t := by
      clear h h1
      induction t with
      | nil => simp at ha
      | cons d t ih =>
        obtain ⟨j, u⟩ := d
        unfold lookup at ha
        split at ha
        · next e => subst e; exact ⟨u, by simp⟩
        · obtain ⟨v, hv⟩ := ih ha; exact ⟨v, List.mem_cons_of_mem _ hv⟩
    obtain ⟨v, hv⟩ := this
    exact h1 _ hv
  intro m
  induction m with
  | nil =>
    intro m' _ _ h
    cases m' with
    | nil => rfl
    | cons d t => obtain ⟨k, w⟩ := d; have := h k; simp [lookup] at this
  | cons d t ih =>
    obtain ⟨k, w⟩ := d
    intro m' h h' e
    cases m' with
    | nil => have := e k; simp [lookup] at this
    | cons d' t' =>
      obtain ⟨k', w'⟩ := d'
      have e1 := e k
      have e2 := e k'
      have hk : k = k' := by
        by_contra hne
        simp only [lookup, if_true, if_neg (fun x => hne (Eq.symm x) : ¬k' = k)] at e1
        simp only [lookup, if_true, if_neg hne] at e2
        have a1 := head h' (a := k) (by rw [← e1]; simp)
        have a2 := head h (a := k') (by rw [e2]; simp)
        omega
      subst hk
      simp only [lookup, if_true, Option.some.injEq] at e1
      subst e1
      have : t = t' := by
        refine ih (List.pairwise_cons.mp h).2 (List.pairwise_cons.mp h').2 fun a => ?_
        have ea := e a
        by_cases hka : k = a
        · subst hka
          have n1 : lookup t k = none := by
            by_contra hc; exact absurd (head h hc) (by omega)
          have n2 : lookup t' k = none := by
            by_contra hc; exact absurd (head h' hc) (by omega)
          rw [n1, n2]
        · simpa [lookup, hka] using ea
      rw [this]

end Sys2Proof.Machine
end

