-- ==== Sys2Proof/Laws/State.lean ====
section
/-! SUPPORT. What each named update of the state does to each field, one lemma per field per update, so that
no later proof unfolds a record update. -/

namespace Sys2Proof.Machine

/-! ### setResume -/

@[simp] theorem setResume_resume (s : State) (r : BitVec 2) : (setResume s r).resume = r := rfl
@[simp] theorem setResume_letter (s : State) (r : BitVec 2) : (setResume s r).letter = s.letter := rfl
@[simp] theorem setResume_form (s : State) (r : BitVec 2) : (setResume s r).form = s.form := rfl
@[simp] theorem setResume_chunkA (s : State) (r : BitVec 2) : (setResume s r).chunkA = s.chunkA := rfl
@[simp] theorem setResume_chunkB (s : State) (r : BitVec 2) : (setResume s r).chunkB = s.chunkB := rfl
@[simp] theorem setResume_pred (s : State) (r : BitVec 2) : (setResume s r).pred = s.pred := rfl
@[simp] theorem setResume_lastHash (s : State) (r : BitVec 2) : (setResume s r).lastHash = s.lastHash := rfl
@[simp] theorem setResume_sigAddr (s : State) (r : BitVec 2) : (setResume s r).sigAddr = s.sigAddr := rfl
@[simp] theorem setResume_sigWord (s : State) (r : BitVec 2) : (setResume s r).sigWord = s.sigWord := rfl
@[simp] theorem setResume_bitPos (s : State) (r : BitVec 2) : (setResume s r).bitPos = s.bitPos := rfl
@[simp] theorem setResume_sigCount (s : State) (r : BitVec 2) : (setResume s r).sigCount = s.sigCount := rfl
@[simp] theorem setResume_effChecked (s : State) (r : BitVec 2) :
    (setResume s r).effChecked = s.effChecked := rfl
@[simp] theorem setResume_resetCycle (s : State) (r : BitVec 2) :
    (setResume s r).resetCycle = s.resetCycle := rfl
@[simp] theorem setResume_inPtr (s : State) (r : BitVec 2) : (setResume s r).inPtr = s.inPtr := rfl
@[simp] theorem setResume_outPtr (s : State) (r : BitVec 2) : (setResume s r).outPtr = s.outPtr := rfl
@[simp] theorem setResume_input (s : State) (r : BitVec 2) : (setResume s r).input = s.input := rfl
@[simp] theorem setResume_output (s : State) (r : BitVec 2) : (setResume s r).output = s.output := rfl
@[simp] theorem setResume_cfg (s : State) (r : BitVec 2) : (setResume s r).cfg = s.cfg := rfl
@[simp] theorem setResume_latch (s : State) (r : BitVec 2) : (setResume s r).latch = s.latch := rfl
@[simp] theorem setResume_status (s : State) (r : BitVec 2) : (setResume s r).status = s.status := rfl
@[simp] theorem setResume_result (s : State) (r : BitVec 2) : (setResume s r).result = s.result := rfl
@[simp] theorem setResume_commands (s : State) (r : BitVec 2) : (setResume s r).commands = s.commands := rfl

/-! ### setForm -/

@[simp] theorem setForm_resume (s : State) (t : RankTable) : (setForm s t).resume = s.resume := rfl
@[simp] theorem setForm_letter (s : State) (t : RankTable) : (setForm s t).letter = s.letter := rfl
@[simp] theorem setForm_form (s : State) (t : RankTable) : (setForm s t).form = t := rfl
@[simp] theorem setForm_chunkA (s : State) (t : RankTable) : (setForm s t).chunkA = s.chunkA := rfl
@[simp] theorem setForm_chunkB (s : State) (t : RankTable) : (setForm s t).chunkB = s.chunkB := rfl
@[simp] theorem setForm_pred (s : State) (t : RankTable) : (setForm s t).pred = s.pred := rfl
@[simp] theorem setForm_lastHash (s : State) (t : RankTable) : (setForm s t).lastHash = s.lastHash := rfl
@[simp] theorem setForm_sigAddr (s : State) (t : RankTable) : (setForm s t).sigAddr = s.sigAddr := rfl
@[simp] theorem setForm_sigWord (s : State) (t : RankTable) : (setForm s t).sigWord = s.sigWord := rfl
@[simp] theorem setForm_bitPos (s : State) (t : RankTable) : (setForm s t).bitPos = s.bitPos := rfl
@[simp] theorem setForm_sigCount (s : State) (t : RankTable) : (setForm s t).sigCount = s.sigCount := rfl
@[simp] theorem setForm_effChecked (s : State) (t : RankTable) :
    (setForm s t).effChecked = s.effChecked := rfl
@[simp] theorem setForm_resetCycle (s : State) (t : RankTable) :
    (setForm s t).resetCycle = s.resetCycle := rfl
@[simp] theorem setForm_inPtr (s : State) (t : RankTable) : (setForm s t).inPtr = s.inPtr := rfl
@[simp] theorem setForm_outPtr (s : State) (t : RankTable) : (setForm s t).outPtr = s.outPtr := rfl
@[simp] theorem setForm_input (s : State) (t : RankTable) : (setForm s t).input = s.input := rfl
@[simp] theorem setForm_output (s : State) (t : RankTable) : (setForm s t).output = s.output := rfl
@[simp] theorem setForm_cfg (s : State) (t : RankTable) : (setForm s t).cfg = s.cfg := rfl
@[simp] theorem setForm_latch (s : State) (t : RankTable) : (setForm s t).latch = s.latch := rfl
@[simp] theorem setForm_status (s : State) (t : RankTable) : (setForm s t).status = s.status := rfl
@[simp] theorem setForm_result (s : State) (t : RankTable) : (setForm s t).result = s.result := rfl
@[simp] theorem setForm_commands (s : State) (t : RankTable) : (setForm s t).commands = s.commands := rfl

/-! ### setLetter -/

@[simp] theorem setLetter_resume (s : State) (t : RankTable) : (setLetter s t).resume = s.resume := rfl
@[simp] theorem setLetter_letter (s : State) (t : RankTable) : (setLetter s t).letter = t := rfl
@[simp] theorem setLetter_form (s : State) (t : RankTable) : (setLetter s t).form = s.form := rfl
@[simp] theorem setLetter_chunkA (s : State) (t : RankTable) : (setLetter s t).chunkA = s.chunkA := rfl
@[simp] theorem setLetter_chunkB (s : State) (t : RankTable) : (setLetter s t).chunkB = s.chunkB := rfl
@[simp] theorem setLetter_pred (s : State) (t : RankTable) : (setLetter s t).pred = s.pred := rfl
@[simp] theorem setLetter_lastHash (s : State) (t : RankTable) : (setLetter s t).lastHash = s.lastHash := rfl
@[simp] theorem setLetter_sigAddr (s : State) (t : RankTable) : (setLetter s t).sigAddr = s.sigAddr := rfl
@[simp] theorem setLetter_sigWord (s : State) (t : RankTable) : (setLetter s t).sigWord = s.sigWord := rfl
@[simp] theorem setLetter_bitPos (s : State) (t : RankTable) : (setLetter s t).bitPos = s.bitPos := rfl
@[simp] theorem setLetter_sigCount (s : State) (t : RankTable) : (setLetter s t).sigCount = s.sigCount := rfl
@[simp] theorem setLetter_effChecked (s : State) (t : RankTable) :
    (setLetter s t).effChecked = s.effChecked := rfl
@[simp] theorem setLetter_resetCycle (s : State) (t : RankTable) :
    (setLetter s t).resetCycle = s.resetCycle := rfl
@[simp] theorem setLetter_inPtr (s : State) (t : RankTable) : (setLetter s t).inPtr = s.inPtr := rfl
@[simp] theorem setLetter_outPtr (s : State) (t : RankTable) : (setLetter s t).outPtr = s.outPtr := rfl
@[simp] theorem setLetter_input (s : State) (t : RankTable) : (setLetter s t).input = s.input := rfl
@[simp] theorem setLetter_output (s : State) (t : RankTable) : (setLetter s t).output = s.output := rfl
@[simp] theorem setLetter_cfg (s : State) (t : RankTable) : (setLetter s t).cfg = s.cfg := rfl
@[simp] theorem setLetter_latch (s : State) (t : RankTable) : (setLetter s t).latch = s.latch := rfl
@[simp] theorem setLetter_status (s : State) (t : RankTable) : (setLetter s t).status = s.status := rfl
@[simp] theorem setLetter_result (s : State) (t : RankTable) : (setLetter s t).result = s.result := rfl
@[simp] theorem setLetter_commands (s : State) (t : RankTable) : (setLetter s t).commands = s.commands := rfl

/-! ### setResult -/

@[simp] theorem setResult_resume (s : State) (v : BitVec 16) : (setResult s v).resume = s.resume := rfl
@[simp] theorem setResult_letter (s : State) (v : BitVec 16) : (setResult s v).letter = s.letter := rfl
@[simp] theorem setResult_form (s : State) (v : BitVec 16) : (setResult s v).form = s.form := rfl
@[simp] theorem setResult_chunkA (s : State) (v : BitVec 16) : (setResult s v).chunkA = s.chunkA := rfl
@[simp] theorem setResult_chunkB (s : State) (v : BitVec 16) : (setResult s v).chunkB = s.chunkB := rfl
@[simp] theorem setResult_pred (s : State) (v : BitVec 16) : (setResult s v).pred = s.pred := rfl
@[simp] theorem setResult_lastHash (s : State) (v : BitVec 16) : (setResult s v).lastHash = s.lastHash := rfl
@[simp] theorem setResult_sigAddr (s : State) (v : BitVec 16) : (setResult s v).sigAddr = s.sigAddr := rfl
@[simp] theorem setResult_sigWord (s : State) (v : BitVec 16) : (setResult s v).sigWord = s.sigWord := rfl
@[simp] theorem setResult_bitPos (s : State) (v : BitVec 16) : (setResult s v).bitPos = s.bitPos := rfl
@[simp] theorem setResult_sigCount (s : State) (v : BitVec 16) : (setResult s v).sigCount = s.sigCount := rfl
@[simp] theorem setResult_effChecked (s : State) (v : BitVec 16) :
    (setResult s v).effChecked = s.effChecked := rfl
@[simp] theorem setResult_resetCycle (s : State) (v : BitVec 16) :
    (setResult s v).resetCycle = s.resetCycle := rfl
@[simp] theorem setResult_inPtr (s : State) (v : BitVec 16) : (setResult s v).inPtr = s.inPtr := rfl
@[simp] theorem setResult_outPtr (s : State) (v : BitVec 16) : (setResult s v).outPtr = s.outPtr := rfl
@[simp] theorem setResult_input (s : State) (v : BitVec 16) : (setResult s v).input = s.input := rfl
@[simp] theorem setResult_output (s : State) (v : BitVec 16) : (setResult s v).output = s.output := rfl
@[simp] theorem setResult_cfg (s : State) (v : BitVec 16) : (setResult s v).cfg = s.cfg := rfl
@[simp] theorem setResult_latch (s : State) (v : BitVec 16) : (setResult s v).latch = s.latch := rfl
@[simp] theorem setResult_status (s : State) (v : BitVec 16) : (setResult s v).status = s.status := rfl
@[simp] theorem setResult_result (s : State) (v : BitVec 16) : (setResult s v).result = v := rfl
@[simp] theorem setResult_commands (s : State) (v : BitVec 16) : (setResult s v).commands = s.commands := rfl

/-! ### latchCommand -/

@[simp] theorem latchCommand_resume (s : State) (m : Mode) (il ol : Word64) :
    (latchCommand s m il ol).resume = s.resume := rfl
@[simp] theorem latchCommand_letter (s : State) (m : Mode) (il ol : Word64) :
    (latchCommand s m il ol).letter = s.letter := rfl
@[simp] theorem latchCommand_form (s : State) (m : Mode) (il ol : Word64) :
    (latchCommand s m il ol).form = s.form := rfl
@[simp] theorem latchCommand_chunkA (s : State) (m : Mode) (il ol : Word64) :
    (latchCommand s m il ol).chunkA = s.chunkA := rfl
@[simp] theorem latchCommand_chunkB (s : State) (m : Mode) (il ol : Word64) :
    (latchCommand s m il ol).chunkB = s.chunkB := rfl
@[simp] theorem latchCommand_pred (s : State) (m : Mode) (il ol : Word64) :
    (latchCommand s m il ol).pred = s.pred := rfl
@[simp] theorem latchCommand_lastHash (s : State) (m : Mode) (il ol : Word64) :
    (latchCommand s m il ol).lastHash = s.lastHash := rfl
@[simp] theorem latchCommand_sigAddr (s : State) (m : Mode) (il ol : Word64) :
    (latchCommand s m il ol).sigAddr = s.sigAddr := rfl
@[simp] theorem latchCommand_sigWord (s : State) (m : Mode) (il ol : Word64) :
    (latchCommand s m il ol).sigWord = s.sigWord := rfl
@[simp] theorem latchCommand_bitPos (s : State) (m : Mode) (il ol : Word64) :
    (latchCommand s m il ol).bitPos = s.bitPos := rfl
@[simp] theorem latchCommand_sigCount (s : State) (m : Mode) (il ol : Word64) :
    (latchCommand s m il ol).sigCount = s.sigCount := rfl
@[simp] theorem latchCommand_effChecked (s : State) (m : Mode) (il ol : Word64) :
    (latchCommand s m il ol).effChecked = s.effChecked := rfl
@[simp] theorem latchCommand_resetCycle (s : State) (m : Mode) (il ol : Word64) :
    (latchCommand s m il ol).resetCycle = s.resetCycle := rfl
@[simp] theorem latchCommand_inPtr (s : State) (m : Mode) (il ol : Word64) :
    (latchCommand s m il ol).inPtr = s.inPtr := rfl
@[simp] theorem latchCommand_outPtr (s : State) (m : Mode) (il ol : Word64) :
    (latchCommand s m il ol).outPtr = s.outPtr := rfl
@[simp] theorem latchCommand_input (s : State) (m : Mode) (il ol : Word64) :
    (latchCommand s m il ol).input = s.input := rfl
@[simp] theorem latchCommand_output (s : State) (m : Mode) (il ol : Word64) :
    (latchCommand s m il ol).output = s.output := rfl
@[simp] theorem latchCommand_cfg (s : State) (m : Mode) (il ol : Word64) :
    (latchCommand s m il ol).cfg = s.cfg := rfl
@[simp] theorem latchCommand_latch (s : State) (m : Mode) (il ol : Word64) :
    (latchCommand s m il ol).latch = ⟨m, il, ol⟩ := rfl
@[simp] theorem latchCommand_status (s : State) (m : Mode) (il ol : Word64) :
    (latchCommand s m il ol).status = s.status := rfl
@[simp] theorem latchCommand_result (s : State) (m : Mode) (il ol : Word64) :
    (latchCommand s m il ol).result = s.result := rfl
@[simp] theorem latchCommand_commands (s : State) (m : Mode) (il ol : Word64) :
    (latchCommand s m il ol).commands = s.commands := rfl

/-! ### endCommand -/

@[simp] theorem endCommand_resume (s : State) (st : Status) : (endCommand s st).resume = s.resume := rfl
@[simp] theorem endCommand_letter (s : State) (st : Status) : (endCommand s st).letter = s.letter := rfl
@[simp] theorem endCommand_form (s : State) (st : Status) : (endCommand s st).form = s.form := rfl
@[simp] theorem endCommand_chunkA (s : State) (st : Status) : (endCommand s st).chunkA = s.chunkA := rfl
@[simp] theorem endCommand_chunkB (s : State) (st : Status) : (endCommand s st).chunkB = s.chunkB := rfl
@[simp] theorem endCommand_pred (s : State) (st : Status) : (endCommand s st).pred = s.pred := rfl
@[simp] theorem endCommand_lastHash (s : State) (st : Status) : (endCommand s st).lastHash = s.lastHash := rfl
@[simp] theorem endCommand_sigAddr (s : State) (st : Status) : (endCommand s st).sigAddr = s.sigAddr := rfl
@[simp] theorem endCommand_sigWord (s : State) (st : Status) : (endCommand s st).sigWord = s.sigWord := rfl
@[simp] theorem endCommand_bitPos (s : State) (st : Status) : (endCommand s st).bitPos = s.bitPos := rfl
@[simp] theorem endCommand_sigCount (s : State) (st : Status) : (endCommand s st).sigCount = s.sigCount := rfl
@[simp] theorem endCommand_effChecked (s : State) (st : Status) :
    (endCommand s st).effChecked = s.effChecked := rfl
@[simp] theorem endCommand_resetCycle (s : State) (st : Status) :
    (endCommand s st).resetCycle = s.resetCycle := rfl
@[simp] theorem endCommand_inPtr (s : State) (st : Status) : (endCommand s st).inPtr = s.inPtr := rfl
@[simp] theorem endCommand_outPtr (s : State) (st : Status) : (endCommand s st).outPtr = s.outPtr := rfl
@[simp] theorem endCommand_input (s : State) (st : Status) : (endCommand s st).input = s.input := rfl
@[simp] theorem endCommand_output (s : State) (st : Status) : (endCommand s st).output = s.output := rfl
@[simp] theorem endCommand_cfg (s : State) (st : Status) : (endCommand s st).cfg = s.cfg := rfl
@[simp] theorem endCommand_latch (s : State) (st : Status) : (endCommand s st).latch = Latch.idle := rfl
@[simp] theorem endCommand_status (s : State) (st : Status) : (endCommand s st).status = some st := rfl
@[simp] theorem endCommand_result (s : State) (st : Status) : (endCommand s st).result = s.result := rfl
@[simp] theorem endCommand_commands (s : State) (st : Status) : (endCommand s st).commands = s.commands := rfl

/-! ### setLastHash -/

@[simp] theorem setLastHash_resume (s : State) (h : Hash) : (setLastHash s h).resume = s.resume := rfl
@[simp] theorem setLastHash_letter (s : State) (h : Hash) : (setLastHash s h).letter = s.letter := rfl
@[simp] theorem setLastHash_form (s : State) (h : Hash) : (setLastHash s h).form = s.form := rfl
@[simp] theorem setLastHash_chunkA (s : State) (h : Hash) : (setLastHash s h).chunkA = s.chunkA := rfl
@[simp] theorem setLastHash_chunkB (s : State) (h : Hash) : (setLastHash s h).chunkB = s.chunkB := rfl
@[simp] theorem setLastHash_pred (s : State) (h : Hash) : (setLastHash s h).pred = s.pred := rfl
@[simp] theorem setLastHash_lastHash (s : State) (h : Hash) : (setLastHash s h).lastHash = h := rfl
@[simp] theorem setLastHash_sigAddr (s : State) (h : Hash) : (setLastHash s h).sigAddr = s.sigAddr := rfl
@[simp] theorem setLastHash_sigWord (s : State) (h : Hash) : (setLastHash s h).sigWord = s.sigWord := rfl
@[simp] theorem setLastHash_bitPos (s : State) (h : Hash) : (setLastHash s h).bitPos = s.bitPos := rfl
@[simp] theorem setLastHash_sigCount (s : State) (h : Hash) : (setLastHash s h).sigCount = s.sigCount := rfl
@[simp] theorem setLastHash_effChecked (s : State) (h : Hash) :
    (setLastHash s h).effChecked = s.effChecked := rfl
@[simp] theorem setLastHash_resetCycle (s : State) (h : Hash) :
    (setLastHash s h).resetCycle = s.resetCycle := rfl
@[simp] theorem setLastHash_inPtr (s : State) (h : Hash) : (setLastHash s h).inPtr = s.inPtr := rfl
@[simp] theorem setLastHash_outPtr (s : State) (h : Hash) : (setLastHash s h).outPtr = s.outPtr := rfl
@[simp] theorem setLastHash_input (s : State) (h : Hash) : (setLastHash s h).input = s.input := rfl
@[simp] theorem setLastHash_output (s : State) (h : Hash) : (setLastHash s h).output = s.output := rfl
@[simp] theorem setLastHash_cfg (s : State) (h : Hash) : (setLastHash s h).cfg = s.cfg := rfl
@[simp] theorem setLastHash_latch (s : State) (h : Hash) : (setLastHash s h).latch = s.latch := rfl
@[simp] theorem setLastHash_status (s : State) (h : Hash) : (setLastHash s h).status = s.status := rfl
@[simp] theorem setLastHash_result (s : State) (h : Hash) : (setLastHash s h).result = s.result := rfl
@[simp] theorem setLastHash_commands (s : State) (h : Hash) : (setLastHash s h).commands = s.commands := rfl

/-! ### setPred -/

@[simp] theorem setPred_resume (s : State) (h : Hash) (c : Chunk) : (setPred s h c).resume = s.resume := rfl
@[simp] theorem setPred_letter (s : State) (h : Hash) (c : Chunk) : (setPred s h c).letter = s.letter := rfl
@[simp] theorem setPred_form (s : State) (h : Hash) (c : Chunk) : (setPred s h c).form = s.form := rfl
@[simp] theorem setPred_chunkA (s : State) (h : Hash) (c : Chunk) : (setPred s h c).chunkA = s.chunkA := rfl
@[simp] theorem setPred_chunkB (s : State) (h : Hash) (c : Chunk) : (setPred s h c).chunkB = s.chunkB := rfl
@[simp] theorem setPred_pred (s : State) (h : Hash) (c : Chunk) :
    (setPred s h c).pred = setCell zeroCell s.pred h.toNat c := rfl
@[simp] theorem setPred_lastHash (s : State) (h : Hash) (c : Chunk) :
    (setPred s h c).lastHash = s.lastHash := rfl
@[simp] theorem setPred_sigAddr (s : State) (h : Hash) (c : Chunk) :
    (setPred s h c).sigAddr = s.sigAddr := rfl
@[simp] theorem setPred_sigWord (s : State) (h : Hash) (c : Chunk) :
    (setPred s h c).sigWord = s.sigWord := rfl
@[simp] theorem setPred_bitPos (s : State) (h : Hash) (c : Chunk) : (setPred s h c).bitPos = s.bitPos := rfl
@[simp] theorem setPred_sigCount (s : State) (h : Hash) (c : Chunk) :
    (setPred s h c).sigCount = s.sigCount := rfl
@[simp] theorem setPred_effChecked (s : State) (h : Hash) (c : Chunk) :
    (setPred s h c).effChecked = s.effChecked := rfl
@[simp] theorem setPred_resetCycle (s : State) (h : Hash) (c : Chunk) :
    (setPred s h c).resetCycle = s.resetCycle := rfl
@[simp] theorem setPred_inPtr (s : State) (h : Hash) (c : Chunk) : (setPred s h c).inPtr = s.inPtr := rfl
@[simp] theorem setPred_outPtr (s : State) (h : Hash) (c : Chunk) : (setPred s h c).outPtr = s.outPtr := rfl
@[simp] theorem setPred_input (s : State) (h : Hash) (c : Chunk) : (setPred s h c).input = s.input := rfl
@[simp] theorem setPred_output (s : State) (h : Hash) (c : Chunk) : (setPred s h c).output = s.output := rfl
@[simp] theorem setPred_cfg (s : State) (h : Hash) (c : Chunk) : (setPred s h c).cfg = s.cfg := rfl
@[simp] theorem setPred_latch (s : State) (h : Hash) (c : Chunk) : (setPred s h c).latch = s.latch := rfl
@[simp] theorem setPred_status (s : State) (h : Hash) (c : Chunk) : (setPred s h c).status = s.status := rfl
@[simp] theorem setPred_result (s : State) (h : Hash) (c : Chunk) : (setPred s h c).result = s.result := rfl
@[simp] theorem setPred_commands (s : State) (h : Hash) (c : Chunk) :
    (setPred s h c).commands = s.commands := rfl

/-! ### setBucket -/

@[simp] theorem setBucket_resume (s : State) (h : Hash) (a b : Chunk) :
    (setBucket s h a b).resume = s.resume := rfl
@[simp] theorem setBucket_letter (s : State) (h : Hash) (a b : Chunk) :
    (setBucket s h a b).letter = s.letter := rfl
@[simp] theorem setBucket_form (s : State) (h : Hash) (a b : Chunk) : (setBucket s h a b).form = s.form := rfl
@[simp] theorem setBucket_chunkA (s : State) (h : Hash) (a b : Chunk) :
    (setBucket s h a b).chunkA = setCell zeroCell s.chunkA h.toNat a := rfl
@[simp] theorem setBucket_chunkB (s : State) (h : Hash) (a b : Chunk) :
    (setBucket s h a b).chunkB = setCell zeroCell s.chunkB h.toNat b := rfl
@[simp] theorem setBucket_pred (s : State) (h : Hash) (a b : Chunk) : (setBucket s h a b).pred = s.pred := rfl
@[simp] theorem setBucket_lastHash (s : State) (h : Hash) (a b : Chunk) :
    (setBucket s h a b).lastHash = s.lastHash := rfl
@[simp] theorem setBucket_sigAddr (s : State) (h : Hash) (a b : Chunk) :
    (setBucket s h a b).sigAddr = s.sigAddr := rfl
@[simp] theorem setBucket_sigWord (s : State) (h : Hash) (a b : Chunk) :
    (setBucket s h a b).sigWord = s.sigWord := rfl
@[simp] theorem setBucket_bitPos (s : State) (h : Hash) (a b : Chunk) :
    (setBucket s h a b).bitPos = s.bitPos := rfl
@[simp] theorem setBucket_sigCount (s : State) (h : Hash) (a b : Chunk) :
    (setBucket s h a b).sigCount = s.sigCount := rfl
@[simp] theorem setBucket_effChecked (s : State) (h : Hash) (a b : Chunk) :
    (setBucket s h a b).effChecked = s.effChecked := rfl
@[simp] theorem setBucket_resetCycle (s : State) (h : Hash) (a b : Chunk) :
    (setBucket s h a b).resetCycle = s.resetCycle := rfl
@[simp] theorem setBucket_inPtr (s : State) (h : Hash) (a b : Chunk) :
    (setBucket s h a b).inPtr = s.inPtr := rfl
@[simp] theorem setBucket_outPtr (s : State) (h : Hash) (a b : Chunk) :
    (setBucket s h a b).outPtr = s.outPtr := rfl
@[simp] theorem setBucket_input (s : State) (h : Hash) (a b : Chunk) :
    (setBucket s h a b).input = s.input := rfl
@[simp] theorem setBucket_output (s : State) (h : Hash) (a b : Chunk) :
    (setBucket s h a b).output = s.output := rfl
@[simp] theorem setBucket_cfg (s : State) (h : Hash) (a b : Chunk) : (setBucket s h a b).cfg = s.cfg := rfl
@[simp] theorem setBucket_latch (s : State) (h : Hash) (a b : Chunk) :
    (setBucket s h a b).latch = s.latch := rfl
@[simp] theorem setBucket_status (s : State) (h : Hash) (a b : Chunk) :
    (setBucket s h a b).status = s.status := rfl
@[simp] theorem setBucket_result (s : State) (h : Hash) (a b : Chunk) :
    (setBucket s h a b).result = s.result := rfl
@[simp] theorem setBucket_commands (s : State) (h : Hash) (a b : Chunk) :
    (setBucket s h a b).commands = s.commands := rfl

/-! ### markEfficiencyChecked -/

@[simp] theorem markEfficiencyChecked_resume (s : State) : (markEfficiencyChecked s).resume = s.resume := rfl
@[simp] theorem markEfficiencyChecked_letter (s : State) : (markEfficiencyChecked s).letter = s.letter := rfl
@[simp] theorem markEfficiencyChecked_form (s : State) : (markEfficiencyChecked s).form = s.form := rfl
@[simp] theorem markEfficiencyChecked_chunkA (s : State) : (markEfficiencyChecked s).chunkA = s.chunkA := rfl
@[simp] theorem markEfficiencyChecked_chunkB (s : State) : (markEfficiencyChecked s).chunkB = s.chunkB := rfl
@[simp] theorem markEfficiencyChecked_pred (s : State) : (markEfficiencyChecked s).pred = s.pred := rfl
@[simp] theorem markEfficiencyChecked_lastHash (s : State) :
    (markEfficiencyChecked s).lastHash = s.lastHash := rfl
@[simp] theorem markEfficiencyChecked_sigAddr (s : State) :
    (markEfficiencyChecked s).sigAddr = s.sigAddr := rfl
@[simp] theorem markEfficiencyChecked_sigWord (s : State) :
    (markEfficiencyChecked s).sigWord = s.sigWord := rfl
@[simp] theorem markEfficiencyChecked_bitPos (s : State) : (markEfficiencyChecked s).bitPos = s.bitPos := rfl
@[simp] theorem markEfficiencyChecked_sigCount (s : State) :
    (markEfficiencyChecked s).sigCount = s.sigCount := rfl
@[simp] theorem markEfficiencyChecked_effChecked (s : State) :
    (markEfficiencyChecked s).effChecked = true := rfl
@[simp] theorem markEfficiencyChecked_resetCycle (s : State) :
    (markEfficiencyChecked s).resetCycle = s.resetCycle := rfl
@[simp] theorem markEfficiencyChecked_inPtr (s : State) : (markEfficiencyChecked s).inPtr = s.inPtr := rfl
@[simp] theorem markEfficiencyChecked_outPtr (s : State) : (markEfficiencyChecked s).outPtr = s.outPtr := rfl
@[simp] theorem markEfficiencyChecked_input (s : State) : (markEfficiencyChecked s).input = s.input := rfl
@[simp] theorem markEfficiencyChecked_output (s : State) : (markEfficiencyChecked s).output = s.output := rfl
@[simp] theorem markEfficiencyChecked_cfg (s : State) : (markEfficiencyChecked s).cfg = s.cfg := rfl
@[simp] theorem markEfficiencyChecked_latch (s : State) : (markEfficiencyChecked s).latch = s.latch := rfl
@[simp] theorem markEfficiencyChecked_status (s : State) : (markEfficiencyChecked s).status = s.status := rfl
@[simp] theorem markEfficiencyChecked_result (s : State) : (markEfficiencyChecked s).result = s.result := rfl
@[simp] theorem markEfficiencyChecked_commands (s : State) :
    (markEfficiencyChecked s).commands = s.commands := rfl

/-! ### clearBlockCounters -/

@[simp] theorem clearBlockCounters_resume (s : State) : (clearBlockCounters s).resume = s.resume := rfl
@[simp] theorem clearBlockCounters_letter (s : State) : (clearBlockCounters s).letter = s.letter := rfl
@[simp] theorem clearBlockCounters_form (s : State) : (clearBlockCounters s).form = s.form := rfl
@[simp] theorem clearBlockCounters_chunkA (s : State) : (clearBlockCounters s).chunkA = s.chunkA := rfl
@[simp] theorem clearBlockCounters_chunkB (s : State) : (clearBlockCounters s).chunkB = s.chunkB := rfl
@[simp] theorem clearBlockCounters_pred (s : State) : (clearBlockCounters s).pred = s.pred := rfl
@[simp] theorem clearBlockCounters_lastHash (s : State) : (clearBlockCounters s).lastHash = s.lastHash := rfl
@[simp] theorem clearBlockCounters_sigAddr (s : State) : (clearBlockCounters s).sigAddr = s.sigAddr := rfl
@[simp] theorem clearBlockCounters_sigWord (s : State) : (clearBlockCounters s).sigWord = s.sigWord := rfl
@[simp] theorem clearBlockCounters_bitPos (s : State) : (clearBlockCounters s).bitPos = s.bitPos := rfl
@[simp] theorem clearBlockCounters_sigCount (s : State) : (clearBlockCounters s).sigCount = 0 := rfl
@[simp] theorem clearBlockCounters_effChecked (s : State) : (clearBlockCounters s).effChecked = false := rfl
@[simp] theorem clearBlockCounters_resetCycle (s : State) :
    (clearBlockCounters s).resetCycle = s.resetCycle := rfl
@[simp] theorem clearBlockCounters_inPtr (s : State) : (clearBlockCounters s).inPtr = s.inPtr := rfl
@[simp] theorem clearBlockCounters_outPtr (s : State) : (clearBlockCounters s).outPtr = s.outPtr := rfl
@[simp] theorem clearBlockCounters_input (s : State) : (clearBlockCounters s).input = s.input := rfl
@[simp] theorem clearBlockCounters_output (s : State) : (clearBlockCounters s).output = s.output := rfl
@[simp] theorem clearBlockCounters_cfg (s : State) : (clearBlockCounters s).cfg = s.cfg := rfl
@[simp] theorem clearBlockCounters_latch (s : State) : (clearBlockCounters s).latch = s.latch := rfl
@[simp] theorem clearBlockCounters_status (s : State) : (clearBlockCounters s).status = s.status := rfl
@[simp] theorem clearBlockCounters_result (s : State) : (clearBlockCounters s).result = s.result := rfl
@[simp] theorem clearBlockCounters_commands (s : State) : (clearBlockCounters s).commands = s.commands := rfl

/-! ### dictReset -/

@[simp] theorem dictReset_resume (s : State) : (dictReset s).resume = s.resume := rfl
@[simp] theorem dictReset_letter (s : State) : (dictReset s).letter = rankInit := rfl
@[simp] theorem dictReset_form (s : State) : (dictReset s).form = s.form := rfl
@[simp] theorem dictReset_chunkA (s : State) : (dictReset s).chunkA = [] := rfl
@[simp] theorem dictReset_chunkB (s : State) : (dictReset s).chunkB = [] := rfl
@[simp] theorem dictReset_pred (s : State) : (dictReset s).pred = [] := rfl
@[simp] theorem dictReset_lastHash (s : State) : (dictReset s).lastHash = 0 := rfl
@[simp] theorem dictReset_sigAddr (s : State) : (dictReset s).sigAddr = s.sigAddr := rfl
@[simp] theorem dictReset_sigWord (s : State) : (dictReset s).sigWord = s.sigWord := rfl
@[simp] theorem dictReset_bitPos (s : State) : (dictReset s).bitPos = s.bitPos := rfl
@[simp] theorem dictReset_sigCount (s : State) : (dictReset s).sigCount = s.sigCount := rfl
@[simp] theorem dictReset_effChecked (s : State) : (dictReset s).effChecked = s.effChecked := rfl
@[simp] theorem dictReset_resetCycle (s : State) : (dictReset s).resetCycle = s.resetCycle := rfl
@[simp] theorem dictReset_inPtr (s : State) : (dictReset s).inPtr = s.inPtr := rfl
@[simp] theorem dictReset_outPtr (s : State) : (dictReset s).outPtr = s.outPtr := rfl
@[simp] theorem dictReset_input (s : State) : (dictReset s).input = s.input := rfl
@[simp] theorem dictReset_output (s : State) : (dictReset s).output = s.output := rfl
@[simp] theorem dictReset_cfg (s : State) : (dictReset s).cfg = s.cfg := rfl
@[simp] theorem dictReset_latch (s : State) : (dictReset s).latch = s.latch := rfl
@[simp] theorem dictReset_status (s : State) : (dictReset s).status = s.status := rfl
@[simp] theorem dictReset_result (s : State) : (dictReset s).result = s.result := rfl
@[simp] theorem dictReset_commands (s : State) : (dictReset s).commands = s.commands := rfl

/-! ### recordForm -/

@[simp] theorem recordForm_resume (s : State) (f : Form) : (recordForm s f).resume = s.resume := rfl
@[simp] theorem recordForm_letter (s : State) (f : Form) : (recordForm s f).letter = s.letter := rfl
@[simp] theorem recordForm_form (s : State) (f : Form) :
    (recordForm s f).form = s.form.recordUse (formId f) := rfl
@[simp] theorem recordForm_chunkA (s : State) (f : Form) : (recordForm s f).chunkA = s.chunkA := rfl
@[simp] theorem recordForm_chunkB (s : State) (f : Form) : (recordForm s f).chunkB = s.chunkB := rfl
@[simp] theorem recordForm_pred (s : State) (f : Form) : (recordForm s f).pred = s.pred := rfl
@[simp] theorem recordForm_lastHash (s : State) (f : Form) : (recordForm s f).lastHash = s.lastHash := rfl
@[simp] theorem recordForm_sigAddr (s : State) (f : Form) : (recordForm s f).sigAddr = s.sigAddr := rfl
@[simp] theorem recordForm_sigWord (s : State) (f : Form) : (recordForm s f).sigWord = s.sigWord := rfl
@[simp] theorem recordForm_bitPos (s : State) (f : Form) : (recordForm s f).bitPos = s.bitPos := rfl
@[simp] theorem recordForm_sigCount (s : State) (f : Form) : (recordForm s f).sigCount = s.sigCount := rfl
@[simp] theorem recordForm_effChecked (s : State) (f : Form) :
    (recordForm s f).effChecked = s.effChecked := rfl
@[simp] theorem recordForm_resetCycle (s : State) (f : Form) :
    (recordForm s f).resetCycle = s.resetCycle := rfl
@[simp] theorem recordForm_inPtr (s : State) (f : Form) : (recordForm s f).inPtr = s.inPtr := rfl
@[simp] theorem recordForm_outPtr (s : State) (f : Form) : (recordForm s f).outPtr = s.outPtr := rfl
@[simp] theorem recordForm_input (s : State) (f : Form) : (recordForm s f).input = s.input := rfl
@[simp] theorem recordForm_output (s : State) (f : Form) : (recordForm s f).output = s.output := rfl
@[simp] theorem recordForm_cfg (s : State) (f : Form) : (recordForm s f).cfg = s.cfg := rfl
@[simp] theorem recordForm_latch (s : State) (f : Form) : (recordForm s f).latch = s.latch := rfl
@[simp] theorem recordForm_status (s : State) (f : Form) : (recordForm s f).status = s.status := rfl
@[simp] theorem recordForm_result (s : State) (f : Form) : (recordForm s f).result = s.result := rfl
@[simp] theorem recordForm_commands (s : State) (f : Form) : (recordForm s f).commands = s.commands := rfl

/-! ### recordLetter -/

@[simp] theorem recordLetter_resume (s : State) (b : Byte) : (recordLetter s b).resume = s.resume := rfl
@[simp] theorem recordLetter_letter (s : State) (b : Byte) :
    (recordLetter s b).letter = s.letter.recordUse b := rfl
@[simp] theorem recordLetter_form (s : State) (b : Byte) : (recordLetter s b).form = s.form := rfl
@[simp] theorem recordLetter_chunkA (s : State) (b : Byte) : (recordLetter s b).chunkA = s.chunkA := rfl
@[simp] theorem recordLetter_chunkB (s : State) (b : Byte) : (recordLetter s b).chunkB = s.chunkB := rfl
@[simp] theorem recordLetter_pred (s : State) (b : Byte) : (recordLetter s b).pred = s.pred := rfl
@[simp] theorem recordLetter_lastHash (s : State) (b : Byte) : (recordLetter s b).lastHash = s.lastHash := rfl
@[simp] theorem recordLetter_sigAddr (s : State) (b : Byte) : (recordLetter s b).sigAddr = s.sigAddr := rfl
@[simp] theorem recordLetter_sigWord (s : State) (b : Byte) : (recordLetter s b).sigWord = s.sigWord := rfl
@[simp] theorem recordLetter_bitPos (s : State) (b : Byte) : (recordLetter s b).bitPos = s.bitPos := rfl
@[simp] theorem recordLetter_sigCount (s : State) (b : Byte) : (recordLetter s b).sigCount = s.sigCount := rfl
@[simp] theorem recordLetter_effChecked (s : State) (b : Byte) :
    (recordLetter s b).effChecked = s.effChecked := rfl
@[simp] theorem recordLetter_resetCycle (s : State) (b : Byte) :
    (recordLetter s b).resetCycle = s.resetCycle := rfl
@[simp] theorem recordLetter_inPtr (s : State) (b : Byte) : (recordLetter s b).inPtr = s.inPtr := rfl
@[simp] theorem recordLetter_outPtr (s : State) (b : Byte) : (recordLetter s b).outPtr = s.outPtr := rfl
@[simp] theorem recordLetter_input (s : State) (b : Byte) : (recordLetter s b).input = s.input := rfl
@[simp] theorem recordLetter_output (s : State) (b : Byte) : (recordLetter s b).output = s.output := rfl
@[simp] theorem recordLetter_cfg (s : State) (b : Byte) : (recordLetter s b).cfg = s.cfg := rfl
@[simp] theorem recordLetter_latch (s : State) (b : Byte) : (recordLetter s b).latch = s.latch := rfl
@[simp] theorem recordLetter_status (s : State) (b : Byte) : (recordLetter s b).status = s.status := rfl
@[simp] theorem recordLetter_result (s : State) (b : Byte) : (recordLetter s b).result = s.result := rfl
@[simp] theorem recordLetter_commands (s : State) (b : Byte) : (recordLetter s b).commands = s.commands := rfl

/-! ### initState -/

@[simp] theorem initState_resume (s : State) : (initState s).resume = s.resume := rfl
@[simp] theorem initState_letter (s : State) : (initState s).letter = rankInit := rfl
@[simp] theorem initState_form (s : State) : (initState s).form = rankInit := rfl
@[simp] theorem initState_chunkA (s : State) : (initState s).chunkA = [] := rfl
@[simp] theorem initState_chunkB (s : State) : (initState s).chunkB = [] := rfl
@[simp] theorem initState_pred (s : State) : (initState s).pred = [] := rfl
@[simp] theorem initState_lastHash (s : State) : (initState s).lastHash = 0 := rfl
@[simp] theorem initState_sigAddr (s : State) : (initState s).sigAddr = 0 := rfl
@[simp] theorem initState_sigWord (s : State) : (initState s).sigWord = 0 := rfl
@[simp] theorem initState_bitPos (s : State) : (initState s).bitPos = 0 := rfl
@[simp] theorem initState_sigCount (s : State) : (initState s).sigCount = 0 := rfl
@[simp] theorem initState_effChecked (s : State) : (initState s).effChecked = false := rfl
@[simp] theorem initState_resetCycle (s : State) : (initState s).resetCycle = 0 := rfl
@[simp] theorem initState_inPtr (s : State) : (initState s).inPtr = 0 := rfl
@[simp] theorem initState_outPtr (s : State) : (initState s).outPtr = 0 := rfl
@[simp] theorem initState_input (s : State) : (initState s).input = s.input := rfl
@[simp] theorem initState_output (s : State) : (initState s).output = s.output := rfl
@[simp] theorem initState_cfg (s : State) : (initState s).cfg = s.cfg := rfl
@[simp] theorem initState_latch (s : State) : (initState s).latch = s.latch := rfl
@[simp] theorem initState_status (s : State) : (initState s).status = s.status := rfl
@[simp] theorem initState_result (s : State) : (initState s).result = s.result := rfl
@[simp] theorem initState_commands (s : State) : (initState s).commands = s.commands := rfl

/-! ### updateBucket -/

@[simp] theorem updateBucket_resume (f : Form) (c : Chunk) (h : Hash) (s : State) :
    (updateBucket f c h s).resume = s.resume := by cases f <;> rfl
@[simp] theorem updateBucket_letter (f : Form) (c : Chunk) (h : Hash) (s : State) :
    (updateBucket f c h s).letter = s.letter := by cases f <;> rfl
@[simp] theorem updateBucket_form (f : Form) (c : Chunk) (h : Hash) (s : State) :
    (updateBucket f c h s).form = s.form := by cases f <;> rfl
@[simp] theorem updateBucket_pred (f : Form) (c : Chunk) (h : Hash) (s : State) :
    (updateBucket f c h s).pred = s.pred := by cases f <;> rfl
@[simp] theorem updateBucket_lastHash (f : Form) (c : Chunk) (h : Hash) (s : State) :
    (updateBucket f c h s).lastHash = s.lastHash := by cases f <;> rfl
@[simp] theorem updateBucket_sigAddr (f : Form) (c : Chunk) (h : Hash) (s : State) :
    (updateBucket f c h s).sigAddr = s.sigAddr := by cases f <;> rfl
@[simp] theorem updateBucket_sigWord (f : Form) (c : Chunk) (h : Hash) (s : State) :
    (updateBucket f c h s).sigWord = s.sigWord := by cases f <;> rfl
@[simp] theorem updateBucket_bitPos (f : Form) (c : Chunk) (h : Hash) (s : State) :
    (updateBucket f c h s).bitPos = s.bitPos := by cases f <;> rfl
@[simp] theorem updateBucket_sigCount (f : Form) (c : Chunk) (h : Hash) (s : State) :
    (updateBucket f c h s).sigCount = s.sigCount := by cases f <;> rfl
@[simp] theorem updateBucket_effChecked (f : Form) (c : Chunk) (h : Hash) (s : State) :
    (updateBucket f c h s).effChecked = s.effChecked := by cases f <;> rfl
@[simp] theorem updateBucket_resetCycle (f : Form) (c : Chunk) (h : Hash) (s : State) :
    (updateBucket f c h s).resetCycle = s.resetCycle := by cases f <;> rfl
@[simp] theorem updateBucket_inPtr (f : Form) (c : Chunk) (h : Hash) (s : State) :
    (updateBucket f c h s).inPtr = s.inPtr := by cases f <;> rfl
@[simp] theorem updateBucket_outPtr (f : Form) (c : Chunk) (h : Hash) (s : State) :
    (updateBucket f c h s).outPtr = s.outPtr := by cases f <;> rfl
@[simp] theorem updateBucket_input (f : Form) (c : Chunk) (h : Hash) (s : State) :
    (updateBucket f c h s).input = s.input := by cases f <;> rfl
@[simp] theorem updateBucket_output (f : Form) (c : Chunk) (h : Hash) (s : State) :
    (updateBucket f c h s).output = s.output := by cases f <;> rfl
@[simp] theorem updateBucket_cfg (f : Form) (c : Chunk) (h : Hash) (s : State) :
    (updateBucket f c h s).cfg = s.cfg := by cases f <;> rfl
@[simp] theorem updateBucket_latch (f : Form) (c : Chunk) (h : Hash) (s : State) :
    (updateBucket f c h s).latch = s.latch := by cases f <;> rfl
@[simp] theorem updateBucket_status (f : Form) (c : Chunk) (h : Hash) (s : State) :
    (updateBucket f c h s).status = s.status := by cases f <;> rfl
@[simp] theorem updateBucket_result (f : Form) (c : Chunk) (h : Hash) (s : State) :
    (updateBucket f c h s).result = s.result := by cases f <;> rfl
@[simp] theorem updateBucket_commands (f : Form) (c : Chunk) (h : Hash) (s : State) :
    (updateBucket f c h s).commands = s.commands := by cases f <;> rfl

/-! ### updatePred -/

@[simp] theorem updatePred_resume (f : Form) (c : Chunk) (s : State) :
    (updatePred f c s).resume = s.resume := by cases f <;> rfl
@[simp] theorem updatePred_letter (f : Form) (c : Chunk) (s : State) :
    (updatePred f c s).letter = s.letter := by cases f <;> rfl
@[simp] theorem updatePred_form (f : Form) (c : Chunk) (s : State) :
    (updatePred f c s).form = s.form := by cases f <;> rfl
@[simp] theorem updatePred_chunkA (f : Form) (c : Chunk) (s : State) :
    (updatePred f c s).chunkA = s.chunkA := by cases f <;> rfl
@[simp] theorem updatePred_chunkB (f : Form) (c : Chunk) (s : State) :
    (updatePred f c s).chunkB = s.chunkB := by cases f <;> rfl
@[simp] theorem updatePred_lastHash (f : Form) (c : Chunk) (s : State) :
    (updatePred f c s).lastHash = s.lastHash := by cases f <;> rfl
@[simp] theorem updatePred_sigAddr (f : Form) (c : Chunk) (s : State) :
    (updatePred f c s).sigAddr = s.sigAddr := by cases f <;> rfl
@[simp] theorem updatePred_sigWord (f : Form) (c : Chunk) (s : State) :
    (updatePred f c s).sigWord = s.sigWord := by cases f <;> rfl
@[simp] theorem updatePred_bitPos (f : Form) (c : Chunk) (s : State) :
    (updatePred f c s).bitPos = s.bitPos := by cases f <;> rfl
@[simp] theorem updatePred_sigCount (f : Form) (c : Chunk) (s : State) :
    (updatePred f c s).sigCount = s.sigCount := by cases f <;> rfl
@[simp] theorem updatePred_effChecked (f : Form) (c : Chunk) (s : State) :
    (updatePred f c s).effChecked = s.effChecked := by cases f <;> rfl
@[simp] theorem updatePred_resetCycle (f : Form) (c : Chunk) (s : State) :
    (updatePred f c s).resetCycle = s.resetCycle := by cases f <;> rfl
@[simp] theorem updatePred_inPtr (f : Form) (c : Chunk) (s : State) :
    (updatePred f c s).inPtr = s.inPtr := by cases f <;> rfl
@[simp] theorem updatePred_outPtr (f : Form) (c : Chunk) (s : State) :
    (updatePred f c s).outPtr = s.outPtr := by cases f <;> rfl
@[simp] theorem updatePred_input (f : Form) (c : Chunk) (s : State) :
    (updatePred f c s).input = s.input := by cases f <;> rfl
@[simp] theorem updatePred_output (f : Form) (c : Chunk) (s : State) :
    (updatePred f c s).output = s.output := by cases f <;> rfl
@[simp] theorem updatePred_cfg (f : Form) (c : Chunk) (s : State) :
    (updatePred f c s).cfg = s.cfg := by cases f <;> rfl
@[simp] theorem updatePred_latch (f : Form) (c : Chunk) (s : State) :
    (updatePred f c s).latch = s.latch := by cases f <;> rfl
@[simp] theorem updatePred_status (f : Form) (c : Chunk) (s : State) :
    (updatePred f c s).status = s.status := by cases f <;> rfl
@[simp] theorem updatePred_result (f : Form) (c : Chunk) (s : State) :
    (updatePred f c s).result = s.result := by cases f <;> rfl
@[simp] theorem updatePred_commands (f : Form) (c : Chunk) (s : State) :
    (updatePred f c s).commands = s.commands := by cases f <;> rfl

/-! ### dictUpdate -/

@[simp] theorem dictUpdate_resume (f : Form) (c : Chunk) (h : Hash) (s : State) :
    (dictUpdate f c h s).resume = s.resume := by simp [dictUpdate]
@[simp] theorem dictUpdate_letter (f : Form) (c : Chunk) (h : Hash) (s : State) :
    (dictUpdate f c h s).letter = s.letter := by simp [dictUpdate]
@[simp] theorem dictUpdate_form (f : Form) (c : Chunk) (h : Hash) (s : State) :
    (dictUpdate f c h s).form = s.form := by simp [dictUpdate]
@[simp] theorem dictUpdate_lastHash (f : Form) (c : Chunk) (h : Hash) (s : State) :
    (dictUpdate f c h s).lastHash = s.lastHash := by simp [dictUpdate]
@[simp] theorem dictUpdate_sigAddr (f : Form) (c : Chunk) (h : Hash) (s : State) :
    (dictUpdate f c h s).sigAddr = s.sigAddr := by simp [dictUpdate]
@[simp] theorem dictUpdate_sigWord (f : Form) (c : Chunk) (h : Hash) (s : State) :
    (dictUpdate f c h s).sigWord = s.sigWord := by simp [dictUpdate]
@[simp] theorem dictUpdate_bitPos (f : Form) (c : Chunk) (h : Hash) (s : State) :
    (dictUpdate f c h s).bitPos = s.bitPos := by simp [dictUpdate]
@[simp] theorem dictUpdate_sigCount (f : Form) (c : Chunk) (h : Hash) (s : State) :
    (dictUpdate f c h s).sigCount = s.sigCount := by simp [dictUpdate]
@[simp] theorem dictUpdate_effChecked (f : Form) (c : Chunk) (h : Hash) (s : State) :
    (dictUpdate f c h s).effChecked = s.effChecked := by simp [dictUpdate]
@[simp] theorem dictUpdate_resetCycle (f : Form) (c : Chunk) (h : Hash) (s : State) :
    (dictUpdate f c h s).resetCycle = s.resetCycle := by simp [dictUpdate]
@[simp] theorem dictUpdate_inPtr (f : Form) (c : Chunk) (h : Hash) (s : State) :
    (dictUpdate f c h s).inPtr = s.inPtr := by simp [dictUpdate]
@[simp] theorem dictUpdate_outPtr (f : Form) (c : Chunk) (h : Hash) (s : State) :
    (dictUpdate f c h s).outPtr = s.outPtr := by simp [dictUpdate]
@[simp] theorem dictUpdate_input (f : Form) (c : Chunk) (h : Hash) (s : State) :
    (dictUpdate f c h s).input = s.input := by simp [dictUpdate]
@[simp] theorem dictUpdate_output (f : Form) (c : Chunk) (h : Hash) (s : State) :
    (dictUpdate f c h s).output = s.output := by simp [dictUpdate]
@[simp] theorem dictUpdate_cfg (f : Form) (c : Chunk) (h : Hash) (s : State) :
    (dictUpdate f c h s).cfg = s.cfg := by simp [dictUpdate]
@[simp] theorem dictUpdate_latch (f : Form) (c : Chunk) (h : Hash) (s : State) :
    (dictUpdate f c h s).latch = s.latch := by simp [dictUpdate]
@[simp] theorem dictUpdate_status (f : Form) (c : Chunk) (h : Hash) (s : State) :
    (dictUpdate f c h s).status = s.status := by simp [dictUpdate]
@[simp] theorem dictUpdate_result (f : Form) (c : Chunk) (h : Hash) (s : State) :
    (dictUpdate f c h s).result = s.result := by simp [dictUpdate]
@[simp] theorem dictUpdate_commands (f : Form) (c : Chunk) (h : Hash) (s : State) :
    (dictUpdate f c h s).commands = s.commands := by simp [dictUpdate]

/-! ### rankInitOf -/

@[simp] theorem rankInitOf_resume (t : RankTableId) (s : State) :
    (rankInitOf t s).resume = s.resume := by cases t <;> rfl
@[simp] theorem rankInitOf_chunkA (t : RankTableId) (s : State) :
    (rankInitOf t s).chunkA = s.chunkA := by cases t <;> rfl
@[simp] theorem rankInitOf_chunkB (t : RankTableId) (s : State) :
    (rankInitOf t s).chunkB = s.chunkB := by cases t <;> rfl
@[simp] theorem rankInitOf_pred (t : RankTableId) (s : State) :
    (rankInitOf t s).pred = s.pred := by cases t <;> rfl
@[simp] theorem rankInitOf_lastHash (t : RankTableId) (s : State) :
    (rankInitOf t s).lastHash = s.lastHash := by cases t <;> rfl
@[simp] theorem rankInitOf_sigAddr (t : RankTableId) (s : State) :
    (rankInitOf t s).sigAddr = s.sigAddr := by cases t <;> rfl
@[simp] theorem rankInitOf_sigWord (t : RankTableId) (s : State) :
    (rankInitOf t s).sigWord = s.sigWord := by cases t <;> rfl
@[simp] theorem rankInitOf_bitPos (t : RankTableId) (s : State) :
    (rankInitOf t s).bitPos = s.bitPos := by cases t <;> rfl
@[simp] theorem rankInitOf_sigCount (t : RankTableId) (s : State) :
    (rankInitOf t s).sigCount = s.sigCount := by cases t <;> rfl
@[simp] theorem rankInitOf_effChecked (t : RankTableId) (s : State) :
    (rankInitOf t s).effChecked = s.effChecked := by cases t <;> rfl
@[simp] theorem rankInitOf_resetCycle (t : RankTableId) (s : State) :
    (rankInitOf t s).resetCycle = s.resetCycle := by cases t <;> rfl
@[simp] theorem rankInitOf_inPtr (t : RankTableId) (s : State) :
    (rankInitOf t s).inPtr = s.inPtr := by cases t <;> rfl
@[simp] theorem rankInitOf_outPtr (t : RankTableId) (s : State) :
    (rankInitOf t s).outPtr = s.outPtr := by cases t <;> rfl
@[simp] theorem rankInitOf_input (t : RankTableId) (s : State) :
    (rankInitOf t s).input = s.input := by cases t <;> rfl
@[simp] theorem rankInitOf_output (t : RankTableId) (s : State) :
    (rankInitOf t s).output = s.output := by cases t <;> rfl
@[simp] theorem rankInitOf_cfg (t : RankTableId) (s : State) :
    (rankInitOf t s).cfg = s.cfg := by cases t <;> rfl
@[simp] theorem rankInitOf_latch (t : RankTableId) (s : State) :
    (rankInitOf t s).latch = s.latch := by cases t <;> rfl
@[simp] theorem rankInitOf_status (t : RankTableId) (s : State) :
    (rankInitOf t s).status = s.status := by cases t <;> rfl
@[simp] theorem rankInitOf_result (t : RankTableId) (s : State) :
    (rankInitOf t s).result = s.result := by cases t <;> rfl
@[simp] theorem rankInitOf_commands (t : RankTableId) (s : State) :
    (rankInitOf t s).commands = s.commands := by cases t <;> rfl
@[simp] theorem rankInitOf_form_form (s : State) : (rankInitOf .form s).form = rankInit := rfl
@[simp] theorem rankInitOf_form_letter (s : State) : (rankInitOf .form s).letter = s.letter := rfl
@[simp] theorem rankInitOf_letter_form (s : State) : (rankInitOf .letter s).form = s.form := rfl
@[simp] theorem rankInitOf_letter_letter (s : State) : (rankInitOf .letter s).letter = rankInit := rfl

/-! ### endBlock: what a block end leaves alone -/

@[simp] theorem endBlock_resume (s : State) : (endBlock s).resume = s.resume := by
  unfold endBlock; dsimp only; split_ifs <;> simp
@[simp] theorem endBlock_form (s : State) : (endBlock s).form = s.form := by
  unfold endBlock; dsimp only; split_ifs <;> simp
@[simp] theorem endBlock_sigAddr (s : State) : (endBlock s).sigAddr = s.sigAddr := by
  unfold endBlock; dsimp only; split_ifs <;> simp
@[simp] theorem endBlock_sigWord (s : State) : (endBlock s).sigWord = s.sigWord := by
  unfold endBlock; dsimp only; split_ifs <;> simp
@[simp] theorem endBlock_bitPos (s : State) : (endBlock s).bitPos = s.bitPos := by
  unfold endBlock; dsimp only; split_ifs <;> simp
@[simp] theorem endBlock_inPtr (s : State) : (endBlock s).inPtr = s.inPtr := by
  unfold endBlock; dsimp only; split_ifs <;> simp
@[simp] theorem endBlock_outPtr (s : State) : (endBlock s).outPtr = s.outPtr := by
  unfold endBlock; dsimp only; split_ifs <;> simp
@[simp] theorem endBlock_input (s : State) : (endBlock s).input = s.input := by
  unfold endBlock; dsimp only; split_ifs <;> simp
@[simp] theorem endBlock_output (s : State) : (endBlock s).output = s.output := by
  unfold endBlock; dsimp only; split_ifs <;> simp
@[simp] theorem endBlock_cfg (s : State) : (endBlock s).cfg = s.cfg := by
  unfold endBlock; dsimp only; split_ifs <;> simp
@[simp] theorem endBlock_latch (s : State) : (endBlock s).latch = s.latch := by
  unfold endBlock; dsimp only; split_ifs <;> simp
@[simp] theorem endBlock_status (s : State) : (endBlock s).status = s.status := by
  unfold endBlock; dsimp only; split_ifs <;> simp
@[simp] theorem endBlock_result (s : State) : (endBlock s).result = s.result := by
  unfold endBlock; dsimp only; split_ifs <;> simp
@[simp] theorem endBlock_commands (s : State) : (endBlock s).commands = s.commands := by
  unfold endBlock; dsimp only; split_ifs <;> simp
@[simp] theorem endBlock_sigCount (s : State) : (endBlock s).sigCount = 0 := by
  unfold endBlock; dsimp only; split_ifs <;> simp
@[simp] theorem endBlock_effChecked (s : State) : (endBlock s).effChecked = false := by
  unfold endBlock; dsimp only; split_ifs <;> simp

/-! ### causeWrites and raise: what returning a status leaves alone -/

@[simp] theorem causeWrites_form (c : Cause) (s : State) : (causeWrites c s).form = s.form := by
  cases c <;> simp [causeWrites]
@[simp] theorem causeWrites_sigAddr (c : Cause) (s : State) : (causeWrites c s).sigAddr = s.sigAddr := by
  cases c <;> simp [causeWrites]
@[simp] theorem causeWrites_sigWord (c : Cause) (s : State) : (causeWrites c s).sigWord = s.sigWord := by
  cases c <;> simp [causeWrites]
@[simp] theorem causeWrites_bitPos (c : Cause) (s : State) : (causeWrites c s).bitPos = s.bitPos := by
  cases c <;> simp [causeWrites]
@[simp] theorem causeWrites_inPtr (c : Cause) (s : State) : (causeWrites c s).inPtr = s.inPtr := by
  cases c <;> simp [causeWrites]
@[simp] theorem causeWrites_outPtr (c : Cause) (s : State) : (causeWrites c s).outPtr = s.outPtr := by
  cases c <;> simp [causeWrites]
@[simp] theorem causeWrites_input (c : Cause) (s : State) : (causeWrites c s).input = s.input := by
  cases c <;> simp [causeWrites]
@[simp] theorem causeWrites_output (c : Cause) (s : State) : (causeWrites c s).output = s.output := by
  cases c <;> simp [causeWrites]
@[simp] theorem causeWrites_cfg (c : Cause) (s : State) : (causeWrites c s).cfg = s.cfg := by
  cases c <;> simp [causeWrites]
@[simp] theorem causeWrites_latch (c : Cause) (s : State) : (causeWrites c s).latch = s.latch := by
  cases c <;> simp [causeWrites]
@[simp] theorem causeWrites_status (c : Cause) (s : State) : (causeWrites c s).status = s.status := by
  cases c <;> simp [causeWrites]
@[simp] theorem causeWrites_result (c : Cause) (s : State) : (causeWrites c s).result = s.result := by
  cases c <;> simp [causeWrites]
@[simp] theorem causeWrites_commands (c : Cause) (s : State) : (causeWrites c s).commands = s.commands := by
  cases c <;> simp [causeWrites]
@[simp] theorem raise_form (c : Cause) (s : State) : (raise c s).form = s.form := by simp [raise]
@[simp] theorem raise_sigAddr (c : Cause) (s : State) : (raise c s).sigAddr = s.sigAddr := by simp [raise]
@[simp] theorem raise_sigWord (c : Cause) (s : State) : (raise c s).sigWord = s.sigWord := by simp [raise]
@[simp] theorem raise_bitPos (c : Cause) (s : State) : (raise c s).bitPos = s.bitPos := by simp [raise]
@[simp] theorem raise_inPtr (c : Cause) (s : State) : (raise c s).inPtr = s.inPtr := by simp [raise]
@[simp] theorem raise_outPtr (c : Cause) (s : State) : (raise c s).outPtr = s.outPtr := by simp [raise]
@[simp] theorem raise_input (c : Cause) (s : State) : (raise c s).input = s.input := by simp [raise]
@[simp] theorem raise_output (c : Cause) (s : State) : (raise c s).output = s.output := by simp [raise]
@[simp] theorem raise_cfg (c : Cause) (s : State) : (raise c s).cfg = s.cfg := by simp [raise]
@[simp] theorem raise_result (c : Cause) (s : State) : (raise c s).result = s.result := by simp [raise]
@[simp] theorem raise_commands (c : Cause) (s : State) : (raise c s).commands = s.commands := by simp [raise]
@[simp] theorem raise_status (c : Cause) (s : State) : (raise c s).status = some c.status := rfl
@[simp] theorem raise_latch (c : Cause) (s : State) : (raise c s).latch = Latch.idle := rfl

end Sys2Proof.Machine
end

