-- ==== Sys2Proof/Laws/Ops.lean ====
section
/-! SUPPORT. One lemma per shared operation over the streams, the rank tables and the packer, saying once
everything the operation can do: exactly when it answers a state, and which. -/

namespace Sys2Proof.Machine

/-! ### Sequencing -/

@[simp] theorem ok_bind {α β : Type} (a : α) (f : α → Except Fault β) : (Except.ok a >>= f) = f a := rfl

@[simp] theorem error_bind {α β : Type} (e : Fault) (f : α → Except Fault β) :
    ((Except.error e : Except Fault α) >>= f) = .error e := rfl

theorem bind_eq_ok {α β : Type} {x : Except Fault α} {f : α → Except Fault β} {b : β} :
    (x >>= f) = .ok b ↔ ∃ a, x = .ok a ∧ f a = .ok b := by
  cases x with
  | error e => simp
  | ok a => simp

@[simp] theorem outcomeOf_eq_next {x : Except Fault State} {t : State} :
    outcomeOf x = .next t ↔ x = .ok t := by
  cases x <;> simp [outcomeOf]

@[simp] theorem outcomeOf_eq_fault {x : Except Fault State} {f : Fault} :
    outcomeOf x = .fault f ↔ x = .error f := by
  cases x <;> simp [outcomeOf]

/-! ### Streams and cursors -/

theorem memRead_eq_ok {s : State} {a n : Nat} {bs : List Byte} :
    memRead s a n = .ok bs ↔ a + n ≤ s.latch.inLimit.toNat ∧ readBytes s.input a n = some bs := by
  unfold memRead
  split
  · next h => simp; intro; omega
  · next h =>
    split
    · next bs' hb => simp [hb]; intro; omega
    · next hb => simp [hb]

theorem memWrite_eq_ok {s t : State} {a n v : Nat} :
    memWrite s a n v = .ok t ↔
      a + n ≤ s.latch.outLimit.toNat ∧ t = { s with output := writeBytes s.output a n v } := by
  unfold memWrite
  split
  · next h => simp; intro; omega
  · next h => simp only [Except.ok.injEq, eq_comm (a := t)]; constructor
              · intro e; exact ⟨by omega, e⟩
              · exact fun e => e.2

/-- A write to OUT keeps the stream's canonical form: it lies below `out_limit`, so below 2^64. -/
theorem memWrite_wf {s t : State} {a n v : Nat} (h : Memory.wf s.output) (hw : memWrite s a n v = .ok t) :
    Memory.wf t.output := by
  obtain ⟨h1, rfl⟩ := memWrite_eq_ok.mp hw
  have := s.latch.outLimit.isLt
  exact writeBytes_wf n h (by omega)

/-- Both streams are in canonical form right after reset. -/
theorem reset_streams_wf : Memory.wf State.reset.input ∧ Memory.wf State.reset.output := by decide

theorem advance_eq_ok {p q : Word64} {n : Nat} :
    advance p n = .ok q ↔ p.toNat + n < 2 ^ 64 ∧ q = BitVec.ofNat 64 (p.toNat + n) := by
  unfold advance
  split
  · next h => simp only [Except.ok.injEq, eq_comm (a := q)]; exact ⟨fun e => ⟨h, e⟩, fun e => e.2⟩
  · next h => exact ⟨fun e => by simp at e, fun e => absurd e.1 h⟩

theorem advance_toNat {p q : Word64} {n : Nat} (h : advance p n = .ok q) : q.toNat = p.toNat + n := by
  obtain ⟨hlt, rfl⟩ := advance_eq_ok.mp h
  rw [BitVec.toNat_ofNat, Nat.mod_eq_of_lt hlt]

/-! ### Rank tables -/

theorem rankOf_setRank (t : RankTable) (e r x : BitVec 8) :
    (t.setRank e r).rankOf x = if e = x then r else t.rankOf x := by
  simp [RankTable.setRank, RankTable.rankOf, getCell_setCell, BitVec.toNat_inj]

theorem atRank_setAtRank (t : RankTable) (r e x : BitVec 8) :
    (t.setAtRank r e).atRank x = if r = x then e else t.atRank x := by
  simp [RankTable.setAtRank, RankTable.atRank, getCell_setCell, BitVec.toNat_inj]

theorem usageOf_setUsage (t : RankTable) (e x : BitVec 8) (u : Counter) :
    (t.setUsage e u).usageOf x = if e = x then u else t.usageOf x := by
  simp [RankTable.setUsage, RankTable.usageOf, getCell_setCell, BitVec.toNat_inj]

@[simp] theorem atRank_setRank (t : RankTable) (e r x : BitVec 8) : (t.setRank e r).atRank x = t.atRank x := rfl
@[simp] theorem usageOf_setRank (t : RankTable) (e r x : BitVec 8) :
    (t.setRank e r).usageOf x = t.usageOf x := rfl
@[simp] theorem rankOf_setAtRank (t : RankTable) (r e x : BitVec 8) :
    (t.setAtRank r e).rankOf x = t.rankOf x := rfl
@[simp] theorem usageOf_setAtRank (t : RankTable) (r e x : BitVec 8) :
    (t.setAtRank r e).usageOf x = t.usageOf x := rfl
@[simp] theorem rankOf_setUsage (t : RankTable) (e x : BitVec 8) (u : Counter) :
    (t.setUsage e u).rankOf x = t.rankOf x := rfl
@[simp] theorem atRank_setUsage (t : RankTable) (e x : BitVec 8) (u : Counter) :
    (t.setUsage e u).atRank x = t.atRank x := rfl
@[simp] theorem rankOf_countUse (t : RankTable) (e x : BitVec 8) : (t.countUse e).rankOf x = t.rankOf x := rfl
@[simp] theorem atRank_countUse (t : RankTable) (e x : BitVec 8) : (t.countUse e).atRank x = t.atRank x := rfl

theorem usageOf_countUse (t : RankTable) (e x : BitVec 8) :
    (t.countUse e).usageOf x = if e = x then t.usageOf e + 1 else t.usageOf x := by
  simp [RankTable.countUse, usageOf_setUsage]

@[simp] theorem usageOf_swapUp (t : RankTable) (e o r x : BitVec 8) :
    (t.swapUp e o r).usageOf x = t.usageOf x := rfl

theorem rankOf_swapUp (t : RankTable) (e o r x : BitVec 8) :
    (t.swapUp e o r).rankOf x = if o = x then r else if e = x then r - 1 else t.rankOf x := by
  simp [RankTable.swapUp, rankOf_setRank]

theorem atRank_swapUp (t : RankTable) (e o r x : BitVec 8) :
    (t.swapUp e o r).atRank x = if r = x then o else if r - 1 = x then e else t.atRank x := by
  simp [RankTable.swapUp, atRank_setAtRank]

@[simp] theorem usageOf_rankInit (e : BitVec 8) : rankInit.usageOf e = 0 := rfl
@[simp] theorem rankOf_rankInit (e : BitVec 8) : rankInit.rankOf e = e := by
  simp [rankInit, RankTable.fresh, RankTable.rankOf, identityCell]
@[simp] theorem atRank_rankInit (r : BitVec 8) : rankInit.atRank r = r := by
  simp [rankInit, RankTable.fresh, RankTable.atRank, identityCell]

/-- The usages after RECORD_USE, whether or not it swapped. -/
theorem usageOf_recordUse (t : RankTable) (e x : BitVec 8) :
    (t.recordUse e).usageOf x = if e = x then t.usageOf e + 1 else t.usageOf x := by
  unfold RankTable.recordUse
  dsimp only
  split <;> simp [usageOf_countUse]

/-- Everything RECORD_USE can do to the ranks: swap with the element one rank above, or nothing. -/
theorem recordUse_cases (t : RankTable) (e : BitVec 8) :
    (t.rankOf e ≠ 0 ∧ (t.countUse e).usageOf (t.atRank (t.rankOf e - 1)) < (t.countUse e).usageOf e ∧
      t.recordUse e = (t.countUse e).swapUp e (t.atRank (t.rankOf e - 1)) (t.rankOf e)) ∨
    (¬(t.rankOf e ≠ 0 ∧ (t.countUse e).usageOf (t.atRank (t.rankOf e - 1)) < (t.countUse e).usageOf e) ∧
      t.recordUse e = t.countUse e) := by
  unfold RankTable.recordUse
  dsimp only
  split
  · next h => exact .inl ⟨h.1, h.2, rfl⟩
  · next h => exact .inr ⟨h, rfl⟩

/-! ### The packer -/

/-- START_SIG answers exactly when there is room for the word. -/
theorem startSig_eq_ok {s t : State} :
    startSig s = .ok t ↔ s.outPtr.toNat + 8 ≤ s.latch.outLimit.toNat ∧
      t = { s with
        output := writeBytes s.output s.outPtr.toNat 8 0
        sigAddr := s.outPtr, sigWord := 0, outPtr := BitVec.ofNat 64 (s.outPtr.toNat + 8)
        bitPos := 0, sigCount := s.sigCount + 1 } := by
  unfold startSig
  simp only [bind_eq_ok, memWrite_eq_ok, advance_eq_ok]
  have := s.latch.outLimit.isLt
  constructor
  · rintro ⟨a, ⟨h, rfl⟩, p, ⟨h2, rfl⟩, h3⟩
    exact ⟨h, by simpa using h3.symm⟩
  · rintro ⟨h, rfl⟩
    exact ⟨_, ⟨h, rfl⟩, _, ⟨by omega, rfl⟩, rfl⟩

/-- The OR and the write-through answer exactly when the current word lies below the limit. -/
theorem orIntoWord_eq_ok {c : Word64} {s t : State} :
    orIntoWord c s = .ok t ↔ s.sigAddr.toNat + 8 ≤ s.latch.outLimit.toNat ∧
      t = { s with
        output := writeBytes s.output s.sigAddr.toNat 8 (s.sigWord ||| (c <<< s.bitPos.toNat)).toNat
        sigWord := s.sigWord ||| (c <<< s.bitPos.toNat) } := by
  unfold orIntoWord
  simp only [bind_eq_ok, memWrite_eq_ok]
  constructor
  · rintro ⟨a, ⟨h, rfl⟩, h3⟩
    exact ⟨h, by simpa using h3.symm⟩
  · rintro ⟨h, rfl⟩
    exact ⟨_, ⟨h, rfl⟩, rfl⟩

theorem pushRest_eq_ok {c : Word64} {n : Nat} {s t : State} :
    pushRest c n s = .ok t ↔ n ≤ 64 ∧ c.toNat < 2 ^ n ∧ s.sigAddr.toNat + 8 ≤ s.latch.outLimit.toNat ∧
      t = { s with
        output := writeBytes s.output s.sigAddr.toNat 8 (s.sigWord ||| (c <<< s.bitPos.toNat)).toNat
        sigWord := s.sigWord ||| (c <<< s.bitPos.toNat)
        bitPos := BitVec.ofNat 7 n } := by
  unfold pushRest
  split
  · next h =>
    simp only [bind_eq_ok, orIntoWord_eq_ok]
    constructor
    · rintro ⟨a, ⟨h1, rfl⟩, h2⟩
      exact ⟨h.1, h.2, h1, by simpa using h2.symm⟩
    · rintro ⟨-, -, h1, rfl⟩
      exact ⟨_, ⟨h1, rfl⟩, rfl⟩
  · next h => simp; intro h1 h2; exact absurd ⟨h1, h2⟩ h

/-- The state after a PUSH that fits in the current word. -/
def pushedFit (c : Word64) (bits : BitVec 8) (s : State) : State :=
  { s with
    output := writeBytes s.output s.sigAddr.toNat 8 (s.sigWord ||| (c <<< s.bitPos.toNat)).toNat
    sigWord := s.sigWord ||| (c <<< s.bitPos.toNat)
    bitPos := BitVec.ofNat 7 (s.bitPos.toNat + bits.toNat) }

/-- The state after a PUSH that overflows into a new word. -/
def pushedSplit (c : Word64) (bits : BitVec 8) (s : State) : State :=
  { s with
    output := writeBytes
      (writeBytes
        (writeBytes s.output s.sigAddr.toNat 8 (s.sigWord ||| (c <<< s.bitPos.toNat)).toNat)
        s.outPtr.toNat 8 0)
      s.outPtr.toNat 8 (c >>> (64 - s.bitPos.toNat)).toNat
    sigAddr := s.outPtr
    sigWord := c >>> (64 - s.bitPos.toNat)
    outPtr := BitVec.ofNat 64 (s.outPtr.toNat + 8)
    bitPos := BitVec.ofNat 7 (s.bitPos.toNat + bits.toNat - 64)
    sigCount := s.sigCount + 1 }

/-- Everything PUSH can do when it answers a state. -/
theorem push_eq_ok {c : Word64} {bits : BitVec 8} {s t : State} :
    push c bits s = .ok t ↔ pushOperandsLegal c bits = true ∧
      s.sigAddr.toNat + 8 ≤ s.latch.outLimit.toNat ∧
      ((s.bitPos.toNat + bits.toNat ≤ 64 ∧ t = pushedFit c bits s) ∨
       (64 < s.bitPos.toNat + bits.toNat ∧ s.outPtr.toNat + 8 ≤ s.latch.outLimit.toNat ∧
        s.bitPos.toNat + bits.toNat - 64 ≤ 64 ∧
        (c >>> (64 - s.bitPos.toNat)).toNat < 2 ^ (s.bitPos.toNat + bits.toNat - 64) ∧
        t = pushedSplit c bits s)) := by
  unfold push
  split
  · next hl =>
    simp only [bind_eq_ok, orIntoWord_eq_ok, hl, true_and]
    constructor
    · rintro ⟨a, ⟨h1, rfl⟩, h2⟩
      refine ⟨h1, ?_⟩
      split at h2
      · next hn =>
        simp only [bind_eq_ok, startSig_eq_ok, pushRest_eq_ok] at h2
        obtain ⟨u, ⟨h3, rfl⟩, h4, h5, h6, rfl⟩ := h2
        refine .inr ⟨hn, h3, h4, h5, ?_⟩
        simp [pushedSplit]
      · next hn =>
        simp only [Except.ok.injEq] at h2
        exact .inl ⟨by omega, by simp [pushedFit, ← h2]⟩
    · rintro ⟨h1, ⟨h2, rfl⟩ | ⟨h2, h3, h4, h5, rfl⟩⟩
      · refine ⟨_, ⟨h1, rfl⟩, ?_⟩
        rw [if_neg (by omega)]
        rfl
      · refine ⟨_, ⟨h1, rfl⟩, ?_⟩
        rw [if_pos h2]
        simp only [bind_eq_ok, startSig_eq_ok, pushRest_eq_ok]
        refine ⟨_, ⟨h3, rfl⟩, h4, h5, h3, ?_⟩
        simp [pushedSplit]
  · next hl => simp [hl]

theorem emitHash16_eq_ok {h : Hash} {s t : State} :
    emitHash16 h s = .ok t ↔ s.outPtr.toNat + 2 ≤ s.latch.outLimit.toNat ∧
      t = { s with
        output := writeBytes s.output s.outPtr.toNat 2 h.toNat
        outPtr := BitVec.ofNat 64 (s.outPtr.toNat + 2) } := by
  unfold emitHash16
  simp only [bind_eq_ok, memWrite_eq_ok, advance_eq_ok]
  have := s.latch.outLimit.isLt
  constructor
  · rintro ⟨a, ⟨h, rfl⟩, p, ⟨h2, rfl⟩, h3⟩
    exact ⟨h, by simpa using h3.symm⟩
  · rintro ⟨h, rfl⟩
    exact ⟨_, ⟨h, rfl⟩, _, ⟨by omega, rfl⟩, rfl⟩

theorem tailByte_eq_ok {b : Byte} {s t : State} :
    tailByte b s = .ok t ↔ s.outPtr.toNat + 1 ≤ s.latch.outLimit.toNat ∧ s.inPtr.toNat + 1 < 2 ^ 64 ∧
      t = { s with
        output := writeBytes s.output s.outPtr.toNat 1 b.toNat
        outPtr := BitVec.ofNat 64 (s.outPtr.toNat + 1)
        inPtr := BitVec.ofNat 64 (s.inPtr.toNat + 1) } := by
  unfold tailByte
  simp only [bind_eq_ok, memWrite_eq_ok, advance_eq_ok]
  have := s.latch.outLimit.isLt
  constructor
  · rintro ⟨a, ⟨h, rfl⟩, p, ⟨h2, rfl⟩, q, ⟨h3, rfl⟩, h4⟩
    exact ⟨h, h3, by simpa using h4.symm⟩
  · rintro ⟨h, h2, rfl⟩
    exact ⟨_, ⟨h, rfl⟩, _, ⟨by omega, rfl⟩, _, ⟨h2, rfl⟩, rfl⟩

theorem placeWord_eq_ok {w : Word64} {s t : State} :
    placeWord w s = .ok t ↔ s.outPtr.toNat + 8 ≤ s.latch.outLimit.toNat ∧
      t = { s with
        output := writeBytes (writeBytes s.output s.outPtr.toNat 8 0) s.outPtr.toNat 8 w.toNat
        sigAddr := s.outPtr, sigWord := w, outPtr := BitVec.ofNat 64 (s.outPtr.toNat + 8)
        bitPos := 64, sigCount := s.sigCount + 1 } := by
  unfold placeWord
  simp only [bind_eq_ok, startSig_eq_ok, pushRest_eq_ok]
  constructor
  · rintro ⟨a, ⟨h, rfl⟩, -, -, -, rfl⟩
    exact ⟨h, by simp⟩
  · rintro ⟨h, rfl⟩
    exact ⟨_, ⟨h, rfl⟩, by omega, w.isLt, h, by simp⟩

theorem emitLiteral_eq_ok {c : Chunk} {s t : State} :
    emitLiteral c s = .ok t ↔ ∃ t0 t1 t2, emitLetter (chunkByte c 0) s = .ok t0 ∧
      emitLetter (chunkByte c 1) t0 = .ok t1 ∧ emitLetter (chunkByte c 2) t1 = .ok t2 ∧
      emitLetter (chunkByte c 3) t2 = .ok t := by
  unfold emitLiteral
  simp only [bind_eq_ok]
  constructor
  · rintro ⟨a, h0, b, h1, d, h2, h3⟩; exact ⟨a, b, d, h0, h1, h2, h3⟩
  · rintro ⟨a, b, d, h0, h1, h2, h3⟩; exact ⟨a, h0, b, h1, d, h2, h3⟩

theorem tailBytes_succ_eq_ok {n : Nat} {s t : State} :
    tailBytes (n + 1) s = .ok t ↔ ∃ bs u, memRead s s.inPtr.toNat 1 = .ok bs ∧
      tailByte (bs.headD 0) s = .ok u ∧ tailBytes n u = .ok t := by
  simp only [tailBytes, bind_eq_ok]
  constructor
  · rintro ⟨a, h0, b, h1, h2⟩; exact ⟨a, b, h0, h1, h2⟩
  · rintro ⟨a, b, h0, h1, h2⟩; exact ⟨a, h0, b, h1, h2⟩

end Sys2Proof.Machine
end

