-- ==== Sys2Proof/Laws/Driver.lean ====
section
/-! SUPPORT. What the chunk operations and the driver can do, one lemma each; the induction over a command's
transfers of control, packaged once; and the frames of the emission and chunk operations. -/

namespace Sys2Proof.Machine

/-! ### Chunks and units -/

theorem processChunk_eq_ok {c : Chunk} {s t : State} :
    processChunk c s = .ok t ↔ ∃ u v, emitSelector (classify s c (hashOf s.cfg c)) s = .ok u ∧
      emitPayload (classify s c (hashOf s.cfg c)) c (hashOf s.cfg c) u = .ok v ∧
      t = setLastHash (dictUpdate (classify s c (hashOf s.cfg c)) c (hashOf s.cfg c) v) (hashOf s.cfg c) := by
  simp only [processChunk, bind_eq_ok, Except.ok.injEq]
  constructor
  · rintro ⟨u, h1, v, h2, h3⟩; exact ⟨u, v, h1, h2, h3.symm⟩
  · rintro ⟨u, v, h1, h2, h3⟩; exact ⟨u, h1, v, h2, h3.symm⟩

theorem processChunks_succ_eq_ok {n a : Nat} {s t : State} :
    processChunks (n + 1) a s = .ok t ↔ ∃ b u, memRead s a 4 = .ok b ∧
      processChunk (le32 (b.getD 0 0) (b.getD 1 0) (b.getD 2 0) (b.getD 3 0)) s = .ok u ∧
      processChunks n (a + 4) u = .ok t := by
  simp only [processChunks, bind_eq_ok]
  constructor
  · rintro ⟨b, h1, u, h2, h3⟩; exact ⟨b, u, h1, h2, h3⟩
  · rintro ⟨b, u, h1, h2, h3⟩; exact ⟨b, h1, u, h2, h3⟩

theorem processUnit_eq_ok {s t : State} :
    processUnit s = .ok t ↔ ∃ u, processChunks 8 s.inPtr.toNat s = .ok u ∧ u.inPtr.toNat + 32 < 2 ^ 64 ∧
      t = { u with inPtr := BitVec.ofNat 64 (u.inPtr.toNat + 32) } := by
  simp only [processUnit, bind_eq_ok, advance_eq_ok, Except.ok.injEq]
  constructor
  · rintro ⟨u, h1, p, ⟨h2, rfl⟩, h3⟩; exact ⟨u, h1, h2, h3.symm⟩
  · rintro ⟨u, h1, h2, h3⟩; exact ⟨u, h1, _, ⟨h2, rfl⟩, h3.symm⟩

theorem tailChunk_eq_ok {s t : State} :
    tailChunk s = .ok t ↔ ∃ b, memRead s s.inPtr.toNat 4 = .ok b ∧ s.inPtr.toNat + 4 < 2 ^ 64 ∧
      processChunk (le32 (b.getD 0 0) (b.getD 1 0) (b.getD 2 0) (b.getD 3 0))
        { s with inPtr := BitVec.ofNat 64 (s.inPtr.toNat + 4) } = .ok t := by
  simp only [tailChunk, bind_eq_ok, advance_eq_ok]
  constructor
  · rintro ⟨b, h1, p, ⟨h2, rfl⟩, h3⟩; exact ⟨b, h1, h2, h3⟩
  · rintro ⟨b, h1, h2, h3⟩; exact ⟨b, h1, _, ⟨h2, rfl⟩, h3⟩

theorem tailChunks_succ_eq_ok {n : Nat} {s t : State} :
    tailChunks (n + 1) s = .ok t ↔
      ((wordFull s = true ∨ inAvail s < 4) ∧ t = s) ∨
      (wordFull s = false ∧ 4 ≤ inAvail s ∧ ∃ u, tailChunk s = .ok u ∧ tailChunks n u = .ok t) := by
  have e : tailChunks (n + 1) s = if wordFull s then .ok s else if inAvail s < 4 then .ok s
      else tailChunk s >>= tailChunks n := rfl
  rw [e]
  cases hw : wordFull s with
  | true => simp [eq_comm]
  | false =>
    by_cases h2 : inAvail s < 4
    · simp [h2, eq_comm, Nat.not_le.mpr h2]
    · simp [h2, bind_eq_ok, Nat.not_lt.mp h2]

/-! ### The handlers: where each can send control -/

/-- PREPARE_NEW_BLOCK returns one of three statuses or starts a word and goes on to READ_CHUNK. -/
theorem prepareNewBlock_cases {s : State} {r : Transfer} (h : prepareNewBlock s = .ok r) :
    (outputShort s = true ∧ r = .returned (raise .stallOnOutputPrepare s)) ∨
    (outputShort s = false ∧ efficiencyCheckDue s = true ∧ r = .returned (raise .efficiencyCheck s)) ∨
    (outputShort s = false ∧ efficiencyCheckDue s = false ∧ blockEndDue s = true ∧
      r = .returned (raise .newBlock s)) ∨
    (outputShort s = false ∧ efficiencyCheckDue s = false ∧ blockEndDue s = false ∧
      ∃ t, startSig s = .ok t ∧ r = .goto .readChunk t) := by
  unfold prepareNewBlock at h
  split at h
  · next h1 => exact .inl ⟨h1, by simpa using h.symm⟩
  · next h1 =>
    split at h
    · next h2 => exact .inr (.inl ⟨by simpa using h1, h2, by simpa using h.symm⟩)
    · next h2 =>
      split at h
      · next h3 => exact .inr (.inr (.inl ⟨by simpa using h1, by simpa using h2, h3, by simpa using h.symm⟩))
      · next h3 =>
        obtain ⟨t, ht, hr⟩ := bind_eq_ok.mp h
        exact .inr (.inr (.inr
          ⟨by simpa using h1, by simpa using h2, by simpa using h3, t, ht, by simpa using hr.symm⟩))

/-- READ_CHUNK processes a unit, or stalls in a STEP, or goes on to FLUSH_TAIL in a FLUSH. -/
theorem readChunk_cases {s : State} {r : Transfer} (h : readChunk s = .ok r) :
    (32 ≤ inAvail s ∧ ∃ t, processUnit s = .ok t ∧ r = .goto .checkSignatureState t) ∨
    (inAvail s < 32 ∧ s.latch.mode = .step ∧ r = .returned (raise .stallOnInput s)) ∨
    (inAvail s < 32 ∧ s.latch.mode = .flush ∧ r = .goto .flushTail s) := by
  unfold readChunk at h
  split at h
  · next h1 =>
    obtain ⟨t, ht, hr⟩ := bind_eq_ok.mp h
    exact .inl ⟨h1, t, ht, by simpa using hr.symm⟩
  · next h1 =>
    split at h
    · next h2 => exact .inr (.inl ⟨by omega, h2, by simpa using h.symm⟩)
    · next h2 => exact .inr (.inr ⟨by omega, h2, by simpa using h.symm⟩)

/-- CHECK_SIGNATURE_STATE goes to PREPARE_NEW_BLOCK, stalls, or goes to READ_CHUNK; it never fails. -/
theorem checkSignatureState_cases (s : State) :
    (wordFull s = true ∧ checkSignatureState s = .ok (.goto .prepareNewBlock s)) ∨
    (wordFull s = false ∧ outputShort s = true ∧
      checkSignatureState s = .ok (.returned (raise .stallOnOutputCheck s))) ∨
    (wordFull s = false ∧ outputShort s = false ∧ checkSignatureState s = .ok (.goto .readChunk s)) := by
  unfold checkSignatureState
  cases wordFull s <;> cases outputShort s <;> simp

/-- FLUSH_TAIL's completion: END, tail bytes, `Ready`. -/
theorem finishStream_eq_ok {s t : State} :
    finishStream s = .ok t ↔ ∃ u v, emitEnd s = .ok u ∧ emitTail u = .ok v ∧ t = raise .flushReady v := by
  simp only [finishStream, bind_eq_ok, Except.ok.injEq]
  constructor
  · rintro ⟨u, h1, v, h2, h3⟩; exact ⟨u, v, h1, h2, h3.symm⟩
  · rintro ⟨u, v, h1, h2, h3⟩; exact ⟨u, h1, v, h2, h3.symm⟩

/-- FLUSH_TAIL runs its loop, then goes to PREPARE_NEW_BLOCK or completes. -/
theorem flushTail_cases {s : State} {r : Transfer} (h : flushTail s = .ok r) :
    ∃ t, tailChunks (inAvail s / 4) s = .ok t ∧
      ((4 ≤ inAvail t ∧ r = .goto .prepareNewBlock t) ∨
       (inAvail t < 4 ∧ ∃ u, finishStream t = .ok u ∧ r = .returned u)) := by
  obtain ⟨t, ht, hr⟩ := bind_eq_ok.mp h
  refine ⟨t, ht, ?_⟩
  split at hr
  · next h1 => exact .inl ⟨h1, by simpa using hr.symm⟩
  · next h1 =>
    obtain ⟨u, hu, hr⟩ := bind_eq_ok.mp hr
    exact .inr ⟨by omega, u, hu, by simpa using hr.symm⟩

/-! ### The driver's loop -/

theorem runDriver_succ_eq_ok {n : Nat} {p : Place} {s t : State} :
    runDriver (n + 1) p s = .ok t ↔ handler p s = .ok (.returned t) ∨
      ∃ q u, handler p s = .ok (.goto q u) ∧ runDriver n q u = .ok t := by
  rw [runDriver]
  split
  · next h => simp [h]
  · next h => simp [h]
  · next h => simp [h]

/-- An answer of the driver does not depend on how many more transfers it may make. -/
theorem runDriver_mono {n m : Nat} (hnm : n ≤ m) : ∀ {p : Place} {s t : State},
    runDriver n p s = .ok t → runDriver m p s = .ok t := by
  induction n generalizing m with
  | zero => intro p s t h; simp [runDriver] at h
  | succ n ih =>
    intro p s t h
    obtain ⟨m, rfl⟩ : ∃ k, m = k + 1 := ⟨m - 1, by omega⟩
    rcases runDriver_succ_eq_ok.mp h with h | ⟨q, u, h1, h2⟩
    · exact runDriver_succ_eq_ok.mpr (.inl h)
    · exact runDriver_succ_eq_ok.mpr (.inr ⟨q, u, h1, ih (by omega) h2⟩)

/-- A fault of the driver other than `noProgress` does not depend on it either. -/
theorem runDriver_mono_fault {n m : Nat} (hnm : n ≤ m) {f : Fault} (hf : f ≠ .noProgress) :
    ∀ {p : Place} {s : State}, runDriver n p s = .error f → runDriver m p s = .error f := by
  induction n generalizing m with
  | zero => intro p s h; simp only [runDriver, Except.error.injEq] at h; exact absurd h.symm hf
  | succ n ih =>
    intro p s h
    obtain ⟨m, rfl⟩ : ∃ k, m = k + 1 := ⟨m - 1, by omega⟩
    rw [runDriver] at h
    rw [runDriver]
    cases hh : handler p s with
    | error e => rw [hh] at h; exact h
    | ok r =>
      rw [hh] at h
      cases r with
      | returned u => cases h
      | goto q u => exact ih (by omega) h

/-- The induction over a command's transfers: a property that every handler hands on to the place it sends
control to, and that gives the conclusion where a handler returns, gives it of the driver's answer. -/
theorem runDriver_induction {P : Place → State → Prop} {Q : State → Prop}
    (hgoto : ∀ p s q t, P p s → handler p s = .ok (.goto q t) → P q t)
    (hret : ∀ p s t, P p s → handler p s = .ok (.returned t) → Q t) :
    ∀ (n : Nat) {p : Place} {s t : State}, P p s → runDriver n p s = .ok t → Q t := by
  intro n
  induction n with
  | zero => intro p s t _ h; simp [runDriver] at h
  | succ n ih =>
    intro p s t hp h
    rcases runDriver_succ_eq_ok.mp h with h | ⟨q, u, h1, h2⟩
    · exact hret p s t hp h
    · exact ih (hgoto p s q u hp h1) h2

/-! ### Properties kept by every primitive operation are kept by every command -/

/-- A property of states that each primitive operation of the block keeps. -/
structure KeptByPrimitives (P : State → Prop) : Prop where
  push : ∀ {c b s t}, P s → push c b s = .ok t → P t
  startSig : ∀ {s t}, P s → startSig s = .ok t → P t
  emitHash16 : ∀ {h s t}, P s → emitHash16 h s = .ok t → P t
  tailByte : ∀ {b s t}, P s → tailByte b s = .ok t → P t
  recordForm : ∀ {s f}, P s → P (recordForm s f)
  recordLetter : ∀ {s b}, P s → P (recordLetter s b)
  dictUpdate : ∀ {f c h s}, P s → P (dictUpdate f c h s)
  setLastHash : ∀ {s h}, P s → P (setLastHash s h)
  consume : ∀ {s p}, P s → P { s with inPtr := p }
  raise : ∀ {c s}, P s → P (raise c s)

namespace KeptByPrimitives

variable {P : State → Prop} (k : KeptByPrimitives P)
include k

theorem emitSelector {f : Form} {s t : State} (hs : P s) (h : emitSelector f s = .ok t) : P t :=
  k.push (k.recordForm hs) h

theorem emitLetter {b : Byte} {s t : State} (hs : P s) (h : emitLetter b s = .ok t) : P t :=
  k.push (k.recordLetter hs) h

theorem emitLiteral {c : Chunk} {s t : State} (hs : P s) (h : emitLiteral c s = .ok t) : P t := by
  obtain ⟨t0, t1, t2, h0, h1, h2, h3⟩ := emitLiteral_eq_ok.mp h
  exact k.emitLetter (k.emitLetter (k.emitLetter (k.emitLetter hs h0) h1) h2) h3

theorem emitPayload {f : Form} {c : Chunk} {h : Hash} {s t : State} (hs : P s)
    (hok : emitPayload f c h s = .ok t) : P t := by
  cases f with
  | literal => exact k.emitLiteral hs hok
  | dictB => exact k.emitHash16 hs hok
  | dictA => cases hok; exact hs
  | predicted => cases hok; exact hs

theorem processChunk {c : Chunk} {s t : State} (hs : P s) (h : processChunk c s = .ok t) : P t := by
  obtain ⟨u, v, h1, h2, rfl⟩ := processChunk_eq_ok.mp h
  exact k.setLastHash (k.dictUpdate (k.emitPayload (k.emitSelector hs h1) h2))

theorem processChunks (n : Nat) : ∀ {a : Nat} {s t : State}, P s → processChunks n a s = .ok t → P t := by
  induction n with
  | zero => intro a s t hs h; cases h; exact hs
  | succ n ih =>
    intro a s t hs h
    obtain ⟨b, u, -, h1, h2⟩ := processChunks_succ_eq_ok.mp h
    exact ih (k.processChunk hs h1) h2

theorem processUnit {s t : State} (hs : P s) (h : processUnit s = .ok t) : P t := by
  obtain ⟨u, h1, -, rfl⟩ := processUnit_eq_ok.mp h
  exact k.consume (k.processChunks 8 hs h1)

theorem tailChunks (n : Nat) : ∀ {s t : State}, P s → tailChunks n s = .ok t → P t := by
  induction n with
  | zero => intro s t hs h; cases h; exact hs
  | succ n ih =>
    intro s t hs h
    rcases tailChunks_succ_eq_ok.mp h with ⟨-, rfl⟩ | ⟨-, -, u, h1, h2⟩
    · exact hs
    · obtain ⟨b, -, -, h3⟩ := tailChunk_eq_ok.mp h1
      exact ih (k.processChunk (k.consume hs) h3) h2

theorem tailBytes (n : Nat) : ∀ {s t : State}, P s → tailBytes n s = .ok t → P t := by
  induction n with
  | zero => intro s t hs h; cases h; exact hs
  | succ n ih =>
    intro s t hs h
    obtain ⟨bs, u, -, h1, h2⟩ := tailBytes_succ_eq_ok.mp h
    exact ih (k.tailByte hs h1) h2

theorem finishStream {s t : State} (hs : P s) (h : finishStream s = .ok t) : P t := by
  obtain ⟨u, v, h1, h2, rfl⟩ := finishStream_eq_ok.mp h
  exact k.raise (k.tailBytes _ (k.push (c := s.cfg.endCode.content) (b := s.cfg.endCode.bits) hs h1) h2)

theorem handler_goto {p q : Place} {s t : State} (hs : P s) (h : handler p s = .ok (.goto q t)) : P t := by
  cases p with
  | prepareNewBlock =>
    rcases prepareNewBlock_cases h with ⟨-, h⟩ | ⟨-, -, h⟩ | ⟨-, -, -, h⟩ | ⟨-, -, -, u, hu, h⟩ <;> cases h
    exact k.startSig hs hu
  | readChunk =>
    rcases readChunk_cases h with ⟨-, u, hu, h⟩ | ⟨-, -, h⟩ | ⟨-, -, h⟩ <;> cases h
    · exact k.processUnit hs hu
    · exact hs
  | checkSignatureState =>
    rcases checkSignatureState_cases s with ⟨-, e⟩ | ⟨-, -, e⟩ | ⟨-, -, e⟩ <;>
      rw [handler, e] at h <;> cases h <;> exact hs
  | flushTail =>
    obtain ⟨u, hu, ⟨-, h⟩ | ⟨-, v, hv, h⟩⟩ := flushTail_cases h <;> cases h
    exact k.tailChunks _ hs hu

theorem handler_returned {p : Place} {s t : State} (hs : P s) (h : handler p s = .ok (.returned t)) :
    P t := by
  cases p with
  | prepareNewBlock =>
    rcases prepareNewBlock_cases h with ⟨-, h⟩ | ⟨-, -, h⟩ | ⟨-, -, -, h⟩ | ⟨-, -, -, u, hu, h⟩ <;> cases h <;>
      exact k.raise hs
  | readChunk =>
    rcases readChunk_cases h with ⟨-, u, hu, h⟩ | ⟨-, -, h⟩ | ⟨-, -, h⟩ <;> cases h
    exact k.raise hs
  | checkSignatureState =>
    rcases checkSignatureState_cases s with ⟨-, e⟩ | ⟨-, -, e⟩ | ⟨-, -, e⟩ <;>
      rw [handler, e] at h <;> cases h
    exact k.raise hs
  | flushTail =>
    obtain ⟨u, hu, ⟨-, h⟩ | ⟨-, v, hv, h⟩⟩ := flushTail_cases h <;> cases h
    exact k.finishStream (k.tailChunks _ hs hu) hv

theorem drive {p : Place} {s t : State} (hs : P s) (h : drive p s = .ok t) : P t :=
  runDriver_induction (P := fun _ u => P u) (Q := P)
    (fun _ _ _ _ hs h => k.handler_goto hs h) (fun _ _ _ hs h => k.handler_returned hs h) _ hs h

theorem dispatch {s t : State} (hs : P s) (h : dispatch s = .ok t) : P t := by
  unfold Machine.dispatch at h
  split at h
  · cases h; exact k.raise hs
  · split at h
    · cases h
    · split at h
      · exact k.drive hs h
      · split at h
        · exact k.drive hs h
        · exact k.drive hs h

end KeptByPrimitives

/-! ### What a step can do -/

/-- Everything a step can do when it answers a state: nothing, with no command presented, or the command's
meaning. -/
theorem step_cases {s t : State} (h : step s = .next t) :
    (s.commands = [] ∧ t = s) ∨
    ∃ c cs, s.commands = c :: cs ∧ exec (decodeCommand c) { s with commands := cs } = .next t := by
  unfold step fetchCommand at h
  cases hc : s.commands with
  | nil => rw [hc] at h; exact .inl ⟨rfl, by simpa using h.symm⟩
  | cons c cs => rw [hc] at h; exact .inr ⟨c, cs, rfl, h⟩

/-- A command's meaning is INIT, a dispatch with its arguments latched, or `Error`. -/
theorem exec_command_cases {c : CommandWord} {s t : State} (h : exec (decodeCommand c) s = .next t) :
    (configAccepted s.cfg = true ∧ t = raise .initReady (initState s)) ∨
    (∃ m, dispatch (latchCommand s m c.inLimit c.outLimit) = .ok t) ∨ t = raise .error s := by
  unfold decodeCommand at h
  split at h
  · simp only [exec, execInit] at h
    split at h
    · next h1 => exact .inl ⟨h1, by simpa using h.symm⟩
    · cases h
  · exact .inr (.inl ⟨.step, outcomeOf_eq_next.mp h⟩)
  · exact .inr (.inl ⟨.flush, outcomeOf_eq_next.mp h⟩)
  · simp only [exec, execCmdReserved, Host.Outcome.next.injEq] at h
    exact .inr (.inr h.symm)

/-- A property that the primitives keep, and that INIT establishes and latching and taking a command keep,
is kept by every step. -/
theorem KeptByPrimitives.step {P : State → Prop} (k : KeptByPrimitives P)
    (hinit : ∀ s, P s → configAccepted s.cfg = true → P (initState s))
    (hlatch : ∀ s m il ol, P s → P (latchCommand s m il ol))
    (htake : ∀ s cs, P s → P { s with commands := cs })
    {s t : State} (hs : P s) (h : Machine.step s = .next t) : P t := by
  rcases step_cases h with ⟨-, rfl⟩ | ⟨c, cs, -, h⟩
  · exact hs
  · rcases exec_command_cases h with ⟨hc, rfl⟩ | ⟨m, h⟩ | rfl
    · exact k.raise (hinit _ (htake _ _ hs) hc)
    · exact k.dispatch (hlatch _ _ _ _ (htake _ _ hs)) h
    · exact k.raise (htake _ _ hs)

end Sys2Proof.Machine
end

