-- ==== Sys2Proof/Laws/PerInstr.lean ====
section
/-! SUPPORT. What holds of every instruction as syntax, one lemma per constructor. The family CodeWidth says
that the code word the encoder gives an instruction fits the number of bits it names, so that no bit of an
encoding lies outside its row. -/

open Sys2Proof Sys2Proof.Machine

/-- Where the codebook is accepted and the selector codes are ones PUSH takes, the value of an instruction's
code word is below 2 to its length. -/
def Sys2Proof.Laws.CodeWidth.Statement (i : Instr) : Prop :=
  ∀ (cfg : Config) (w : CodeWord), codebookAccepted cfg = true →
    (∀ c ∈ cfg.formCode ++ [cfg.endCode], codeLegal c = true) → encode cfg i = some w → w.val < 2 ^ w.len

/-- The command triple fills 130 bits (rule R95). -/
theorem Sys2Proof.Laws.commandWord_toNat_lt (c : CommandWord) : c.toNat < 2 ^ 130 := by
  have h1 := c.cmd.isLt
  have h2 := c.inLimit.isLt
  have h3 := c.outLimit.isLt
  unfold CommandWord.toNat
  omega

/-- A code that keeps rule R175's discipline fits its length. -/
theorem Sys2Proof.Laws.codeLegal_lt {c : Code} (h : codeLegal c = true) : c.content.toNat < 2 ^ c.bits.toNat := by
  simp only [codeLegal, pushOperandsLegal, Bool.and_eq_true, decide_eq_true_eq] at h
  exact h.2

/-- Every entry of an accepted codebook fits its length (rule R11). -/
theorem Sys2Proof.Laws.codebook_entry_lt {cfg : Config} {c : Code} (h : codebookAccepted cfg = true)
    (hc : c ∈ cfg.codebook) : c.content.toNat < 2 ^ c.bits.toNat := by
  simp only [codebookAccepted, Bool.and_eq_true, List.all_eq_true] at h
  exact Sys2Proof.Laws.codeLegal_lt (h.2 c hc)

/-- The form of the proof for a row whose one code word is known. -/
theorem Sys2Proof.Laws.CodeWidth.of_some {i : Instr} {v : Config → CodeWord} (h : ∀ cfg, encode cfg i = some (v cfg))
    (hv : ∀ cfg, (v cfg).val < 2 ^ (v cfg).len) : Sys2Proof.Laws.CodeWidth.Statement i := by
  intro cfg w _ _ hw
  rw [h cfg, Option.some.injEq] at hw
  exact hw ▸ hv cfg

/-- The form of the proof for a selector row, whose code word is an entry of `FORM_CODE`. -/
theorem Sys2Proof.Laws.CodeWidth.of_formCode {i : Instr} {r : Nat}
    (h : ∀ cfg, encode cfg i = (cfg.formCode[r]?).map (Code.word .sel)) :
    Sys2Proof.Laws.CodeWidth.Statement i := by
  intro cfg w _ hl hw
  rw [h cfg, Option.map_eq_some_iff] at hw
  obtain ⟨c, hc, rfl⟩ := hw
  exact Sys2Proof.Laws.codeLegal_lt (hl c (List.mem_append_left _ (List.mem_of_getElem? hc)))

/-- The form of the proof for an internal operation, which has no code word. -/
theorem Sys2Proof.Laws.CodeWidth.of_none {i : Instr} (h : ∀ cfg, encode cfg i = none) :
    Sys2Proof.Laws.CodeWidth.Statement i := by
  intro cfg w _ _ hw
  rw [h cfg] at hw
  cases hw

theorem Sys2Proof.Laws.CodeWidth.init : Sys2Proof.Laws.CodeWidth.Statement .init :=
  Sys2Proof.Laws.CodeWidth.of_some (fun _ => rfl) (fun _ => Sys2Proof.Laws.commandWord_toNat_lt _)

theorem Sys2Proof.Laws.CodeWidth.step (il ol : Word64) : Sys2Proof.Laws.CodeWidth.Statement (.step il ol) :=
  Sys2Proof.Laws.CodeWidth.of_some (fun _ => rfl) (fun _ => Sys2Proof.Laws.commandWord_toNat_lt _)

theorem Sys2Proof.Laws.CodeWidth.flush (il ol : Word64) : Sys2Proof.Laws.CodeWidth.Statement (.flush il ol) :=
  Sys2Proof.Laws.CodeWidth.of_some (fun _ => rfl) (fun _ => Sys2Proof.Laws.commandWord_toNat_lt _)

theorem Sys2Proof.Laws.CodeWidth.cmdReserved : Sys2Proof.Laws.CodeWidth.Statement .cmdReserved :=
  Sys2Proof.Laws.CodeWidth.of_some (fun _ => rfl) (fun _ => Sys2Proof.Laws.commandWord_toNat_lt _)

theorem Sys2Proof.Laws.CodeWidth.prepareNewBlock : Sys2Proof.Laws.CodeWidth.Statement .prepareNewBlock :=
  Sys2Proof.Laws.CodeWidth.of_some (fun _ => rfl) (fun _ => by decide)

theorem Sys2Proof.Laws.CodeWidth.readChunk : Sys2Proof.Laws.CodeWidth.Statement .readChunk :=
  Sys2Proof.Laws.CodeWidth.of_some (fun _ => rfl) (fun _ => by decide)

theorem Sys2Proof.Laws.CodeWidth.checkSignatureState : Sys2Proof.Laws.CodeWidth.Statement .checkSignatureState :=
  Sys2Proof.Laws.CodeWidth.of_some (fun _ => rfl) (fun _ => by decide)

theorem Sys2Proof.Laws.CodeWidth.resumeUnrecognized : Sys2Proof.Laws.CodeWidth.Statement .resumeUnrecognized :=
  Sys2Proof.Laws.CodeWidth.of_some (fun _ => rfl) (fun _ => by decide)

theorem Sys2Proof.Laws.CodeWidth.statusReady : Sys2Proof.Laws.CodeWidth.Statement .statusReady :=
  Sys2Proof.Laws.CodeWidth.of_some (fun _ => rfl) (fun _ => by decide)

theorem Sys2Proof.Laws.CodeWidth.statusStallOnInput : Sys2Proof.Laws.CodeWidth.Statement .statusStallOnInput :=
  Sys2Proof.Laws.CodeWidth.of_some (fun _ => rfl) (fun _ => by decide)

theorem Sys2Proof.Laws.CodeWidth.statusStallOnOutput : Sys2Proof.Laws.CodeWidth.Statement .statusStallOnOutput :=
  Sys2Proof.Laws.CodeWidth.of_some (fun _ => rfl) (fun _ => by decide)

theorem Sys2Proof.Laws.CodeWidth.statusInfoEfficiencyCheck : Sys2Proof.Laws.CodeWidth.Statement .statusInfoEfficiencyCheck :=
  Sys2Proof.Laws.CodeWidth.of_some (fun _ => rfl) (fun _ => by decide)

theorem Sys2Proof.Laws.CodeWidth.statusInfoNewBlock : Sys2Proof.Laws.CodeWidth.Statement .statusInfoNewBlock :=
  Sys2Proof.Laws.CodeWidth.of_some (fun _ => rfl) (fun _ => by decide)

theorem Sys2Proof.Laws.CodeWidth.statusError : Sys2Proof.Laws.CodeWidth.Statement .statusError :=
  Sys2Proof.Laws.CodeWidth.of_some (fun _ => rfl) (fun _ => by decide)

theorem Sys2Proof.Laws.CodeWidth.selRank0 : Sys2Proof.Laws.CodeWidth.Statement .selRank0 :=
  Sys2Proof.Laws.CodeWidth.of_formCode (fun _ => rfl)

theorem Sys2Proof.Laws.CodeWidth.selRank1 : Sys2Proof.Laws.CodeWidth.Statement .selRank1 :=
  Sys2Proof.Laws.CodeWidth.of_formCode (fun _ => rfl)

theorem Sys2Proof.Laws.CodeWidth.selRank2 : Sys2Proof.Laws.CodeWidth.Statement .selRank2 :=
  Sys2Proof.Laws.CodeWidth.of_formCode (fun _ => rfl)

theorem Sys2Proof.Laws.CodeWidth.selRank3 : Sys2Proof.Laws.CodeWidth.Statement .selRank3 :=
  Sys2Proof.Laws.CodeWidth.of_formCode (fun _ => rfl)

theorem Sys2Proof.Laws.CodeWidth.selEnd : Sys2Proof.Laws.CodeWidth.Statement .selEnd := by
  intro cfg w _ hl hw
  simp only [encode, Option.some.injEq] at hw
  exact hw ▸ Sys2Proof.Laws.codeLegal_lt (hl _ (by simp))

theorem Sys2Proof.Laws.CodeWidth.letter (r : BitVec 8) : Sys2Proof.Laws.CodeWidth.Statement (.letter r) := by
  intro cfg w h _ hw
  simp only [encode, Option.map_eq_some_iff] at hw
  obtain ⟨c, hc, rfl⟩ := hw
  exact Sys2Proof.Laws.codebook_entry_lt h (List.mem_of_getElem? hc)

theorem Sys2Proof.Laws.CodeWidth.hash16 (h : Hash) : Sys2Proof.Laws.CodeWidth.Statement (.hash16 h) :=
  Sys2Proof.Laws.CodeWidth.of_some (fun _ => rfl) (fun _ => h.isLt)

theorem Sys2Proof.Laws.CodeWidth.sigword (w : Word64) : Sys2Proof.Laws.CodeWidth.Statement (.sigword w) :=
  Sys2Proof.Laws.CodeWidth.of_some (fun _ => rfl) (fun _ => w.isLt)

theorem Sys2Proof.Laws.CodeWidth.tail (b : Byte) : Sys2Proof.Laws.CodeWidth.Statement (.tail b) :=
  Sys2Proof.Laws.CodeWidth.of_some (fun _ => rfl) (fun _ => b.isLt)

theorem Sys2Proof.Laws.CodeWidth.processUnit : Sys2Proof.Laws.CodeWidth.Statement .processUnit :=
  Sys2Proof.Laws.CodeWidth.of_none (fun _ => rfl)

theorem Sys2Proof.Laws.CodeWidth.flushTail : Sys2Proof.Laws.CodeWidth.Statement .flushTail :=
  Sys2Proof.Laws.CodeWidth.of_none (fun _ => rfl)

theorem Sys2Proof.Laws.CodeWidth.recordUseForm (f : Form) : Sys2Proof.Laws.CodeWidth.Statement (.recordUseForm f) :=
  Sys2Proof.Laws.CodeWidth.of_none (fun _ => rfl)

theorem Sys2Proof.Laws.CodeWidth.recordUseLetter (b : Byte) : Sys2Proof.Laws.CodeWidth.Statement (.recordUseLetter b) :=
  Sys2Proof.Laws.CodeWidth.of_none (fun _ => rfl)

theorem Sys2Proof.Laws.CodeWidth.rankInit (k : RankTableId) : Sys2Proof.Laws.CodeWidth.Statement (.rankInit k) :=
  Sys2Proof.Laws.CodeWidth.of_none (fun _ => rfl)

theorem Sys2Proof.Laws.CodeWidth.hash (c : Chunk) : Sys2Proof.Laws.CodeWidth.Statement (.hash c) :=
  Sys2Proof.Laws.CodeWidth.of_none (fun _ => rfl)

theorem Sys2Proof.Laws.CodeWidth.classify (c : Chunk) (h : Hash) : Sys2Proof.Laws.CodeWidth.Statement (.classify c h) :=
  Sys2Proof.Laws.CodeWidth.of_none (fun _ => rfl)

theorem Sys2Proof.Laws.CodeWidth.dictUpdate (f : Form) (c : Chunk) (h : Hash) : Sys2Proof.Laws.CodeWidth.Statement (.dictUpdate f c h) :=
  Sys2Proof.Laws.CodeWidth.of_none (fun _ => rfl)

theorem Sys2Proof.Laws.CodeWidth.processChunk (c : Chunk) : Sys2Proof.Laws.CodeWidth.Statement (.processChunk c) :=
  Sys2Proof.Laws.CodeWidth.of_none (fun _ => rfl)

theorem Sys2Proof.Laws.CodeWidth.dictReset : Sys2Proof.Laws.CodeWidth.Statement .dictReset :=
  Sys2Proof.Laws.CodeWidth.of_none (fun _ => rfl)

theorem Sys2Proof.Laws.CodeWidth.startSig : Sys2Proof.Laws.CodeWidth.Statement .startSig :=
  Sys2Proof.Laws.CodeWidth.of_none (fun _ => rfl)

theorem Sys2Proof.Laws.CodeWidth.push (content : Word64) (bits : BitVec 8) : Sys2Proof.Laws.CodeWidth.Statement (.push content bits) :=
  Sys2Proof.Laws.CodeWidth.of_none (fun _ => rfl)

theorem Sys2Proof.Laws.CodeWidth.emitSelector (f : Form) : Sys2Proof.Laws.CodeWidth.Statement (.emitSelector f) :=
  Sys2Proof.Laws.CodeWidth.of_none (fun _ => rfl)

theorem Sys2Proof.Laws.CodeWidth.emitHash16 (h : Hash) : Sys2Proof.Laws.CodeWidth.Statement (.emitHash16 h) :=
  Sys2Proof.Laws.CodeWidth.of_none (fun _ => rfl)

theorem Sys2Proof.Laws.CodeWidth.emitLetter (b : Byte) : Sys2Proof.Laws.CodeWidth.Statement (.emitLetter b) :=
  Sys2Proof.Laws.CodeWidth.of_none (fun _ => rfl)

theorem Sys2Proof.Laws.CodeWidth.emitLiteral (c : Chunk) : Sys2Proof.Laws.CodeWidth.Statement (.emitLiteral c) :=
  Sys2Proof.Laws.CodeWidth.of_none (fun _ => rfl)

theorem Sys2Proof.Laws.CodeWidth.emitEnd : Sys2Proof.Laws.CodeWidth.Statement .emitEnd :=
  Sys2Proof.Laws.CodeWidth.of_none (fun _ => rfl)

theorem Sys2Proof.Laws.CodeWidth.emitTail : Sys2Proof.Laws.CodeWidth.Statement .emitTail :=
  Sys2Proof.Laws.CodeWidth.of_none (fun _ => rfl)
end

