-- ==== Sys2Proof/Tests/Slice0.lean ====
section
/-! SUPPORT. Our own tests: ill-formed operands and configurations refused, code words written out from
`spec/30_encoding.md`, one step per test with the values of `spec/95_test_vectors.md` or of the example of
the operation's own rule, and, for every statement with premises, states that meet them (`witness_…`). -/

open Sys2Proof Sys2Proof.Machine
namespace Sys2Proof.Tests

set_option Elab.async false

/-! ### Helpers -/

/-- A stream holding these bytes from an offset. -/
def bytesAt (a : Nat) : List Nat → Memory
  | [] => []
  | b :: bs => (a, BitVec.ofNat 8 b) :: bytesAt (a + 1) bs

/-- The limit the trace syntax writes `inf` (rule R110). -/
def inf : Word64 := BitVec.ofNat 64 (2 ^ 64 - 1)

/-- A session right after INIT, with this input supplied. -/
def fresh (inp : List Nat) : State := { State.reset with resume := 0, input := bytesAt 0 inp }

/-- A word started at offset 0 and nothing in it, the arguments of a command latched. -/
def opened (m : Mode) (il ol : Nat) (inp : List Nat) : State :=
  { fresh inp with
    resume := 1, outPtr := 8, sigCount := 1, output := bytesAt 0 [0, 0, 0, 0, 0, 0, 0, 0]
    latch := ⟨m, BitVec.ofNat 64 il, BitVec.ofNat 64 ol⟩ }

/-- What a function sees of an outcome's next state. -/
def obs {α : Type} (f : State → α) : Host.Outcome State Fault Refusal → Option α
  | .next s => some (f s)
  | _ => none

/-- The bytes listed in OUT, by rising offset. -/
def outBytes (s : State) : List Nat := s.output.map fun c => c.2.toNat

/-- Some cells of a rank table: usages, ranks, and elements by rank. -/
def rankCells (t : RankTable) (xs : List Nat) : List Nat × List Nat × List Nat :=
  (xs.map fun x => (t.usageOf (BitVec.ofNat 8 x)).toNat, xs.map fun x => (t.rankOf (BitVec.ofNat 8 x)).toNat,
    xs.map fun x => (t.atRank (BitVec.ofNat 8 x)).toNat)

/-- The input of program P3. -/
def p3 : List Nat :=
  [0x0e, 0x0f, 1, 0, 0x0d, 0x0f, 2, 0, 0x0e, 0x0f, 1, 0, 0x0e, 0x0f, 1, 0, 0x0d, 0x0f, 2, 0] ++
  [0x11, 0x11, 0x22, 0x22, 0x0d, 0x0f, 2, 0, 0x0b, 0x0f, 4, 0, 0, 0, 0, 0, 0xaa, 0xbb]

theorem exists_next {p : State → Bool} {o : Host.Outcome State Fault Refusal} (h : obs p o = some true) :
    ∃ t, o = .next t ∧ p t = true := by
  cases o <;> simp_all [obs]

theorem answers {o : Host.Outcome State Fault Refusal} (h : obs (fun _ => true) o = some true) :
    ∃ t, o = .next t := let ⟨t, ht, _⟩ := exists_next h; ⟨t, ht⟩

theorem fresh_consistent (n : Nat) : RankTable.fresh.consistent n := by
  intro x hx
  have h1 : RankTable.fresh.rankOf x = x := rankOf_rankInit x
  have h2 : RankTable.fresh.atRank x = x := atRank_rankInit x
  simp [h1, h2, hx]

theorem fresh_tables (s : State) (h1 : s.letter = RankTable.fresh) (h2 : s.form = RankTable.fresh) :
    tablesConsistent s := by
  unfold tablesConsistent
  rw [h1, h2]
  exact ⟨fresh_consistent 256, fresh_consistent 4⟩

/-! ### WellFormed: each check refuses an ill-formed operand or configuration -/

theorem test_push_no_bits : (Instr.push 0 0).wellFormed = false := by decide
theorem test_push_too_many_bits : (Instr.push 0 65).wellFormed = false := by decide
theorem test_push_content_too_wide : (Instr.push 4 2).wellFormed = false := by decide
theorem test_push_widest : (Instr.push inf 64).wellFormed = true := by decide

theorem test_config_selectors : selectorCodesFixed Config.test := ⟨rfl, rfl⟩
theorem test_config_accepted : configAccepted Config.test = true := by decide +kernel
theorem test_codebook_short :
    codebookAccepted { Config.test with codebook := Config.test.codebook.tail } = false := by decide +kernel
theorem test_codebook_no_length : codeLegal ⟨0, 0⟩ = false := by decide
theorem test_codebook_code_too_wide : codeLegal ⟨32, 5⟩ = false := by decide
theorem test_thresholds : thresholdsAccepted { Config.test with effT := 0 } = false ∧
    thresholdsAccepted { Config.test with blkT := 0 } = false ∧
    thresholdsAccepted { Config.test with periodicResetEn := true, resetCycle := 0 } = false ∧
    thresholdsAccepted { Config.test with resetCycle := 0 } = true := by decide +kernel
theorem test_lookahead_bound : lookaheadAccepted { Config.test with minLookahead := 64 } = false ∧
    lookaheadAccepted Config.test = true := by decide +kernel
theorem test_bit_order : bitOrderAccepted { Config.test with bitOrder := .mostSignificantFirst } = false := by
  decide

/-! ### Decode: words written out from the tables of `spec/30_encoding.md` -/

/-- The decoder's answer on a word of one code space under the test configuration. -/
def dec (sp : Space) (len val : Nat) : Except DecodeError Instr := decode Config.test ⟨sp, len, val⟩

theorem test_decode_init : dec .cmd 130 0 = .ok .init := by decide +kernel
/-- `(cmd = 1, in_limit = 38, out_limit = 121)`, the example of rule R110. -/
theorem test_decode_step : dec .cmd 130 (1 + 38 * 2 ^ 2 + 121 * 2 ^ 66) = .ok (.step 38 121) := by decide +kernel
theorem test_decode_flush : dec .cmd 130 (2 + 5 * 2 ^ 2 + (2 ^ 64 - 1) * 2 ^ 66) = .ok (.flush 5 inf) := by
  decide +kernel
theorem test_decode_cmd_reserved : dec .cmd 130 0b11 = .ok .cmdReserved := by decide +kernel
theorem test_decode_resume : dec .resume 2 0b00 = .ok .prepareNewBlock ∧ dec .resume 2 0b01 = .ok .readChunk ∧
    dec .resume 2 0b10 = .ok .checkSignatureState ∧ dec .resume 2 0b11 = .ok .resumeUnrecognized := by
  decide +kernel
theorem test_decode_status : dec .status 3 0b000 = .ok .statusReady ∧
    dec .status 3 0b001 = .ok .statusStallOnInput ∧ dec .status 3 0b010 = .ok .statusStallOnOutput ∧
    dec .status 3 0b011 = .ok .statusInfoEfficiencyCheck ∧ dec .status 3 0b100 = .ok .statusInfoNewBlock ∧
    dec .status 3 0b101 = .ok .statusError := by decide +kernel
theorem test_decode_status_never : dec .status 3 0b110 = .error .neverProduced ∧
    dec .status 3 0b111 = .error .neverProduced := by decide +kernel
/-- The bit strings of rules R98 and R99, packing order left to right: `0`, `10`, `110`, `1110`, `1111`. -/
theorem test_decode_selectors : dec .sel 1 0b0 = .ok .selRank0 ∧ dec .sel 2 0b01 = .ok .selEnd ∧
    dec .sel 3 0b011 = .ok .selRank1 ∧ dec .sel 4 0b0111 = .ok .selRank2 ∧
    dec .sel 4 0b1111 = .ok .selRank3 := by decide +kernel
theorem test_decode_selector_cut : dec .sel 3 0b111 = .error .noSuchSelector ∧
    dec .sel 2 0b00 = .error .noSuchSelector := by decide +kernel
/-- `CB_TEST`: rank 15 is `(30, 5)`, rank 65 is `(131, 9)`. -/
theorem test_decode_letter : dec .letter 5 30 = .ok (.letter 15) ∧ dec .letter 9 131 = .ok (.letter 65) ∧
    dec .letter 5 31 = .error .noSuchLetter := by decide +kernel
/-- Low byte first: the bytes `02 06` are the hash 0x0602. -/
theorem test_decode_bytes : dec .bytes 16 (0x02 + 0x06 * 256) = .ok (.hash16 0x0602) ∧
    dec .bytes 64 (0x01 + 0x80 * 2 ^ 56) = .ok (.sigword 0x8000000000000001) ∧
    dec .bytes 8 0x45 = .ok (.tail 0x45) ∧ dec .bytes 24 0 = .error .wrongLength := by decide +kernel
theorem test_internal_has_no_code : dec .internal 0 0 = .error .noEncoding ∧
    encode Config.test .startSig = none := by decide +kernel
theorem test_command_port : decodeTableWord 8 1 = some (.step 0 0) ∧ decodeTableWord 8 3 = some .cmdReserved ∧
    decodeTableWord 0 0 = none := by decide +kernel

/-! ### One step each -/

/-- The command presented is the one the next step runs. -/
theorem test_withFetchWord : obs (fun s => (s.status, s.resume)) (step (State.reset.withFetchWord 8 0)) =
    some (some .ready, 0) := by decide +kernel

/-- Rule R41's INIT column, from a session in its middle. -/
theorem test_init : obs (fun s => ((s.resume, s.sigCount, s.outPtr), s.letter.usage, s.status))
    (exec .init { opened .step 38 200 p3 with lastHash := 7, bitPos := 9, letter := ⟨[(3, 1)], [], []⟩ }) =
    some ((0, 0, 0), [], some .ready) := by decide +kernel

/-- V43-7: `STEP 16, 64` stalls on output, `STEP 16, 65` starts a word and stalls on input. -/
theorem test_step_lookahead : obs (fun s => (s.status, s.resume, s.outPtr)) (exec (.step 16 64) (fresh p3)) =
    some (some .stallOnOutput, 0, 0) ∧
    obs (fun s => (s.status, s.resume, s.outPtr, s.sigCount)) (exec (.step 16 65) (fresh p3)) =
    some (some .stallOnInput, 1, 8, 1) := by decide +kernel

/-- Program P3: the unit of the STEP. -/
theorem test_step_p3 : obs (fun s => (s.status, s.inPtr, s.sigAddr, outBytes s)) (exec (.step 38 inf) (fresh p3)) =
    some (some .stallOnInput, 32, 12, [0xb8, 0x17, 0x82, 0xe7, 0x44, 0xdc, 0xcf, 0x88, 0x0f, 0x0f, 0x0f, 0x0f,
      0x10, 0x45, 0x86, 0x3c, 0xab, 0x11, 0, 0]) := by decide +kernel

/-- Program P2. -/
theorem test_flush_p2 : obs (fun s => (s.status, s.resume, s.inPtr, s.bitPos, outBytes s))
    (exec (.flush 5 inf) (fresh [0x41, 0x42, 0x43, 0x44, 0x45])) =
    some (some .ready, 3, 5, 39, [0x06, 0x15, 0x3a, 0x94, 0x28, 0, 0, 0, 0x45]) := by decide +kernel

/-- V43-6: before INIT. -/
theorem test_flush_before_init : obs (fun s => (s.status, s.resume)) (exec (.flush 0 inf) State.reset) =
    some (some .error, 3) := by decide +kernel

/-- V43-6: `cmd = 3` in an open session. -/
theorem test_cmd_reserved : obs (fun s => (s.status, s.resume, s.outPtr)) (exec .cmdReserved (opened .step 0 0 [])) =
    some (some .error, 1, 8) := by decide +kernel

/-- The example of rule R205: `EFF_T = 1`, `sig_count = 1`. -/
theorem test_prepareNewBlock_efficiency : obs (fun s => (s.status, s.effChecked, s.resume))
    (exec .prepareNewBlock { opened .step 0 200 [] with cfg := { Config.test with effT := 1, blkT := 2 } }) =
    some (some .infoEfficiencyCheck, true, 0) := by decide +kernel
/-- And the next entry, with the check made, starts a word. -/
theorem test_prepareNewBlock_goes_on : obs (fun s => (s.status, s.sigCount, s.sigAddr, s.outPtr))
    (exec .prepareNewBlock
      { opened .step 0 200 [] with cfg := { Config.test with effT := 1, blkT := 2 }, effChecked := true }) =
    some (some .stallOnInput, 2, 8, 16) := by decide +kernel

/-- The example of rule R211: six bytes available in a STEP. -/
theorem test_readChunk_stalls : obs (fun s => (s.status, s.resume, s.inPtr))
    (exec .readChunk { opened .step 38 121 p3 with inPtr := 32 }) = some (some .stallOnInput, 1, 32) := by
  decide +kernel
/-- The same in a FLUSH goes on to the tail: `aa bb` after the END code. -/
theorem test_readChunk_flush : obs (fun s => (s.status, s.resume, outBytes s))
    (exec .readChunk { opened .flush 38 121 p3 with inPtr := 36 }) =
    some (some .ready, 3, [1, 0, 0, 0, 0, 0, 0, 0, 0xaa, 0xbb]) := by decide +kernel

/-- Program P4: the unit done, `out_avail = 45 < 65`. -/
theorem test_checkSignatureState_stalls : obs (fun s => (s.status, s.resume))
    (exec .checkSignatureState { opened .step 33 65 p3 with inPtr := 32, outPtr := 20, bitPos := 51 }) =
    some (some .stallOnOutput, 2) := by decide +kernel
/-- Rule R215's corner: a full word with little room parks at PREPARE_NEW_BLOCK. -/
theorem test_checkSignatureState_full : obs (fun s => (s.status, s.resume))
    (exec .checkSignatureState { opened .step 33 65 p3 with inPtr := 32, outPtr := 20, bitPos := 64 }) =
    some (some .stallOnOutput, 0) := by decide +kernel

theorem test_resumeUnrecognized : obs (fun s => (s.status, s.resume)) (exec .resumeUnrecognized State.reset) =
    some (some .error, 3) := by decide +kernel
theorem test_statusReady : obs (fun s => (s.status, s.resume)) (exec .statusReady (opened .flush 0 0 [])) =
    some (some .ready, 3) := by decide +kernel
theorem test_statusStallOnInput : obs (fun s => (s.status, s.resume))
    (exec .statusStallOnInput (fresh [])) = some (some .stallOnInput, 1) := by decide +kernel
theorem test_statusStallOnOutput : obs (fun s => (s.status, s.resume))
    (exec .statusStallOnOutput { fresh [] with bitPos := 51 }) = some (some .stallOnOutput, 2) := by decide +kernel
theorem test_statusInfoEfficiencyCheck : obs (fun s => (s.status, s.resume, s.effChecked))
    (exec .statusInfoEfficiencyCheck (opened .step 0 0 [])) = some (some .infoEfficiencyCheck, 0, true) := by
  decide +kernel
/-- Rule R209: the block end that reaches `RESET_CYCLE` resets the Dictionary but not FORM. -/
theorem test_statusInfoNewBlock : obs (fun s => ((s.status, s.sigCount), (s.resetCycle, s.lastHash), s.form.usage))
    (exec .statusInfoNewBlock
      { opened .step 0 0 [] with
        cfg := { Config.test with periodicResetEn := true, resetCycle := 2 }, resetCycle := 1, lastHash := 9
        form := ⟨[(0, 5)], [], []⟩ }) =
    some ((some .infoNewBlock, 0), (0, 0), [(0, 5)]) := by decide +kernel
theorem test_statusError : obs (fun s => (s.status, s.resume)) (exec .statusError (fresh [])) =
    some (some .error, 0) := by decide +kernel

/-- V40-1: with PREDICTED at rank 3 the rank-3 code is emitted and it moves up. -/
theorem test_selRank3 : obs (fun s => (s.sigWord, s.bitPos, rankCells s.form [0, 1, 2, 3]))
    (exec .selRank3 (opened .step 0 200 [])) =
    some (15, 4, [0, 0, 0, 1], [0, 1, 3, 2], [0, 1, 3, 2]) := by decide +kernel
theorem test_selRank2 : obs (fun s => (s.sigWord, s.bitPos)) (exec .selRank2 (opened .step 0 200 [])) =
    some (7, 4) := by decide +kernel
theorem test_selRank1 : obs (fun s => (s.sigWord, s.bitPos)) (exec .selRank1 (opened .step 0 200 [])) =
    some (3, 3) := by decide +kernel
theorem test_selRank0 : obs (fun s => (s.sigWord, s.bitPos)) (exec .selRank0 (opened .step 0 200 [])) =
    some (0, 1) := by decide +kernel
theorem test_selEnd : obs (fun s => (s.sigWord, s.bitPos, s.form.usage)) (exec .selEnd (opened .step 0 200 [])) =
    some (1, 2, []) := by decide +kernel
/-- The example of rule R178, as its code: rank 65 is byte 0x41 in a fresh table. -/
theorem test_letter : obs (fun s => (s.sigWord, s.bitPos, s.letter.rankOf 0x41))
    (exec (.letter 65) { opened .step 0 200 [] with bitPos := 1 }) = some (0x106, 10, 64) := by decide +kernel
theorem test_hash16 : obs (fun s => (readByte s.output 8, readByte s.output 9, s.outPtr))
    (exec (.hash16 0x0602) (opened .step 0 200 [])) = some (some 0x02, some 0x06, 10) := by decide +kernel
theorem test_sigword : obs (fun s => (s.sigAddr, s.outPtr, s.sigCount, readByte s.output 8, readByte s.output 15))
    (exec (.sigword 0x8000000000000001) (opened .step 0 200 [])) =
    some (8, 16, 2, some 0x01, some 0x80) := by decide +kernel
theorem test_tail : obs (fun s => (readByte s.output 8, s.outPtr, s.inPtr))
    (exec (.tail 0xaa) (opened .step 0 200 [])) = some (some 0xaa, 9, 1) := by decide +kernel

/-- Program P3: the unit, then `s = 51`, `out_ptr = 20`. -/
theorem test_processUnit : obs (fun s => (s.sigWord, s.bitPos, s.outPtr, s.inPtr, s.sigCount))
    (exec .processUnit (opened .step 38 200 p3)) = some (0x000011AB3C864510, 51, 20, 32, 2) := by decide +kernel
/-- V43-5: one LITERAL chunk and the END code. -/
theorem test_flushTail : obs (fun s => (s.status, s.bitPos, outBytes s))
    (exec .flushTail (opened .flush 4 200 [0x41, 0x42, 0x43, 0x44])) =
    some (some .ready, 39, [0x06, 0x15, 0x3a, 0x94, 0x28, 0, 0, 0]) := by decide +kernel

/-- V40-2. -/
theorem test_recordUseForm : obs (fun s => (s.result, rankCells s.form [0, 1, 2, 3]))
    (exec (.recordUseForm .predicted) { fresh [] with form := ⟨[(3, 1)], [(2, 3), (3, 2)], [(2, 3), (3, 2)]⟩ }) =
    some (2, [0, 0, 0, 2], [0, 2, 3, 1], [0, 3, 1, 2]) := by decide +kernel
/-- V40-7: the counter wraps and there is no swap. -/
theorem test_recordUse_wraps : obs (fun s => (s.result, rankCells s.form [1, 2]))
    (exec (.recordUseForm .dictB) { fresh [] with form := ⟨[(1, 5), (2, 0xFFFFFFFF)], [], []⟩ }) =
    some (2, [5, 0], [1, 2], [1, 2]) := by decide +kernel
/-- V40-5, its first letter. -/
theorem test_recordUseLetter : obs (fun s => (s.result, rankCells s.letter [0x40, 0x41]))
    (exec (.recordUseLetter 0x41) (fresh [])) = some (65, [0, 1], [65, 64], [0x41, 0x40]) := by decide +kernel
/-- V40-8. -/
theorem test_rankInit : obs (fun s => rankCells s.form [0, 3])
    (exec (.rankInit .form) { fresh [] with form := ⟨[(3, 9)], [(0, 3), (3, 0)], [(0, 3), (3, 0)]⟩ }) =
    some ([0, 0], [0, 3], [0, 3]) := by decide +kernel
/-- V41-1. -/
theorem test_hash : obs State.result (exec (.hash 0x44434241) (fresh [])) = some 0x0602 ∧
    obs State.result (exec (.hash 0xFFFF0000) (fresh [])) = some 0xFFFF := by decide +kernel
/-- V41-2 and V41-4: the zero chunk is PREDICTED, and DICT_A once `pred[0]` is not 0. -/
theorem test_classify_zero : obs State.result (exec (.classify 0 0) (fresh [])) = some 3 ∧
    obs State.result (exec (.classify 0 0) { fresh [] with pred := [(0, 5)] }) = some 1 := by decide +kernel
theorem test_classify_literal : obs State.result (exec (.classify 0x44434241 0x0602) (fresh [])) = some 0 := by
  decide +kernel
/-- The example of rule R143: the slots swap, then the older one is lost. -/
theorem test_dictUpdate : obs (fun s => (chunkAAt s 0x0F0F, chunkBAt s 0x0F0F, predAt s 0x0F0F))
    (exec (.dictUpdate .dictB 0x00010F0E 0x0F0F)
      { fresh [] with lastHash := 0x0F0F, chunkA := [(0x0F0F, 0x00020F0D)], chunkB := [(0x0F0F, 0x00010F0E)] }) =
    some (0x00010F0E, 0x00020F0D, 0x00010F0E) := by decide +kernel
/-- The example of rule R144. -/
theorem test_processChunk : obs (fun s => (s.sigWord, chunkAAt s 0x0602, predAt s 0, s.lastHash, s.bitPos))
    (exec (.processChunk 0x44434241) (opened .step 0 200 [])) =
    some (0x8943A1506, 0x44434241, 0x44434241, 0x0602, 37) := by decide +kernel
/-- Chunk 3 of P3: DICT_B, its hash at `out_ptr`. -/
theorem test_processChunk_dictB : obs (fun s => (s.sigWord, s.outPtr, outBytes s))
    (exec (.processChunk 0x00010F0E)
      { opened .step 0 200 [] with
        lastHash := 0x0F0F, pred := [(0x0F0F, 2)], chunkA := [(0x0F0F, 2)], chunkB := [(0x0F0F, 0x00010F0E)] }) =
    some (7, 10, [7, 0, 0, 0, 0, 0, 0, 0, 0x0f, 0x0f]) := by decide +kernel
/-- V41-8. -/
theorem test_dictReset : obs (fun s => s.letter == RankTable.fresh && s.chunkA == [] && s.chunkB == [] &&
      s.pred == [] && s.lastHash == 0 && s.form == ⟨[(0, 1)], [], []⟩)
    (exec .dictReset
      { fresh [] with
        letter := ⟨[(1, 1)], [], []⟩, chunkA := [(1, 1)], chunkB := [(1, 1)], pred := [(1, 1)], lastHash := 1
        form := ⟨[(0, 1)], [], []⟩ }) = some true := by decide +kernel
/-- V42-1. -/
theorem test_startSig : obs (fun s => (s.sigAddr, s.sigWord, s.outPtr, s.bitPos, s.sigCount))
    (exec .startSig { opened .step 0 200 [] with outPtr := 12, bitPos := 64, sigWord := 5 }) =
    some (12, 0, 20, 0, 2) := by decide +kernel
/-- V42-3: exactly full, and no new word. -/
theorem test_push_exact : obs (fun s => (s.sigWord, s.bitPos, s.outPtr))
    (exec (.push 0x1FF 9) { opened .step 0 200 [] with bitPos := 55 }) =
    some (0xFF80000000000000, 64, 8) := by decide +kernel
/-- V42-4: the field is split. -/
theorem test_push_split : obs (fun s => (readByte s.output 7, s.sigWord, s.bitPos, s.sigAddr, s.outPtr, s.sigCount))
    (exec (.push 0x1AB 9) { opened .step 0 200 [] with bitPos := 60 }) =
    some (some 0xb0, 0x1A, 5, 8, 16, 2) := by decide +kernel
/-- V40-2, in the stream: PREDICTED at rank 2 is coded `(7, 4)`. -/
theorem test_emitSelector : obs (fun s => (s.sigWord, s.bitPos, s.form.rankOf 3))
    (exec (.emitSelector .predicted)
      { opened .step 0 200 [] with form := ⟨[(3, 1)], [(2, 3), (3, 2)], [(2, 3), (3, 2)]⟩ }) =
    some (7, 4, 1) := by decide +kernel
/-- V42-8. -/
theorem test_emitHash16 : obs (fun s => (readByte s.output 8, readByte s.output 9, s.outPtr))
    (exec (.emitHash16 0x1234) (opened .step 0 200 [])) = some (some 0x34, some 0x12, 10) := by decide +kernel
/-- V42-2, as the second letter of V42-9. -/
theorem test_emitLetter : obs (fun s => (s.sigWord, s.bitPos))
    (exec (.emitLetter 0x42) { opened .step 0 200 [] with sigWord := 0x106, bitPos := 10 }) =
    some (0x21506, 19) := by decide +kernel
/-- V42-9. -/
theorem test_emitLiteral : obs (fun s => (s.sigWord, s.bitPos))
    (exec (.emitLiteral 0x44434241) { opened .step 0 200 [] with bitPos := 1 }) =
    some (0x8943A1506, 37) := by decide +kernel
/-- Rule R180's corner: the marker splits at `s = 63`. -/
theorem test_emitEnd_split : obs (fun s => (readByte s.output 7, s.sigWord, s.bitPos, s.outPtr))
    (exec .emitEnd { opened .step 0 200 [] with bitPos := 63 }) = some (some 0x80, 0, 1, 16) := by decide +kernel
/-- The example of rule R181. -/
theorem test_emitTail : obs (fun s => (readByte s.output 20, readByte s.output 21, s.outPtr, s.inPtr))
    (exec .emitTail { opened .flush 38 200 p3 with inPtr := 36, outPtr := 20 }) =
    some (some 0xaa, some 0xbb, 22, 38) := by decide +kernel

/-! ### Witnesses: for every statement with premises, states that meet them together -/

theorem opened_packerSound (m : Mode) (il ol : Nat) (inp : List Nat) : packerSound (opened m il ol inp) := by
  have h : packerSound (opened .step 0 0 []) := by unfold packerSound holdsLE; decide +kernel
  exact h

theorem opened_tables (m : Mode) (il ol : Nat) (inp : List Nat) : tablesConsistent (opened m il ol inp) :=
  fresh_tables _ rfl rfl

/-- A session right after INIT is parked at PREPARE_NEW_BLOCK with no word. -/
theorem fresh_packerSound (inp : List Nat) : packerSound (fresh inp) := by
  have h : packerSound (fresh []) := by unfold packerSound holdsLE; decide +kernel
  exact h

theorem fresh_sessionSound (inp : List Nat) : sessionSound (fresh inp) :=
  ⟨test_config_accepted, test_config_selectors, fresh_tables _ rfl rfl, fresh_packerSound inp, by
    have h : parkedSound (fresh []) := by unfold parkedSound; decide +kernel
    exact h⟩

theorem opened_parkedSound (m : Mode) (il ol : Nat) (inp : List Nat) : parkedSound (opened m il ol inp) := by
  have h : parkedSound (opened .step 0 0 []) := by unfold parkedSound; decide +kernel
  exact h

theorem opened_sessionSound (m : Mode) (il ol : Nat) (inp : List Nat) : sessionSound (opened m il ol inp) :=
  ⟨test_config_accepted, test_config_selectors, opened_tables m il ol inp, opened_packerSound m il ol inp,
    opened_parkedSound m il ol inp⟩

theorem p3_supplied (limit : Nat) (h : limit ≤ 38) (s : State) (hs : s.input = bytesAt 0 p3) :
    inputSupplied s limit := by
  have k : ∀ a, a < 38 → (readByte (bytesAt 0 p3) a).isSome := by decide +kernel
  intro a _ ha
  rw [hs]
  exact k a (by omega)

theorem witness_DecodeOfEncode : codebookAccepted Config.test = true ∧
    codesSelfDelimiting Config.test.codebook ∧ selectorCodesFixed Config.test ∧
    encode Config.test (.letter 255) = some ⟨.letter, 9, 511⟩ ∧
    encode Config.test (.letter 0) = some ⟨.letter, 5, 0⟩ ∧ encode Config.test .selEnd = some ⟨.sel, 2, 1⟩ :=
  ⟨by decide +kernel, test_codebook_selfDelimiting, test_config_selectors, by decide +kernel, by decide +kernel, by decide +kernel⟩

theorem witness_OnlyInternalOperationsHaveNoCode : codebookAccepted Config.test = true ∧
    4 ≤ Config.test.formCode.length ∧
    decode Config.test ⟨.letter, 9, 511⟩ = .ok (.letter 255) := by decide +kernel

theorem witness_SelectorStreamReadsFromItsFirstBit : selectorCodesFixed Config.test := test_config_selectors

theorem witness_StepRunsTheDecodedCommand : State.reset.commands = [] ∧
    ({ State.reset with commands := [⟨0, 0, 0⟩] } : State).commands = ⟨0, 0, 0⟩ :: [] := ⟨rfl, rfl⟩

theorem witness_ErrorChangesNoState : State.reset.resume = 3 := rfl

theorem witness_InitGivesEveryRegisterItsValue : configAccepted State.reset.cfg = true := test_config_accepted

theorem witness_InitRefusesABadConfiguration :
    configAccepted { Config.test with minLookahead := 64 } = false := by decide +kernel

theorem witness_StepNeverWritesConfigurationOrInput :
    ∃ t, step (State.reset.withFetchWord 8 0) = .next t ∧ (t.status == some .ready) = true :=
  exists_next (by decide +kernel)

/-- One state for each handler, `in_limit` equal to `in_ptr`. -/
theorem witness_StepAndFlushEnterTheParkedHandler : ∀ r : BitVec 2, r ≠ 3 →
    ({ opened .step 0 0 [] with resume := r } : State).resume ≠ 3 ∧
    ({ opened .step 0 0 [] with resume := r } : State).inPtr.toNat ≤ (0 : Word64).toNat := by
  exact fun r h => ⟨h, Nat.zero_le _⟩

theorem witness_LoweredInLimitStops : (opened .step 0 0 []).resume ≠ 3 ∧
    (31 : Word64).toNat < ({ opened .step 0 0 [] with inPtr := 32 } : State).inPtr.toNat := by decide +kernel

/-- `out_avail` one below the lookahead, and exactly at it; `sig_count` at `EFF_T`, and past it at `BLK_T`. -/
theorem witness_PrepareNewBlockReturnsInTestOrder :
    outAvail (opened .step 0 72 []) + 1 = (opened .step 0 72 []).cfg.minLookahead.toNat ∧
    (opened .step 0 73 []).cfg.minLookahead.toNat = outAvail (opened .step 0 73 []) ∧
    ({ opened .step 0 73 [] with sigCount := 64 } : State).sigCount = Config.test.effT ∧
    (opened .step 0 73 []).effChecked = false ∧
    ¬(({ opened .step 0 73 [] with sigCount := 256 } : State).sigCount = Config.test.effT ∧
      (opened .step 0 73 []).effChecked = false) ∧
    ({ opened .step 0 73 [] with sigCount := 256 } : State).sigCount = Config.test.blkT := by decide +kernel

/-- No periodic reset; a block end before the last of a cycle; the last. -/
theorem witness_BlockEndCountsAndResets : Config.test.periodicResetEn = false ∧
    (0 : Counter) + 1 ≠ ({ Config.test with periodicResetEn := true, resetCycle := 2 } : Config).resetCycle ∧
    (1 : Counter) + 1 = ({ Config.test with periodicResetEn := true, resetCycle := 2 } : Config).resetCycle := by
  decide +kernel

/-- 31 bytes available, and none. -/
theorem witness_StepWithoutAUnitStallsOnInput : (opened .step 0 0 []).resume = 1 ∧
    (opened .step 0 0 []).inPtr.toNat ≤ (31 : Word64).toNat ∧
    (31 : Word64).toNat < (opened .step 0 0 []).inPtr.toNat + 32 ∧
    (opened .step 0 0 []).inPtr.toNat ≤ (0 : Word64).toNat := by decide +kernel

/-- PREPARE_NEW_BLOCK's way to a new word. -/
theorem witness_HandlersFollow_prepare :
    (opened .step 38 73 p3).cfg.minLookahead.toNat ≤ outAvail (opened .step 38 73 p3) ∧
    ¬((opened .step 38 73 p3).sigCount = Config.test.effT ∧ (opened .step 38 73 p3).effChecked = false) ∧
    (opened .step 38 73 p3).sigCount ≠ Config.test.blkT ∧
    ∃ t, exec .startSig (opened .step 38 73 p3) = .next t :=
  ⟨by decide +kernel, by decide +kernel, by decide +kernel, answers (by decide +kernel)⟩

/-- READ_CHUNK with exactly one unit; with one byte less, in a STEP and in a FLUSH. -/
theorem witness_HandlersFollow_readChunk : 32 ≤ inAvail (opened .step 32 200 p3) ∧
    (∃ t, exec .processUnit (opened .step 32 200 p3) = .next t) ∧
    inAvail (opened .step 31 200 p3) < 32 ∧ (opened .step 31 200 p3).latch.mode = .step ∧
    (opened .flush 31 200 p3).latch.mode = .flush :=
  ⟨by decide +kernel, answers (by decide +kernel), by decide +kernel, rfl, rfl⟩

/-- CHECK_SIGNATURE_STATE with the word full, with too little room, with just enough. -/
theorem witness_HandlersFollow_check : ({ opened .step 0 0 [] with bitPos := 64 } : State).bitPos = 64 ∧
    (opened .step 0 72 []).bitPos ≠ 64 ∧ outAvail (opened .step 0 72 []) < Config.test.minLookahead.toNat ∧
    Config.test.minLookahead.toNat ≤ outAvail (opened .step 0 73 []) := by decide +kernel

/-- FLUSH_TAIL with exactly one chunk left, with three bytes left. -/
theorem witness_HandlersFollow_flushTail :
    4 ≤ inAvail (opened .flush 4 200 p3) ∧ (opened .flush 4 200 p3).bitPos ≠ 64 ∧
    readBytes (opened .flush 4 200 p3).input 0 4 = some [0x0e, 0x0f, 1, 0] ∧
    (∃ t, exec (.processChunk (le32 0x0e 0x0f 1 0))
      { opened .flush 4 200 p3 with inPtr := (opened .flush 4 200 p3).inPtr + 4 } = .next t) ∧
    inAvail (opened .flush 3 200 p3) < 4 ∧
    (∃ t, exec .emitEnd (opened .flush 3 200 p3) = .next t ∧
      (obs (fun _ => true) (exec .emitTail t) == some true) = true) :=
  ⟨by decide +kernel, by decide +kernel, by decide +kernel, answers (by decide +kernel), by decide +kernel,
    exists_next (by decide +kernel)⟩

theorem witness_StatusesOfEachCommand : (∃ t, exec .init State.reset = .next t) ∧
    (∃ t, exec (.step 38 200) (opened .step 0 0 p3) = .next t) ∧
    (∃ t, exec (.flush 38 200) (opened .step 0 0 p3) = .next t ∧ (t.status == some .ready) = true) ∧
    State.reset.resume = 3 :=
  ⟨answers (by decide +kernel), answers (by decide +kernel), exists_next (by decide +kernel), rfl⟩

theorem witness_EfficiencyCheckFiresOncePerBlock :
    (∃ t, exec (.step 0 200)
      { opened .step 0 0 [] with resume := 0, bitPos := 64, cfg := { Config.test with effT := 1 } } = .next t ∧
      (t.status == some .infoEfficiencyCheck) = true) ∧
    ∃ t, exec (.flush 0 200) { opened .step 0 0 [] with effChecked := true } = .next t ∧
      (t.effChecked) = true := ⟨exists_next (by decide +kernel), exists_next (by decide +kernel)⟩

/-- Parked at each handler; READ_CHUNK with the least room the promise allows. -/
theorem witness_CommandsCompleteUnderTheHostsDuties : commandReady (fresh p3) 38 0 ∧
    commandReady (opened .step 0 0 p3) 38 65 ∧ commandReady (opened .step 0 0 p3) 0 65 ∧
    commandReady { opened .step 0 0 p3 with resume := 2, bitPos := 1 } 38 0 := by
  refine ⟨⟨fresh_sessionSound _, by decide, by decide, p3_supplied _ (by decide) _ rfl,
      fun h => absurd h (by decide)⟩,
    ⟨opened_sessionSound _ _ _ _, by decide, by decide, p3_supplied _ (by decide) _ rfl, ?_⟩,
    ⟨opened_sessionSound _ _ _ _, by decide, by decide, p3_supplied _ (by decide) _ rfl, ?_⟩,
    ⟨⟨test_config_accepted, test_config_selectors, fresh_tables _ rfl rfl, ?_, ?_⟩, by decide, by decide,
      p3_supplied _ (by decide) _ rfl, fun h => absurd h (by decide)⟩⟩
  · unfold roomPromised; decide +kernel
  · unfold roomPromised; decide +kernel
  · unfold packerSound holdsLE; decide +kernel
  · unfold parkedSound; decide +kernel

/-- Exactly one unit, and one byte less than two, with the least room. -/
theorem witness_StepProcessesTheUnitItHas : sessionSound (opened .step 0 0 p3) ∧ (opened .step 0 0 p3).resume = 1 ∧
    inputSupplied (opened .step 0 0 p3) 38 ∧ (opened .step 0 0 p3).inPtr.toNat + 32 ≤ (32 : Word64).toNat ∧
    (38 : Word64).toNat < (opened .step 0 0 p3).inPtr.toNat + 64 ∧
    (opened .step 0 0 p3).outPtr.toNat + 8 * unitWords (opened .step 0 0 p3).cfg + 16 +
      (opened .step 0 0 p3).cfg.minLookahead.toNat ≤ (129 : Word64).toNat :=
  ⟨opened_sessionSound _ _ _ _, rfl, p3_supplied _ (by decide) _ rfl, by decide +kernel, by decide +kernel,
    by decide +kernel⟩

/-- Each handler, READ_CHUNK and FLUSH_TAIL with the least room the promise allows. -/
theorem witness_HandlersRunTheCommandToAStatus : handlerReady .prepareNewBlock (opened .step 38 0 p3) ∧
    handlerReady .readChunk (opened .step 38 65 p3) ∧ handlerReady .checkSignatureState (opened .step 38 0 p3) ∧
    handlerReady .flushTail (opened .flush 31 65 p3) := by
  have h (m : Mode) (il ol : Nat) (hl : (opened m il ol p3).latch.inLimit.toNat ≤ 38) :
      configAccepted (opened m il ol p3).cfg = true ∧ selectorCodesFixed (opened m il ol p3).cfg ∧
      tablesConsistent (opened m il ol p3) ∧
      packerSound (opened m il ol p3) ∧ inputSupplied (opened m il ol p3) (opened m il ol p3).latch.inLimit.toNat :=
    ⟨test_config_accepted, test_config_selectors, opened_tables _ _ _ _, opened_packerSound _ _ _ _,
      p3_supplied _ hl _ rfl⟩
  unfold handlerReady roomPromised
  obtain ⟨a, b, c, d, e⟩ := h .step 38 0 (by decide)
  obtain ⟨a', b', c', d', e'⟩ := h .step 38 65 (by decide)
  obtain ⟨f, g, i, j, k⟩ := h .flush 31 65 (by decide)
  exact ⟨⟨a, b, c, d, e, trivial⟩, ⟨a', b', c', d', e', by decide +kernel⟩, ⟨a, b, c, d, e, by decide +kernel⟩,
    ⟨f, g, i, j, k, by decide +kernel⟩⟩

/-- A session in its middle meets all four invariants and steps on. -/
theorem witness_StepKeeps : storageCanonical (opened .step 0 0 p3) ∧ tablesConsistent (opened .step 0 0 p3) ∧
    packerSound (opened .step 0 0 p3) ∧ parkedSound (opened .step 0 0 p3) ∧
    ∃ t, step { opened .step 0 0 p3 with commands := [⟨1, 38, 200⟩] } = .next t ∧
      (t.status == some .stallOnInput) = true :=
  ⟨by unfold storageCanonical; decide +kernel, opened_tables _ _ _ _, opened_packerSound _ _ _ _,
    opened_parkedSound _ _ _ _, exists_next (by decide +kernel)⟩

theorem witness_CommandsOnlyAppendToOutput : packerSound (opened .flush 38 200 p3) ∧
    parkedSound (opened .flush 38 200 p3) ∧ (opened .flush 38 200 p3).outPtr ≠ 0 ∧
    (∃ t, exec (.flush 38 200) (opened .flush 38 200 p3) = .next t) ∧
    (∃ t, exec .readChunk (opened .flush 38 200 p3) = .next t) :=
  ⟨opened_packerSound _ _ _ _, opened_parkedSound _ _ _ _, by decide, answers (by decide +kernel),
    answers (by decide +kernel)⟩

/-- A stall on input and a stall on output, followed by larger limits and by the same ones. -/
theorem witness_StallingChangesNoOutput :
    (∃ t, exec (.step 38 200) (opened .step 0 0 p3) = .next t ∧ (t.status == some .stallOnInput) = true) ∧
    (∃ t, exec (.step 38 64) (fresh p3) = .next t ∧ (t.status == some .stallOnOutput) = true) ∧
    (38 : Word64).toNat ≤ (38 : Word64).toNat ∧ (64 : Word64).toNat ≤ inf.toNat :=
  ⟨exists_next (by decide +kernel), exists_next (by decide +kernel), by decide, by decide⟩

theorem witness_RecordUseKeepsThePermutation : (3 : BitVec 8).toNat < 4 ∧ RankTable.fresh.consistent 4 ∧
    (255 : BitVec 8).toNat < 256 ∧ RankTable.fresh.consistent 256 :=
  ⟨by decide, fresh_consistent 4, by decide, fresh_consistent 256⟩

theorem witness_HashDependsOnTheChunkAlone : State.reset.cfg.hash = .fold ∧
    (opened .step 0 0 p3).cfg.hash = State.reset.cfg.hash := ⟨rfl, rfl⟩

/-- A state for each of the four forms. -/
theorem witness_Classify : predAt (fresh []) 0 = 0 ∧
    (predAt { fresh [] with pred := [(0, 5)] } 0 ≠ 0 ∧ chunkAAt { fresh [] with pred := [(0, 5)] } 0 = 0) ∧
    (predAt { fresh [] with chunkA := [(7, 5)], chunkB := [(7, 6)] } 0 ≠ 6 ∧
      chunkAAt { fresh [] with chunkA := [(7, 5)], chunkB := [(7, 6)] } 7 ≠ 6 ∧
      chunkBAt { fresh [] with chunkA := [(7, 5)], chunkB := [(7, 6)] } 7 = 6) ∧
    (predAt (fresh []) 0 ≠ 6 ∧ chunkAAt (fresh []) 7 ≠ 6 ∧ chunkBAt (fresh []) 7 ≠ 6) := by decide +kernel

/-- The word just below `out_ptr`; a LITERAL and a PREDICTED chunk. -/
theorem witness_ProcessChunkWritesPerForm :
    (opened .step 0 200 []).sigAddr.toNat + 8 ≤ (opened .step 0 200 []).outPtr.toNat ∧
    (∃ t, exec (.processChunk 0x44434241) (opened .step 0 200 []) = .next t) ∧
    classify (opened .step 0 200 []) 0x44434241 (hashOf Config.test 0x44434241) = .literal ∧
    (∃ t, exec (.processChunk 0) (opened .step 0 200 []) = .next t) ∧
    classify (opened .step 0 200 []) 0 (hashOf Config.test 0) = .predicted :=
  ⟨by decide +kernel, answers (by decide +kernel), by decide +kernel, answers (by decide +kernel), by decide +kernel⟩

/-- A PREDICTED chunk and a LITERAL one. -/
theorem witness_ContextPredictsTheLastChunk :
    (∃ t, exec (.processChunk 0) (opened .step 0 200 []) = .next t) ∧
    classify (opened .step 0 200 []) 0 (hashOf Config.test 0) = .predicted ∧
    (∃ t, exec (.processChunk 5) (opened .step 0 200 []) = .next t) ∧
    classify (opened .step 0 200 []) 5 (hashOf Config.test 5) ≠ .predicted :=
  ⟨answers (by decide +kernel), by decide +kernel, answers (by decide +kernel), by decide +kernel⟩

/-- `c = 5` after context 0, then a chunk whose hash is 0 brings the context back. -/
theorem witness_SecondOccurrenceIsPredicted : ∃ t, exec (.processChunk 5) (opened .step 0 200 []) = .next t ∧
    (obs (fun u => u.lastHash == 0) (exec (.processChunk 0) t) == some true &&
      hashOf Config.test 0 == (opened .step 0 200 []).lastHash &&
      hashOf Config.test 5 != (opened .step 0 200 []).lastHash) = true := exists_next (by decide +kernel)

/-- The least room the statement asks for: five words and two bytes. -/
theorem witness_ProcessChunkCompletes : codebookAccepted (opened .step 0 50 []).cfg = true ∧
    selectorCodesFixed (opened .step 0 50 []).cfg ∧ tablesConsistent (opened .step 0 50 []) ∧
    roomToPack 5 2 (opened .step 0 50 []) :=
  ⟨by decide +kernel, test_config_selectors, opened_tables _ _ _ _, by unfold roomToPack; decide +kernel⟩

/-- The premises of the four forms' clauses. -/
theorem witness_ProcessChunkRunsItsStepsInOrder :
    (∃ u, exec (.emitSelector .literal) (opened .step 0 200 []) = .next u ∧
      (obs (fun v => obs (fun _ => true) (exec (.dictUpdate .literal 5 5) v) == some true)
        (exec (.emitLiteral 5) u) == some true) = true) ∧
    classify (opened .step 0 200 []) 5 (hashOf Config.test 5) = .literal ∧
    (∃ u, exec (.emitSelector .dictB) (opened .step 0 200 []) = .next u ∧
      (obs (fun v => obs (fun _ => true) (exec (.dictUpdate .dictB 6 6) v) == some true)
        (exec (.emitHash16 6) u) == some true) = true) ∧
    classify { opened .step 0 200 [] with chunkA := [(6, 5)], chunkB := [(6, 6)] } 6 (hashOf Config.test 6) = .dictB ∧
    (∃ u, exec (.emitSelector .predicted) (opened .step 0 200 []) = .next u) :=
  ⟨exists_next (by decide +kernel), by decide +kernel, exists_next (by decide +kernel), by decide +kernel,
    answers (by decide +kernel)⟩

theorem witness_ProcessUnitIsEightChunksInOrder : ∃ t, exec .processUnit (opened .step 32 200 p3) = .next t :=
  answers (by decide +kernel)

/-- The least room and the least input: `W = 5`, so 8 + 56 bytes, and one unit. -/
theorem witness_ProcessUnitStaysWithinItsBound : codebookAccepted (opened .step 32 64 p3).cfg = true ∧
    selectorCodesFixed (opened .step 32 64 p3).cfg ∧ tablesConsistent (opened .step 32 64 p3) ∧
    roomToPack (unitWords (opened .step 32 64 p3).cfg) 16 (opened .step 32 64 p3) ∧
    32 ≤ inAvail (opened .step 32 64 p3) ∧ inputSupplied (opened .step 32 64 p3) 32 :=
  ⟨by decide +kernel, test_config_selectors, opened_tables _ _ _ _, by unfold roomToPack; decide +kernel, by decide +kernel,
    p3_supplied _ (by decide) _ rfl⟩

/-- Exactly eight bytes of room, and seven. -/
theorem witness_StartSigPlacesAZeroWord :
    (opened .step 0 16 []).outPtr.toNat + 8 ≤ (opened .step 0 16 []).latch.outLimit.toNat ∧
    (opened .step 0 15 []).latch.outLimit.toNat < (opened .step 0 15 []).outPtr.toNat + 8 := by decide +kernel

/-- A one-bit field, a 64-bit one, with exactly one word of room, the cursor at 0 and at 64. -/
theorem witness_PushPacksItsField : (Instr.push 1 1).wellFormed = true ∧ (Instr.push inf 64).wellFormed = true ∧
    roomToPack 1 0 (opened .step 0 16 []) ∧ roomToPack 1 0 { opened .step 0 16 [] with bitPos := 64 } := by
  unfold roomToPack; decide +kernel

theorem witness_PushStopsOnBadOperands : (Instr.push 0 0).wellFormed = false ∧
    (Instr.push 0 65).wellFormed = false ∧ (Instr.push 2 1).wellFormed = false := by decide

/-- A field that ends exactly at bit 63, and the shortest one that does not. -/
theorem witness_EveryBitOfAFieldIsWrittenOnce :
    ({ opened .step 0 200 [] with bitPos := 60, sigWord := 5 } : State).bitPos.toNat ≤ 64 ∧
    ({ opened .step 0 200 [] with bitPos := 60, sigWord := 5 } : State).sigWord.toNat < 2 ^ 60 ∧
    (opened .step 0 200 []).sigAddr.toNat + 8 ≤ (opened .step 0 200 []).outPtr.toNat ∧
    (∃ t, exec (.push 15 4) { opened .step 0 200 [] with bitPos := 60, sigWord := 5 } = .next t) ∧
    (∃ t, exec (.push 31 5) { opened .step 0 200 [] with bitPos := 60, sigWord := 5 } = .next t) :=
  ⟨by decide +kernel, by decide +kernel, by decide +kernel, answers (by decide +kernel), answers (by decide +kernel)⟩

/-- One byte less room than each write needs; three bytes of input; a byte not supplied; the last offset. -/
theorem witness_AccessesBeyondALimitStop :
    (opened .step 0 15 []).latch.outLimit.toNat < (opened .step 0 15 []).outPtr.toNat + 8 ∧
    (opened .step 0 9 []).latch.outLimit.toNat < (opened .step 0 9 []).outPtr.toNat + 2 ∧
    (opened .step 0 8 []).latch.outLimit.toNat < (opened .step 0 8 []).outPtr.toNat + 1 ∧
    ((Instr.push 1 1).wellFormed = true ∧
      (opened .step 0 7 []).latch.outLimit.toNat < (opened .step 0 7 []).sigAddr.toNat + 8) ∧
    64 < ({ opened .step 0 15 [] with bitPos := 64 } : State).bitPos.toNat + (1 : BitVec 8).toNat ∧
    inAvail (opened .step 3 200 p3) < 4 ∧
    (0 < inAvail (opened .flush 1 200 []) ∧ readByte (opened .flush 1 200 []).input 0 = none) ∧
    (({ opened .step 0 9 [] with inPtr := inf } : State).outPtr.toNat + 1 ≤ (opened .step 0 9 []).latch.outLimit.toNat ∧
      ({ opened .step 0 9 [] with inPtr := inf } : State).inPtr.toNat + 1 = 2 ^ 64) := by decide +kernel

/-- In a fresh table the four forms stand at the four ranks, each with a legal code; and so under selector
codes other than those of rules R98 and R99. -/
theorem witness_EmitSelectorPushesThePreUpdateRank : (opened .step 0 16 []).form.consistent 4 ∧
    selectorCodesFixed (opened .step 0 16 []).cfg ∧
    roomToPack 1 0 (opened .step 0 16 []) ∧ (opened .step 0 16 []).form.rankOf (formId .literal) = 0 ∧
    (opened .step 0 16 []).form.rankOf (formId .dictA) = 1 ∧
    (opened .step 0 16 []).form.rankOf (formId .dictB) = 2 ∧
    (opened .step 0 16 []).form.rankOf (formId .predicted) = 3 ∧
    Config.test.formCode[(3 : BitVec 8).toNat]? = some ⟨15, 4⟩ ∧ codeLegal ⟨15, 4⟩ = true ∧
    ({ Config.test with formCode := [⟨9, 4⟩] } : Config).formCode[(0 : BitVec 8).toNat]? = some ⟨9, 4⟩ ∧
    codeLegal ⟨9, 4⟩ = true :=
  ⟨fresh_consistent 4, test_config_selectors, by unfold roomToPack; decide +kernel, by decide +kernel,
    by decide +kernel, by decide +kernel, by decide +kernel, by decide +kernel, by decide +kernel,
    by decide +kernel, by decide +kernel⟩

/-- The premises of SelectorRows, EndCode and, with the codebook's, of Letters: one word of room, the fixed
selector codes, a legal end code. -/
theorem witness_RoomForOneField : roomToPack 1 0 (opened .step 0 16 []) ∧
    codebookAccepted (opened .step 0 16 []).cfg = true ∧ selectorCodesFixed (opened .step 0 16 []).cfg ∧
    codeLegal (opened .step 0 16 []).cfg.endCode = true := by unfold roomToPack; decide +kernel

theorem witness_LiteralEmitsItsFourBytesInOrder : codebookAccepted (opened .step 0 40 []).cfg = true ∧
    roomToPack 4 0 (opened .step 0 40 []) := by unfold roomToPack; decide +kernel

theorem witness_HashPayloadIsTwoBytesAtTheCursor :
    (opened .step 0 10 []).outPtr.toNat + 2 ≤ (opened .step 0 10 []).latch.outLimit.toNat := by decide +kernel

/-- Two tail bytes with exactly their room. -/
theorem witness_EmitTailCopiesTheRest : inputSupplied { opened .flush 38 10 p3 with inPtr := 36 } 38 ∧
    ({ opened .flush 38 10 p3 with inPtr := 36 } : State).inPtr.toNat ≤ 38 ∧
    (opened .flush 38 10 p3).outPtr.toNat + inAvail { opened .flush 38 10 p3 with inPtr := 36 } ≤
      (opened .flush 38 10 p3).latch.outLimit.toNat :=
  ⟨p3_supplied _ (by decide) _ rfl, by decide +kernel, by decide +kernel⟩

theorem witness_TailRowAppendsItsByte :
    (opened .step 0 9 []).outPtr.toNat + 1 ≤ (opened .step 0 9 []).latch.outLimit.toNat ∧
    ({ opened .step 0 9 [] with inPtr := inf - 1 } : State).inPtr.toNat + 1 < 2 ^ 64 := by decide +kernel

theorem witness_SigwordRowPlacesAFullWord :
    (opened .step 0 16 []).outPtr.toNat + 8 ≤ (opened .step 0 16 []).latch.outLimit.toNat := by decide +kernel

/-- Three tail bytes, and none, each with exactly the room asked for. -/
theorem witness_FlushEndsTheStreamWithItsTail : (opened .step 0 0 p3).cfg.endCode = fixedEndCode ∧
    packerSound (opened .step 0 0 p3) ∧
    (opened .step 0 0 p3).outPtr ≠ 0 ∧ (opened .step 0 0 p3).resume = 1 ∧
    (opened .step 0 0 p3).inPtr.toNat ≤ (3 : Word64).toNat ∧ (3 : Word64).toNat < (opened .step 0 0 p3).inPtr.toNat + 4 ∧
    inputSupplied (opened .step 0 0 p3) (3 : Word64).toNat ∧
    (opened .step 0 0 p3).outPtr.toNat + 8 + ((3 : Word64).toNat - (opened .step 0 0 p3).inPtr.toNat) ≤
      (19 : Word64).toNat ∧
    (opened .step 0 0 p3).outPtr.toNat + 8 + ((0 : Word64).toNat - (opened .step 0 0 p3).inPtr.toNat) ≤
      (16 : Word64).toNat :=
  ⟨rfl, opened_packerSound _ _ _ _, by decide, rfl, by decide, by decide, p3_supplied _ (by decide) _ rfl, by decide,
    by decide⟩

end Sys2Proof.Tests
end

section
/-! SUPPORT. The checks of a configuration as conditions on its fields (rules R11, R12, R67). -/

namespace Sys2Proof.Machine

/-- Rule R175's operand discipline, condition by condition. -/
theorem codeLegal_iff {c : Code} : codeLegal c = true ↔
    1 ≤ c.bits.toNat ∧ c.bits.toNat ≤ 64 ∧ c.content.toNat < 2 ^ c.bits.toNat := by
  simp only [codeLegal, pushOperandsLegal, Bool.and_eq_true, decide_eq_true_eq, and_assoc]

theorem codebookAccepted_iff {cfg : Config} : codebookAccepted cfg = true ↔
    cfg.codebook.length = 256 ∧ ∀ c ∈ cfg.codebook, codeLegal c = true := by
  simp only [codebookAccepted, Bool.and_eq_true, beq_iff_eq, List.all_eq_true]

/-- A word is at least 1 exactly when it is not 0, which is what INIT tests. -/
theorem one_le_toNat_iff {w : Nat} {x : BitVec w} : 1 ≤ x.toNat ↔ x ≠ 0 := by
  simp only [Nat.one_le_iff_ne_zero, ne_eq, BitVec.toNat_eq, BitVec.ofNat_eq_ofNat, BitVec.toNat_zero]

theorem thresholdsAccepted_iff {cfg : Config} : thresholdsAccepted cfg = true ↔
    1 ≤ cfg.effT.toNat ∧ 1 ≤ cfg.blkT.toNat ∧
      (cfg.periodicResetEn = true → 1 ≤ cfg.resetCycle.toNat) := by
  simp only [one_le_toNat_iff, thresholdsAccepted, Bool.and_eq_true, Bool.or_eq_true, bne_iff_ne,
    Bool.not_eq_true', and_assoc]
  cases cfg.periodicResetEn <;> simp

theorem lookaheadAccepted_iff {cfg : Config} : lookaheadAccepted cfg = true ↔
    8 * ((8 * (4 + 4 * longestCode cfg.codebook) + 63) / 64) + 25 ≤ cfg.minLookahead.toNat := by
  rw [lookaheadAccepted, decide_eq_true_iff, unitWords, unitBits]

/-- No code of the table is longer than `LMAX`. -/
theorem bits_le_longestCode {cs : List Code} {c : Code} (hc : c ∈ cs) :
    c.bits.toNat ≤ longestCode cs := by
  induction cs with
  | nil => cases hc
  | cons d cs ih =>
    rcases List.mem_cons.mp hc with rfl | hc
    · exact Nat.le_max_left _ _
    · exact Nat.le_trans (ih hc) (Nat.le_max_right _ _)

/-- Some code of a table that has one is as long as `LMAX`. -/
theorem exists_bits_eq_longestCode {cs : List Code} (hne : cs ≠ []) :
    ∃ c ∈ cs, c.bits.toNat = longestCode cs := by
  induction cs with
  | nil => exact absurd rfl hne
  | cons d cs ih =>
    by_cases hd : longestCode cs ≤ d.bits.toNat
    · exact ⟨d, List.mem_cons_self, (Nat.max_eq_left hd).symm⟩
    · have hcs : cs ≠ [] := by
        rintro rfl
        exact hd (Nat.zero_le _)
      obtain ⟨c, hc, hlen⟩ := ih hcs
      exact ⟨c, List.mem_cons_of_mem _ hc, hlen.trans (Nat.max_eq_right (by omega)).symm⟩

/-- The two properties rule R11 gives `LMAX` pin it down. -/
theorem eq_longestCode_iff {cs : List Code} (hne : cs ≠ []) {L : Nat} :
    L = longestCode cs ↔ (∀ c ∈ cs, c.bits.toNat ≤ L) ∧ ∃ c ∈ cs, c.bits.toNat = L := by
  constructor
  · rintro rfl
    exact ⟨fun c hc => bits_le_longestCode hc, exists_bits_eq_longestCode hne⟩
  · rintro ⟨hub, c, hc, rfl⟩
    obtain ⟨d, hd, hlen⟩ := exists_bits_eq_longestCode hne
    exact Nat.le_antisymm (bits_le_longestCode hc) (hlen ▸ hub d hd)

/-- A bound on `LMAX` may be stated of the number with its two properties. -/
theorem lookaheadAccepted_iff_exists {cfg : Config} (hne : cfg.codebook ≠ []) :
    lookaheadAccepted cfg = true ↔
      ∃ L, (∀ c ∈ cfg.codebook, c.bits.toNat ≤ L) ∧ (∃ c ∈ cfg.codebook, c.bits.toNat = L) ∧
        8 * ((8 * (4 + 4 * L) + 63) / 64) + 25 ≤ cfg.minLookahead.toNat := by
  simp only [← and_assoc, ← eq_longestCode_iff hne, exists_eq_left, lookaheadAccepted_iff]

/-- Settles O10: the check is the conjunction of its four parts, each its own equivalence; a codebook of 256
entries is not empty, so `LMAX` is the length of one of its codes. -/
theorem acceptedConfigurationsAreTheWellFormedOnes :
    Obligations.AcceptedConfigurationsAreTheWellFormedOnes := by
  intro cfg
  have hparts : configAccepted cfg = true ↔ codebookAccepted cfg = true ∧
      thresholdsAccepted cfg = true ∧ lookaheadAccepted cfg = true ∧
      cfg.bitOrder = .leastSignificantFirst := by
    simp only [configAccepted, bitOrderAccepted, Bool.and_eq_true, beq_iff_eq, and_assoc]
  rw [hparts, thresholdsAccepted_iff, codebookAccepted_iff]
  simp only [codeLegal_iff, and_assoc]
  refine and_congr_right fun hlen => ?_
  have hne : cfg.codebook ≠ [] := by
    intro h
    rw [h] at hlen
    cases hlen
  rw [lookaheadAccepted_iff_exists hne]

end Sys2Proof.Machine
end

section
/-! SUPPORT. What a stream holds after a store, a rank table after a use, and OUT after a PUSH, in the terms
of the statements: `storedAt`, `useRecorded`, `fieldPacked`. -/

namespace Sys2Proof.Machine

/-! ### Streams -/

/-- Only the low `8n` bits of a value matter to what its `n` bytes are. -/
theorem holdsLE_mod {m : Memory} {a n v : Nat} : holdsLE m a n (v % 256 ^ n) ↔ holdsLE m a n v := by
  have hbyte (k : Nat) (hk : k < n) : BitVec.ofNat 8 (v % 256 ^ n / 256 ^ k) = BitVec.ofNat 8 (v / 256 ^ k) := by
    obtain ⟨d, rfl⟩ : ∃ d, n = k + (d + 1) := ⟨n - k - 1, by omega⟩
    apply BitVec.eq_of_toNat_eq
    rw [Nat.pow_add, Nat.mod_mul_right_div_self, BitVec.toNat_ofNat, BitVec.toNat_ofNat]
    exact Nat.mod_mod_of_dvd _ (Dvd.intro_left (256 ^ d) rfl)
  exact forall₂_congr fun k hk => by rw [hbyte k hk]

/-- The same for a signature word. -/
theorem holdsLE_word_mod {m : Memory} {a v : Nat} : holdsLE m a 8 (v % 2 ^ 64) ↔ holdsLE m a 8 v := by
  rw [show 2 ^ 64 = 256 ^ 8 by norm_num, holdsLE_mod]

/-- A store holds the value it stores. -/
theorem holdsLE_writeBytes (m : Memory) (a n v : Nat) : holdsLE (writeBytes m a n v) a n v := by
  intro k hk
  rw [readByte_writeBytes, if_pos (by omega), Nat.add_sub_cancel_left]

/-- A store changes nothing outside its own bytes. -/
theorem sameOutside_writeBytes (m : Memory) (a n v : Nat) : sameOutside m (writeBytes m a n v) a n := by
  intro x hx
  rw [readByte_writeBytes, if_neg (by omega)]

theorem storedAt_writeBytes (m : Memory) (a n v : Nat) : storedAt m (writeBytes m a n v) a n v :=
  ⟨holdsLE_writeBytes m a n v, sameOutside_writeBytes m a n v⟩

/-- A store elsewhere leaves a held value alone. -/
theorem holdsLE_writeBytes_of_disjoint {m : Memory} {a n v b k w : Nat} (h : holdsLE m a n v)
    (hab : a + n ≤ b ∨ b + k ≤ a) : holdsLE (writeBytes m b k w) a n v := by
  intro i hi
  rw [sameOutside_writeBytes m b k w (a + i) (by omega), h i hi]

/-! ### Rank tables -/

/-- RECORD_USE does to every cell what rule R121 says, on every table: a swap needs the two usages to
differ, so the element one rank above is never the used one itself. -/
theorem recordUse_useRecorded (t : RankTable) (e : BitVec 8) : t.useRecorded (t.recordUse e) e := by
  have husage (x : BitVec 8) : (t.recordUse e).usageOf x = (t.countUse e).usageOf x := by
    rw [usageOf_recordUse, usageOf_countUse]
  refine ⟨fun x => by simp only [usageOf_recordUse, eq_comm], ?_⟩
  rw [husage, husage]
  rcases recordUse_cases t e with ⟨hr, hlt, heq⟩ | ⟨hno, heq⟩
  · rw [if_pos ⟨hr, hlt⟩, heq]
    have hne : t.atRank (t.rankOf e - 1) ≠ e := fun h => BitVec.lt_irrefl _ (h ▸ hlt)
    have hrank : t.rankOf e ≠ t.rankOf e - 1 := by bv_omega
    refine ⟨fun x => ?_, fun r => ?_⟩
    · rw [rankOf_swapUp, rankOf_countUse]
      by_cases hx : x = e
      · rw [hx, if_neg hne, if_pos rfl, if_pos rfl]
      · simp [hx, Ne.symm hx, eq_comm]
    · rw [atRank_swapUp, atRank_countUse]
      by_cases hx : r = t.rankOf e
      · rw [hx, if_pos rfl, if_neg hrank, if_pos rfl]
      · simp [hx, Ne.symm hx, eq_comm]
  · rw [if_neg hno, heq]
    exact ⟨fun x => rankOf_countUse t e x, fun r => atRank_countUse t e r⟩

/-- EMIT_SELECTOR's record writes the FORM table and nothing else. -/
theorem recordForm_eq (s : State) (f : Form) :
    recordForm s f = { s with form := s.form.recordUse (formId f) } := rfl

/-! ### The field a PUSH packs -/

/-- The word PUSH writes through is the low 64 bits of the packed value (rule R172). -/
theorem word_or_shift_eq (c : Code) (s : State) :
    s.sigWord ||| (c.content <<< s.bitPos.toNat) = BitVec.ofNat 64 (packedValue c s) := by
  apply BitVec.eq_of_toNat_eq
  rw [BitVec.toNat_or, BitVec.toNat_shiftLeft, BitVec.toNat_ofNat, packedValue, Nat.or_mod_two_pow,
    Nat.mod_eq_of_lt s.sigWord.isLt]

/-- The content the inner PUSH packs is what of the packed value lies above the word (rule R173). -/
theorem content_shiftRight_toNat (c : Code) {s : State} (hpos : s.bitPos.toNat ≤ 64) :
    (c.content >>> (64 - s.bitPos.toNat)).toNat = packedValue c s / 2 ^ 64 := by
  have hword : s.sigWord.toNat >>> 64 = 0 := by
    rw [Nat.shiftRight_eq_div_pow]
    exact Nat.div_eq_of_lt s.sigWord.isLt
  have hfield : (c.content.toNat <<< s.bitPos.toNat) >>> 64 =
      c.content.toNat >>> (64 - s.bitPos.toNat) := by
    calc (c.content.toNat <<< s.bitPos.toNat) >>> 64
        = (c.content.toNat <<< s.bitPos.toNat) >>> (s.bitPos.toNat + (64 - s.bitPos.toNat)) := by
          rw [Nat.add_sub_cancel' hpos]
      _ = c.content.toNat >>> (64 - s.bitPos.toNat) := by
          rw [Nat.shiftRight_add, Nat.shiftLeft_shiftRight]
  rw [BitVec.toNat_ushiftRight, ← Nat.shiftRight_eq_div_pow, packedValue, Nat.shiftRight_or_distrib, hword,
    hfield, Nat.zero_or]

/-- What a legal field leaves for the new word fits the bits left for it, so the inner PUSH of rule R173
stays within the operand discipline. -/
theorem content_shiftRight_lt {c : Code} {p : Nat} (hp : p ≤ 64) (hn : 64 < p + c.bits.toNat)
    (hc : c.content.toNat < 2 ^ c.bits.toNat) :
    (c.content >>> (64 - p)).toNat < 2 ^ (p + c.bits.toNat - 64) := by
  rw [BitVec.toNat_ushiftRight, Nat.shiftRight_eq_div_pow]
  apply Nat.div_lt_of_lt_mul
  rwa [← Nat.pow_add, show 64 - p + (p + c.bits.toNat - 64) = c.bits.toNat by omega]

/-- A field that fits is packed in the current word. -/
theorem fieldPacked_pushedFit {c : Code} {s : State} (hn : s.bitPos.toNat + c.bits.toNat ≤ 64) :
    fieldPacked c s (pushedFit c.content c.bits s) := by
  unfold fieldPacked
  rw [if_pos hn]
  unfold pushedFit
  rw [word_or_shift_eq, BitVec.toNat_ofNat]
  have hstored := storedAt_writeBytes s.output s.sigAddr.toNat 8 (packedValue c s % 2 ^ 64)
  obtain ⟨hword, hframe⟩ := hstored
  exact ⟨⟨holdsLE_word_mod.mp hword, hframe⟩, rfl⟩

/-- A field that does not fit is packed in the current word and a new one, which lies above it. -/
theorem fieldPacked_pushedSplit {c : Code} {s : State} (hn : 64 < s.bitPos.toNat + c.bits.toNat)
    (hpos : s.bitPos.toNat ≤ 64) (hbelow : s.sigAddr.toNat + 8 ≤ s.outPtr.toNat) :
    fieldPacked c s (pushedSplit c.content c.bits s) := by
  have hword : c.content >>> (64 - s.bitPos.toNat) = BitVec.ofNat 64 (packedValue c s / 2 ^ 64) := by
    rw [← content_shiftRight_toNat c hpos, BitVec.ofNat_toNat, BitVec.setWidth_eq]
  unfold fieldPacked
  rw [if_neg (by omega)]
  unfold pushedSplit
  rw [word_or_shift_eq, BitVec.toNat_ofNat, content_shiftRight_toNat c hpos, hword]
  dsimp only
  refine ⟨?_, holdsLE_writeBytes _ _ _ _, fun x hcur hnew => ?_, rfl⟩
  · have hcur := holdsLE_writeBytes s.output s.sigAddr.toNat 8 (packedValue c s % 2 ^ 64)
    exact holdsLE_writeBytes_of_disjoint (holdsLE_writeBytes_of_disjoint hcur (.inl hbelow)) (.inl hbelow)
  · rw [sameOutside_writeBytes _ _ _ _ x hnew, sameOutside_writeBytes _ _ _ _ x hnew,
      sameOutside_writeBytes _ _ _ _ x hcur]

/-- A legal code is pushed wherever there is room for one more word, and is then packed at the cursor. -/
theorem pushCode_packs {c : Code} {s : State} (hc : codeLegal c = true) (hroom : roomToPack 1 0 s) :
    ∃ t, pushCode c s = .ok t ∧ fieldPacked c s t := by
  obtain ⟨hpos, hbelow, hlimit⟩ := hroom
  obtain ⟨-, hbits, hcontent⟩ := codeLegal_iff.mp hc
  by_cases hn : s.bitPos.toNat + c.bits.toNat ≤ 64
  · exact ⟨_, push_eq_ok.mpr ⟨hc, by omega, .inl ⟨hn, rfl⟩⟩, fieldPacked_pushedFit hn⟩
  · have hover : 64 < s.bitPos.toNat + c.bits.toNat := by omega
    have hrest := content_shiftRight_lt hpos hover hcontent
    exact ⟨_, push_eq_ok.mpr ⟨hc, by omega, .inr ⟨hover, by omega, by omega, hrest, rfl⟩⟩,
      fieldPacked_pushedSplit hover hpos hbelow⟩

end Sys2Proof.Machine
end

section
/-! The statements on the selector codes (rules R98, R99, R176, R180). -/

namespace Sys2Proof.Machine

/-- A table entry that is there is the one EMIT_SELECTOR pushes. -/
theorem formCodeAt_of_getElem? {cfg : Config} {r : BitVec 8} {c : Code}
    (h : cfg.formCode[r.toNat]? = some c) : formCodeAt cfg r = c := by
  rw [formCodeAt, List.getD_eq_getElem?_getD, h, Option.getD_some]

/-- EMIT_SELECTOR, with a legal code at the form's rank and room for one more word. -/
theorem emitSelector_packs {s : State} {f : Form} {c : Code} (hroom : roomToPack 1 0 s)
    (hc : s.cfg.formCode[(s.form.rankOf (formId f)).toNat]? = some c) (hlegal : codeLegal c = true) :
    ∃ t F, exec (.emitSelector f) s = .next t ∧ s.form.useRecorded F (formId f) ∧
      fieldPacked c { s with form := F } t := by
  obtain ⟨t, hpush, hpacked⟩ := pushCode_packs (s := recordForm s f) hlegal hroom
  rw [recordForm_eq] at hpacked
  refine ⟨t, s.form.recordUse (formId f), outcomeOf_eq_next.mpr ?_, recordUse_useRecorded _ _, hpacked⟩
  rw [emitSelector, formCodeAt_of_getElem? hc, hpush]

/-- In a consistent FORM table every form holds one of the ranks 0 to 3 (rule R26). -/
theorem rankOf_formId_lt {t : RankTable} (h : t.consistent 4) (f : Form) :
    (t.rankOf (formId f)).toNat < 4 := by
  have hid : (formId f).toNat < 4 := by cases f <;> decide
  obtain ⟨hlt, -⟩ := h _ hid
  exact hlt

/-- Rule R98 fixes a code for each rank 0 to 3, and one that PUSH takes. -/
theorem fixedFormCode_at {r : Nat} (h : r < 4) : ∃ c, fixedFormCode[r]? = some c ∧ codeLegal c = true := by
  have hlen : fixedFormCode.length = 4 := rfl
  have hall : ∀ c ∈ fixedFormCode, codeLegal c = true := by decide
  exact ⟨fixedFormCode[r], List.getElem?_eq_getElem _, hall _ (List.getElem_mem _)⟩

theorem fixedEndCode_legal : codeLegal fixedEndCode = true := by decide

/-- Settles O51: the second clause is the first at the fixed code of the form's rank, which is below 4. -/
theorem emitSelectorPushesThePreUpdateRank : Obligations.EmitSelectorPushesThePreUpdateRank := by
  intro s f hroom
  refine ⟨fun c hc hlegal => emitSelector_packs hroom hc hlegal, fun ⟨hfixed, _⟩ hcons => ?_⟩
  obtain ⟨c, hc, hlegal⟩ := fixedFormCode_at (rankOf_formId_lt hcons f)
  obtain ⟨t, F, hexec, huse, hpacked⟩ := emitSelector_packs hroom (hfixed ▸ hc) hlegal
  have hrank (r : BitVec 8) (d : Code) (hd : fixedFormCode[r.toNat]? = some d)
      (hr : s.form.rankOf (formId f) = r) : fieldPacked d { s with form := F } t := by
    rw [hr, hd] at hc
    cases hc
    exact hpacked
  exact ⟨t, F, hexec, huse, hrank 0 _ rfl, hrank 1 _ rfl, hrank 2 _ rfl, hrank 3 _ rfl⟩

/-- Settles O53: EMIT_END and the row SEL_END are the same PUSH of the end code. -/
theorem endCodeIsPushedWithoutAUse : Obligations.EndCodeIsPushedWithoutAUse := by
  intro s hroom
  have hlegal (h : codeLegal s.cfg.endCode = true) :
      (∃ t, exec .emitEnd s = .next t ∧ fieldPacked s.cfg.endCode s t) ∧
      (∃ t, exec .selEnd s = .next t ∧ fieldPacked s.cfg.endCode s t) := by
    obtain ⟨t, hpush, hpacked⟩ := pushCode_packs h hroom
    exact ⟨⟨t, outcomeOf_eq_next.mpr hpush, hpacked⟩, ⟨t, outcomeOf_eq_next.mpr hpush, hpacked⟩⟩
  refine ⟨hlegal, fun ⟨_, hend⟩ => ?_⟩
  rw [hend] at hlegal
  exact hlegal fixedEndCode_legal

end Sys2Proof.Machine
end

section
/-! The statements on one step and on the hash (rules R8, R10, R110, R141). -/

namespace Sys2Proof.Machine

theorem fetchCommand_nil {s : State} (h : s.commands = []) : fetchCommand s = none := by
  rw [fetchCommand, h]

theorem fetchCommand_cons {s : State} {c : CommandWord} {cs : List CommandWord}
    (h : s.commands = c :: cs) : fetchCommand s = some (c, { s with commands := cs }) := by
  rw [fetchCommand, h]

/-- A command decodes to one of the four CMD rows, none of which restricts its operands. -/
theorem decodeCommand_wellFormed (c : CommandWord) : (decodeCommand c).wellFormed = true := by
  unfold decodeCommand
  split <;> rfl

/-- Settles O5: the two cases are the two of taking a command, and CMD rows are always well formed. -/
theorem stepRunsTheDecodedCommand : Obligations.StepRunsTheDecodedCommand := by
  intro s
  refine ⟨fun hnone => ?_, fun c cs hcons => ⟨decodeCommand_wellFormed c, ?_⟩⟩
  · rw [step, fetchCommand_nil hnone]
  · rw [step, fetchCommand_cons hcons]

/-- `H_FOLD` by the formula of rule R10. -/
theorem applyHash_fold_toNat (c : Chunk) :
    (applyHash .fold c).toNat = (c.toNat ^^^ c.toNat >>> 16) &&& 0xFFFF := by
  rw [applyHash, BitVec.toNat_ofNat, BitVec.toNat_xor, BitVec.toNat_ushiftRight]
  exact (Nat.and_two_pow_sub_one_eq_mod _ 16).symm

/-- The hash reads one field of the configuration. -/
theorem hashOf_congr {cfg cfg' : Config} (h : cfg'.hash = cfg.hash) (c : Chunk) :
    hashOf cfg' c = hashOf cfg c := by
  rw [hashOf, hashOf, h]

theorem exec_hash (c : Chunk) (s : State) :
    exec (.hash c) s = .next { s with result := hashOf s.cfg c } := rfl

/-- Settles O35: the result is `H` applied to the chunk alone, so only the configuration's hash matters. -/
theorem hashDependsOnTheChunkAlone : Obligations.HashDependsOnTheChunkAlone := by
  intro s c
  refine ⟨exec_hash c s, fun s' hsame => ?_, fun hfold => ⟨_, exec_hash c s, ?_⟩⟩
  · rw [exec_hash, hashOf_congr hsame]
  · rw [hashOf, hfold]
    exact applyHash_fold_toNat c

end Sys2Proof.Machine
end

section
/-! SUPPORT. Dispatch by its cases, invariants that need an open word, and what the operations do to the
input cursor and to what the host owns. -/

namespace Sys2Proof.Machine

/-! ### Dispatch -/

/-- Everything STEP and FLUSH can do once their arguments are latched (rule R202). -/
theorem dispatch_cases {s t : State} (h : dispatch s = .ok t) :
    (s.resume = 3 ∧ t = raise .error s) ∨ (s.resume = 0 ∧ drive .prepareNewBlock s = .ok t) ∨
    (s.resume = 1 ∧ drive .readChunk s = .ok t) ∨ (s.resume = 2 ∧ drive .checkSignatureState s = .ok t) := by
  unfold dispatch at h
  split at h
  · next herr => exact .inl ⟨herr, by simpa using h.symm⟩
  · next herr =>
    split at h
    · cases h
    · split at h
      · next hprep => exact .inr (.inl ⟨hprep, h⟩)
      · next hprep =>
        split at h
        · next hread => exact .inr (.inr (.inl ⟨hread, h⟩))
        · next hread => exact .inr (.inr (.inr ⟨by bv_omega, h⟩))

/-! ### Invariants that need an open word -/

/-- `P` is kept by every primitive operation once a word is open, which START_SIG makes of `Q`; and `Q` is
what is left of `P` before the first word. -/
structure KeptOnceOpened (Q P : State → Prop) : Prop where
  primitives : KeptByPrimitives P
  weaken : ∀ {s}, P s → Q s
  raise : ∀ {c s}, Q s → Q (raise c s)
  startSig : ∀ {s t}, Q s → startSig s = .ok t → P t

/-- Only PREPARE_NEW_BLOCK, which opens a word or returns, may be entered with no word open. -/
theorem KeptOnceOpened.drive {Q P : State → Prop} (k : KeptOnceOpened Q P) {p : Place} {s t : State}
    (hs : Q s) (hopen : p ≠ .prepareNewBlock → P s) (h : drive p s = .ok t) : Q t := by
  refine runDriver_induction (P := fun q u => Q u ∧ (q ≠ .prepareNewBlock → P u)) (Q := Q)
    (fun q u q' v hu hgo => ?_) (fun q u v hu hret => ?_) _ ⟨hs, hopen⟩ h
  · obtain ⟨hQ, hP⟩ := hu
    have hv : P v := by
      by_cases hq : q = .prepareNewBlock
      · subst hq
        rcases prepareNewBlock_cases hgo with ⟨-, e⟩ | ⟨-, -, e⟩ | ⟨-, -, -, e⟩ | ⟨-, -, -, w, hw, e⟩ <;>
          cases e
        exact k.startSig hQ hw
      · exact k.primitives.handler_goto (hP hq) hgo
    exact ⟨k.weaken hv, fun _ => hv⟩
  · obtain ⟨hQ, hP⟩ := hu
    by_cases hq : q = .prepareNewBlock
    · subst hq
      rcases prepareNewBlock_cases hret with ⟨-, e⟩ | ⟨-, -, e⟩ | ⟨-, -, -, e⟩ | ⟨-, -, -, w, hw, e⟩ <;>
        cases e <;> exact k.raise hQ
    · exact k.weaken (k.primitives.handler_returned (hP hq) hret)

/-- A session parked at READ_CHUNK or CHECK_SIGNATURE_STATE has a word open. -/
theorem KeptOnceOpened.dispatch {Q P : State → Prop} (k : KeptOnceOpened Q P) {s t : State} (hs : Q s)
    (hopen : s.resume = 1 ∨ s.resume = 2 → P s) (h : dispatch s = .ok t) : Q t := by
  rcases dispatch_cases h with ⟨-, rfl⟩ | ⟨-, h⟩ | ⟨hr, h⟩ | ⟨hr, h⟩
  · exact k.raise hs
  · exact k.drive hs (fun hne => absurd rfl hne) h
  · exact k.drive hs (fun _ => hopen (.inl hr)) h
  · exact k.drive hs (fun _ => hopen (.inr hr)) h

theorem parkedSound_outPtr_ne_zero {s : State} (h : parkedSound s) (hr : s.resume = 1 ∨ s.resume = 2) :
    s.outPtr ≠ 0 := by
  obtain ⟨-, hread, hcheck⟩ := h
  rcases hr with hr | hr
  · exact (hread hr).1
  · exact (hcheck hr).1

/-! ### What the host owns -/

/-- What no command writes: the input stream and the configuration (rules R40, R83), the commands still to
come, and the result wire, which only an internal operation executed by itself drives. -/
def environment (s : State) : Memory × Config × List CommandWord × BitVec 16 :=
  (s.input, s.cfg, s.commands, s.result)

theorem environment_eq_iff {s t : State} : environment t = environment s ↔
    t.input = s.input ∧ t.cfg = s.cfg ∧ t.commands = s.commands ∧ t.result = s.result := by
  simp only [environment, Prod.mk.injEq]

@[simp] theorem raise_environment (c : Cause) (s : State) : environment (raise c s) = environment s := by
  simp [environment]

@[simp] theorem dictUpdate_environment (f : Form) (c : Chunk) (h : Hash) (s : State) :
    environment (dictUpdate f c h s) = environment s := by
  simp [environment]

theorem push_environment {c : Word64} {b : BitVec 8} {s t : State} (h : push c b s = .ok t) :
    environment t = environment s := by
  obtain ⟨-, -, ⟨-, rfl⟩ | ⟨-, -, -, -, rfl⟩⟩ := push_eq_ok.mp h <;> rfl

theorem keptByPrimitives_environment (s : State) :
    KeptByPrimitives (fun u => environment u = environment s) where
  push hu h := (push_environment h).trans hu
  startSig hu h := by obtain ⟨-, rfl⟩ := startSig_eq_ok.mp h; exact hu
  emitHash16 hu h := by obtain ⟨-, rfl⟩ := emitHash16_eq_ok.mp h; exact hu
  tailByte hu h := by obtain ⟨-, -, rfl⟩ := tailByte_eq_ok.mp h; exact hu
  recordForm hu := hu
  recordLetter hu := hu
  dictUpdate hu := (dictUpdate_environment _ _ _ _).trans hu
  setLastHash hu := hu
  consume hu := hu
  raise hu := (raise_environment _ _).trans hu

/-! ### The input cursor -/

theorem push_inPtr {c : Word64} {b : BitVec 8} {s t : State} (h : push c b s = .ok t) :
    t.inPtr = s.inPtr := by
  obtain ⟨-, -, ⟨-, rfl⟩ | ⟨-, -, -, -, rfl⟩⟩ := push_eq_ok.mp h <;> rfl

theorem startSig_inPtr {s t : State} (h : startSig s = .ok t) : t.inPtr = s.inPtr := by
  obtain ⟨-, rfl⟩ := startSig_eq_ok.mp h
  rfl

theorem emitHash16_inPtr {h : Hash} {s t : State} (hok : emitHash16 h s = .ok t) : t.inPtr = s.inPtr := by
  obtain ⟨-, rfl⟩ := emitHash16_eq_ok.mp hok
  rfl

theorem emitSelector_inPtr {f : Form} {s t : State} (h : emitSelector f s = .ok t) : t.inPtr = s.inPtr :=
  push_inPtr (s := recordForm s f) h

theorem emitLetter_inPtr {b : Byte} {s t : State} (h : emitLetter b s = .ok t) : t.inPtr = s.inPtr :=
  push_inPtr (s := recordLetter s b) h

theorem emitLiteral_inPtr {c : Chunk} {s t : State} (h : emitLiteral c s = .ok t) : t.inPtr = s.inPtr := by
  obtain ⟨t0, t1, t2, h0, h1, h2, h3⟩ := emitLiteral_eq_ok.mp h
  rw [emitLetter_inPtr h3, emitLetter_inPtr h2, emitLetter_inPtr h1, emitLetter_inPtr h0]

theorem emitPayload_inPtr {f : Form} {c : Chunk} {h : Hash} {s t : State}
    (hok : emitPayload f c h s = .ok t) : t.inPtr = s.inPtr := by
  cases f with
  | literal => exact emitLiteral_inPtr hok
  | dictB => exact emitHash16_inPtr hok
  | dictA => cases hok; rfl
  | predicted => cases hok; rfl

/-- A chunk is processed after it has been read: PROCESS_CHUNK leaves the cursor to its caller. -/
theorem processChunk_inPtr {c : Chunk} {s t : State} (h : processChunk c s = .ok t) : t.inPtr = s.inPtr := by
  obtain ⟨u, v, h1, h2, rfl⟩ := processChunk_eq_ok.mp h
  rw [setLastHash_inPtr, dictUpdate_inPtr, emitPayload_inPtr h2, emitSelector_inPtr h1]

theorem processChunks_inPtr (n : Nat) : ∀ {a : Nat} {s t : State}, processChunks n a s = .ok t →
    t.inPtr = s.inPtr := by
  induction n with
  | zero => intro a s t h; cases h; rfl
  | succ n ih =>
    intro a s t h
    obtain ⟨b, u, -, h1, h2⟩ := processChunks_succ_eq_ok.mp h
    rw [ih h2, processChunk_inPtr h1]

theorem processUnit_inPtr {s t : State} (h : processUnit s = .ok t) :
    t.inPtr.toNat = s.inPtr.toNat + 32 := by
  obtain ⟨u, h1, hlt, rfl⟩ := processUnit_eq_ok.mp h
  rw [← processChunks_inPtr 8 h1, BitVec.toNat_ofNat, Nat.mod_eq_of_lt hlt]

theorem tailChunk_inPtr {s t : State} (h : tailChunk s = .ok t) : t.inPtr.toNat = s.inPtr.toNat + 4 := by
  obtain ⟨b, -, hlt, h1⟩ := tailChunk_eq_ok.mp h
  simp only [processChunk_inPtr h1, BitVec.toNat_ofNat, Nat.mod_eq_of_lt hlt]

theorem tailChunks_inPtr_le (n : Nat) : ∀ {s t : State}, tailChunks n s = .ok t →
    s.inPtr.toNat ≤ t.inPtr.toNat := by
  induction n with
  | zero => intro s t h; cases h; exact Nat.le_refl _
  | succ n ih =>
    intro s t h
    rcases tailChunks_succ_eq_ok.mp h with ⟨-, rfl⟩ | ⟨-, -, u, h1, h2⟩
    · exact Nat.le_refl _
    · have hchunk := tailChunk_inPtr h1
      have hrest := ih h2
      omega

theorem tailByte_inPtr {b : Byte} {s t : State} (h : tailByte b s = .ok t) :
    t.inPtr.toNat = s.inPtr.toNat + 1 := by
  obtain ⟨-, hlt, rfl⟩ := tailByte_eq_ok.mp h
  simp only [BitVec.toNat_ofNat, Nat.mod_eq_of_lt hlt]

theorem tailBytes_inPtr (n : Nat) : ∀ {s t : State}, tailBytes n s = .ok t →
    t.inPtr.toNat = s.inPtr.toNat + n := by
  induction n with
  | zero => intro s t h; cases h; rfl
  | succ n ih =>
    intro s t h
    obtain ⟨bs, u, -, h1, h2⟩ := tailBytes_succ_eq_ok.mp h
    rw [ih h2, tailByte_inPtr h1]
    omega

theorem finishStream_inPtr_le {s t : State} (h : finishStream s = .ok t) :
    s.inPtr.toNat ≤ t.inPtr.toNat := by
  obtain ⟨u, v, hend, htail, rfl⟩ := finishStream_eq_ok.mp h
  rw [raise_inPtr, tailBytes_inPtr _ htail, push_inPtr hend]
  omega

/-- The state a handler ends in. -/
def Transfer.state : Transfer → State
  | .goto _ t => t
  | .returned t => t

/-- No handler moves the input cursor backwards. -/
theorem handler_inPtr_le {p : Place} {s : State} {r : Transfer} (h : handler p s = .ok r) :
    s.inPtr.toNat ≤ r.state.inPtr.toNat := by
  cases p with
  | prepareNewBlock =>
    rcases prepareNewBlock_cases h with ⟨-, rfl⟩ | ⟨-, -, rfl⟩ | ⟨-, -, -, rfl⟩ | ⟨-, -, -, t, ht, rfl⟩ <;>
      simp only [Transfer.state, raise_inPtr, Nat.le_refl]
    rw [startSig_inPtr ht]
  | readChunk =>
    rcases readChunk_cases h with ⟨-, t, ht, rfl⟩ | ⟨-, -, rfl⟩ | ⟨-, -, rfl⟩ <;>
      simp only [Transfer.state, raise_inPtr, Nat.le_refl]
    rw [processUnit_inPtr ht]
    omega
  | checkSignatureState =>
    rcases checkSignatureState_cases s with ⟨-, e⟩ | ⟨-, -, e⟩ | ⟨-, -, e⟩ <;> rw [handler, e] at h <;>
      cases h <;> simp only [Transfer.state, raise_inPtr, Nat.le_refl]
  | flushTail =>
    obtain ⟨t, ht, ⟨-, rfl⟩ | ⟨-, u, hu, rfl⟩⟩ := flushTail_cases h
    · exact tailChunks_inPtr_le _ ht
    · exact Nat.le_trans (tailChunks_inPtr_le _ ht) (finishStream_inPtr_le hu)

theorem drive_inPtr_le {p : Place} {s t : State} (h : drive p s = .ok t) :
    s.inPtr.toNat ≤ t.inPtr.toNat :=
  runDriver_induction (P := fun _ u => s.inPtr.toNat ≤ u.inPtr.toNat)
    (Q := fun u => s.inPtr.toNat ≤ u.inPtr.toNat) (fun _ _ _ _ hu hgo => Nat.le_trans hu (handler_inPtr_le hgo))
    (fun _ _ _ hu hret => Nat.le_trans hu (handler_inPtr_le hret)) _ (Nat.le_refl _) h

theorem dispatch_inPtr_le {s t : State} (h : dispatch s = .ok t) : s.inPtr.toNat ≤ t.inPtr.toNat := by
  rcases dispatch_cases h with ⟨-, rfl⟩ | ⟨-, h⟩ | ⟨-, h⟩ | ⟨-, h⟩
  · rw [raise_inPtr]
  · exact drive_inPtr_le h
  · exact drive_inPtr_le h
  · exact drive_inPtr_le h

end Sys2Proof.Machine
end

section
/-! The rank tables stay consistent (rules R24, R26, R125). -/

namespace Sys2Proof.Machine

/-! ### Rank tables -/

theorem rankInit_consistent (n : Nat) : rankInit.consistent n := by
  intro x hx
  simp only [rankOf_rankInit, atRank_rankInit, hx, and_self]

/-- In a consistent table some element holds the rank above that of an element of rank not 0. -/
theorem RankTable.consistent.above {n : Nat} {t : RankTable} (h : t.consistent n) {e : BitVec 8}
    (he : e.toNat < n) (hr : t.rankOf e ≠ 0) :
    (t.atRank (t.rankOf e - 1)).toNat < n ∧ t.rankOf (t.atRank (t.rankOf e - 1)) = t.rankOf e - 1 := by
  obtain ⟨hlt, -, -, -⟩ := h e he
  have hup : (t.rankOf e - 1).toNat < n := by bv_omega
  obtain ⟨-, -, hat, hinv⟩ := h _ hup
  exact ⟨hat, hinv⟩

/-- The swap of two adjacent ranks keeps a permutation and its inverse: it exchanges two elements in `rank`
and, in `by_rank`, the two cells that name them. -/
theorem swapUp_consistent {n : Nat} {t : RankTable} (h : t.consistent n) {e o r u : BitVec 8}
    (he : e.toNat < n) (ho : o.toNat < n) (hu : r - 1 = u) (hre : t.rankOf e = r) (hro : t.rankOf o = u)
    (hne : r ≠ u) : (t.swapUp e o r).consistent n := by
  obtain ⟨hr, hae, -, -⟩ := h e he
  obtain ⟨hup, hao, -, -⟩ := h o ho
  rw [hre] at hr hae
  rw [hro] at hup hao
  have hoe : o ≠ e := fun heq => hne (by rw [← hre, ← hro, heq])
  have hrank (x : BitVec 8) (hx : x.toNat < n) : ((t.swapUp e o r).rankOf x).toNat < n ∧
      (t.swapUp e o r).atRank ((t.swapUp e o r).rankOf x) = x := by
    rw [rankOf_swapUp, atRank_swapUp, hu]
    by_cases hxo : o = x
    · simp [hxo, hr]
    · by_cases hxe : e = x
      · simp [hxo, hxe, hup, hne]
      · obtain ⟨hlt, hinv, -, -⟩ := h x hx
        have hnr : r ≠ t.rankOf x := fun heq => hxe (by rw [← hae, heq, hinv])
        have hnu : u ≠ t.rankOf x := fun heq => hxo (by rw [← hao, heq, hinv])
        simp [hxo, hxe, hlt, hinv, hnr, hnu]
  have hat (x : BitVec 8) (hx : x.toNat < n) : ((t.swapUp e o r).atRank x).toNat < n ∧
      (t.swapUp e o r).rankOf ((t.swapUp e o r).atRank x) = x := by
    rw [rankOf_swapUp, atRank_swapUp, hu]
    by_cases hxr : r = x
    · simp [hxr, ho]
    · by_cases hxu : u = x
      · simp [hxr, hxu, he, hoe]
      · obtain ⟨-, -, hlt, hinv⟩ := h x hx
        have hno : o ≠ t.atRank x := fun heq => hxu (by rw [← hro, heq, hinv])
        have hne' : e ≠ t.atRank x := fun heq => hxr (by rw [← hre, heq, hinv])
        simp [hxr, hxu, hlt, hinv, hno, hne']
  intro x hx
  obtain ⟨hlt, hinv⟩ := hrank x hx
  obtain ⟨hlt', hinv'⟩ := hat x hx
  exact ⟨hlt, hinv, hlt', hinv'⟩

/-- RECORD_USE keeps a table consistent (rule R125). -/
theorem recordUse_consistent {n : Nat} {t : RankTable} (h : t.consistent n) {e : BitVec 8}
    (he : e.toNat < n) : (t.recordUse e).consistent n := by
  have hcount : (t.countUse e).consistent n := h
  rcases recordUse_cases t e with ⟨hr, -, heq⟩ | ⟨-, heq⟩ <;> rw [heq]
  · obtain ⟨ho, hro⟩ := h.above he hr
    exact swapUp_consistent hcount he ho rfl rfl hro (by bv_omega)
  · exact hcount

/-! ### The tables of the state -/

/-- Returning a status leaves LETTER alone or, at a block end with the periodic reset, makes it fresh. -/
theorem raise_letter_cases (c : Cause) (s : State) :
    (raise c s).letter = s.letter ∨ (raise c s).letter = rankInit := by
  cases c with
  | newBlock =>
    simp only [raise, causeWrites, endCommand_letter, setResume_letter, endBlock]
    split_ifs
    · exact .inr rfl
    · exact .inl rfl
    · exact .inl rfl
  | _ => exact .inl rfl

/-- Consistency reads nothing but the two tables. -/
theorem tablesConsistent_congr {s t : State} (hs : tablesConsistent s) (hl : t.letter = s.letter)
    (hf : t.form = s.form) : tablesConsistent t := by
  unfold tablesConsistent at hs ⊢
  rwa [hl, hf]

theorem push_tables {c : Word64} {b : BitVec 8} {s t : State} (h : push c b s = .ok t) :
    t.letter = s.letter ∧ t.form = s.form := by
  obtain ⟨-, -, ⟨-, rfl⟩ | ⟨-, -, -, -, rfl⟩⟩ := push_eq_ok.mp h <;> exact ⟨rfl, rfl⟩

theorem raise_tablesConsistent {c : Cause} {s : State} (hs : tablesConsistent s) :
    tablesConsistent (raise c s) := by
  rcases raise_letter_cases c s with hl | hl
  · exact tablesConsistent_congr hs hl (raise_form c s)
  · obtain ⟨-, hform⟩ := hs
    refine ⟨?_, ?_⟩
    · rw [hl]; exact rankInit_consistent 256
    · rwa [raise_form]

theorem keptByPrimitives_tablesConsistent : KeptByPrimitives tablesConsistent where
  push hs h := by obtain ⟨hl, hf⟩ := push_tables h; exact tablesConsistent_congr hs hl hf
  startSig hs h := by obtain ⟨-, rfl⟩ := startSig_eq_ok.mp h; exact hs
  emitHash16 hs h := by obtain ⟨-, rfl⟩ := emitHash16_eq_ok.mp h; exact hs
  tailByte hs h := by obtain ⟨-, -, rfl⟩ := tailByte_eq_ok.mp h; exact hs
  recordForm {_ f} hs := ⟨hs.1, recordUse_consistent hs.2 (by cases f <;> decide)⟩
  recordLetter {_ b} hs := ⟨recordUse_consistent hs.1 b.isLt, hs.2⟩
  dictUpdate hs := tablesConsistent_congr hs (dictUpdate_letter _ _ _ _) (dictUpdate_form _ _ _ _)
  setLastHash hs := hs
  consume hs := hs
  raise hs := raise_tablesConsistent hs

/-- Settles O27: only RECORD_USE and the resets write a rank table, and each keeps it consistent. -/
theorem stepKeepsRankTablesConsistent : Obligations.StepKeepsRankTablesConsistent := by
  intro s t hs hstep
  exact keptByPrimitives_tablesConsistent.step
    (fun _ _ _ => ⟨rankInit_consistent 256, rankInit_consistent 4⟩) (fun _ _ _ _ h => h)
    (fun _ _ h => h) hs hstep

end Sys2Proof.Machine
end

section
/-! The packer stays sound (rules R32, R33, R80, R106). -/

namespace Sys2Proof.Machine

/-! ### Cursors and written bytes -/

/-- A cursor moved by no more than a limit allows does not wrap. -/
theorem cursor_toNat {p limit : Word64} {n : Nat} (h : p.toNat + n ≤ limit.toNat) :
    (BitVec.ofNat 64 (p.toNat + n)).toNat = p.toNat + n := by
  rw [BitVec.toNat_ofNat, Nat.mod_eq_of_lt (Nat.lt_of_le_of_lt h limit.isLt)]

/-- A position in 0..64 fits the bit cursor's seven bits (rule R33). -/
theorem bitCursor_toNat {n : Nat} (h : n ≤ 64) : (BitVec.ofNat 7 n).toNat = n := by
  rw [BitVec.toNat_ofNat, Nat.mod_eq_of_lt (by omega)]

/-- Every byte below an offset has been written: rule R80 (a), the last clause of `packerSound`. -/
def writtenBelow (m : Memory) (b : Nat) : Prop := ∀ a, a < b → (readByte m a).isSome

/-- A store unwrites no byte. -/
theorem writtenBelow_writeBytes {m : Memory} {b : Nat} (h : writtenBelow m b) (a n v : Nat) :
    writtenBelow (writeBytes m a n v) b := by
  intro x hx
  rw [readByte_writeBytes]
  split
  · rfl
  · exact h x hx

/-- A store right above the written bytes adds its own. -/
theorem writtenBelow_append {m : Memory} {b : Nat} (h : writtenBelow m b) (n v : Nat) :
    writtenBelow (writeBytes m b n v) (b + n) := by
  intro x hx
  rw [readByte_writeBytes]
  split
  · rfl
  · exact h x (by omega)

/-! ### The primitive operations -/

/-- START_SIG opens a clean, empty word at `out_ptr`. -/
theorem startSig_packerSound {s t : State} (hs : packerSound s) (h : startSig s = .ok t) :
    packerSound t := by
  obtain ⟨-, -, -, hwritten⟩ := hs
  obtain ⟨hroom, rfl⟩ := startSig_eq_ok.mp h
  unfold packerSound
  dsimp only
  rw [cursor_toNat hroom]
  exact ⟨by simp, by simp, fun _ => ⟨Nat.le_refl _, holdsLE_writeBytes _ _ _ _⟩,
    writtenBelow_append hwritten 8 0⟩

/-- A field of `bits` bits put above a clean word's `p` bits leaves it clean above `p + bits` (rule R106). -/
theorem word_or_field_lt {w c : Word64} {p bits : Nat} (hw : w.toNat < 2 ^ p) (hc : c.toNat < 2 ^ bits) :
    (w ||| (c <<< p)).toNat < 2 ^ (p + bits) := by
  rw [BitVec.toNat_or, BitVec.toNat_shiftLeft]
  have hshift : c.toNat <<< p < 2 ^ (p + bits) := by
    rw [Nat.shiftLeft_eq, Nat.add_comm, Nat.pow_add]
    exact Nat.mul_lt_mul_of_pos_right hc (Nat.two_pow_pos p)
  exact Nat.or_lt_two_pow (Nat.lt_of_lt_of_le hw (Nat.pow_le_pow_right (by decide) (by omega)))
    (Nat.lt_of_le_of_lt (Nat.mod_le _ _) hshift)

theorem pushedFit_packerSound {c : Word64} {bits : BitVec 8} {s : State} (hs : packerSound s)
    (hc : c.toNat < 2 ^ bits.toNat) (hfit : s.bitPos.toNat + bits.toNat ≤ 64) :
    packerSound (pushedFit c bits s) := by
  obtain ⟨-, hclean, hopen, hwritten⟩ := hs
  unfold packerSound pushedFit
  dsimp only
  rw [bitCursor_toNat hfit]
  refine ⟨hfit, word_or_field_lt hclean hc, fun hne => ?_, writtenBelow_writeBytes hwritten _ _ _⟩
  obtain ⟨hbelow, -⟩ := hopen hne
  exact ⟨hbelow, holdsLE_writeBytes _ _ _ _⟩

theorem pushedSplit_packerSound {c : Word64} {bits : BitVec 8} {s : State} (hs : packerSound s)
    (hroom : s.outPtr.toNat + 8 ≤ s.latch.outLimit.toNat)
    (hfit : s.bitPos.toNat + bits.toNat - 64 ≤ 64)
    (hrest : (c >>> (64 - s.bitPos.toNat)).toNat < 2 ^ (s.bitPos.toNat + bits.toNat - 64)) :
    packerSound (pushedSplit c bits s) := by
  obtain ⟨-, -, -, hwritten⟩ := hs
  unfold packerSound pushedSplit
  dsimp only
  rw [bitCursor_toNat hfit, cursor_toNat hroom]
  exact ⟨hfit, hrest, fun _ => ⟨Nat.le_refl _, holdsLE_writeBytes _ _ _ _⟩,
    writtenBelow_writeBytes (writtenBelow_append (writtenBelow_writeBytes hwritten _ _ _) 8 0) _ _ _⟩

/-- PUSH keeps the packer sound, with or without a word open. -/
theorem push_packerSound {c : Word64} {bits : BitVec 8} {s t : State} (hs : packerSound s)
    (h : push c bits s = .ok t) : packerSound t := by
  obtain ⟨hlegal, -, ⟨hfit, rfl⟩ | ⟨-, hroom, hfit, hrest, rfl⟩⟩ := push_eq_ok.mp h
  · obtain ⟨-, -, hc⟩ := codeLegal_iff (c := ⟨c, bits⟩).mp hlegal
    exact pushedFit_packerSound hs hc hfit
  · exact pushedSplit_packerSound hs hroom hfit hrest

/-- Bytes appended at `out_ptr` keep an open word where it is, below them. -/
theorem append_packerSound {s : State} {n v : Nat} (hs : packerSound s) (hne : s.outPtr ≠ 0)
    (hroom : s.outPtr.toNat + n ≤ s.latch.outLimit.toNat) :
    packerSound { s with
      output := writeBytes s.output s.outPtr.toNat n v, outPtr := BitVec.ofNat 64 (s.outPtr.toNat + n) } := by
  obtain ⟨hpos, hclean, hopen, hwritten⟩ := hs
  obtain ⟨hbelow, hheld⟩ := hopen hne
  unfold packerSound
  dsimp only
  rw [cursor_toNat hroom]
  exact ⟨hpos, hclean, fun _ => ⟨by omega, holdsLE_writeBytes_of_disjoint hheld (.inl hbelow)⟩,
    writtenBelow_append hwritten n v⟩

/-- The packer's invariant reads five fields. -/
theorem packerSound_congr {s t : State} (hs : packerSound s) (hpos : t.bitPos = s.bitPos)
    (hword : t.sigWord = s.sigWord) (hptr : t.outPtr = s.outPtr) (haddr : t.sigAddr = s.sigAddr)
    (hout : t.output = s.output) : packerSound t := by
  unfold packerSound at hs ⊢
  rwa [hpos, hword, hptr, haddr, hout]

theorem raise_packerSound {c : Cause} {s : State} (hs : packerSound s) : packerSound (raise c s) :=
  packerSound_congr hs (raise_bitPos c s) (raise_sigWord c s) (raise_outPtr c s) (raise_sigAddr c s)
    (raise_output c s)

theorem dictUpdate_packerSound {f : Form} {c : Chunk} {h : Hash} {s : State} (hs : packerSound s) :
    packerSound (dictUpdate f c h s) :=
  packerSound_congr hs (dictUpdate_bitPos f c h s) (dictUpdate_sigWord f c h s) (dictUpdate_outPtr f c h s)
    (dictUpdate_sigAddr f c h s) (dictUpdate_output f c h s)

/-! ### An open word -/

/-- A sound packer with a word open: what the appending operations need, since bytes appended at offset 0
would leave no room for a word below them. -/
def wordOpen (s : State) : Prop := packerSound s ∧ s.outPtr ≠ 0

/-- A cursor moved by at least one byte is not 0. -/
theorem cursor_ne_zero {p limit : Word64} {n : Nat} (h : p.toNat + n ≤ limit.toNat) (hn : 0 < n) :
    BitVec.ofNat 64 (p.toNat + n) ≠ 0 := by
  rw [← one_le_toNat_iff, cursor_toNat h]
  omega

theorem startSig_wordOpen {s t : State} (hs : packerSound s) (h : startSig s = .ok t) : wordOpen t := by
  refine ⟨startSig_packerSound hs h, ?_⟩
  obtain ⟨hroom, rfl⟩ := startSig_eq_ok.mp h
  exact cursor_ne_zero hroom (by decide)

theorem push_wordOpen {c : Word64} {bits : BitVec 8} {s t : State} (hs : wordOpen s)
    (h : push c bits s = .ok t) : wordOpen t := by
  obtain ⟨hsound, hne⟩ := hs
  refine ⟨push_packerSound hsound h, ?_⟩
  obtain ⟨-, -, ⟨-, rfl⟩ | ⟨-, hroom, -, -, rfl⟩⟩ := push_eq_ok.mp h
  · exact hne
  · exact cursor_ne_zero hroom (by decide)

theorem append_wordOpen {s : State} {n v : Nat} (hs : wordOpen s) (hn : 0 < n)
    (hroom : s.outPtr.toNat + n ≤ s.latch.outLimit.toNat) :
    wordOpen { s with
      output := writeBytes s.output s.outPtr.toNat n v, outPtr := BitVec.ofNat 64 (s.outPtr.toNat + n) } := by
  obtain ⟨hsound, hne⟩ := hs
  exact ⟨append_packerSound hsound hne hroom, cursor_ne_zero hroom hn⟩

theorem keptByPrimitives_wordOpen : KeptByPrimitives wordOpen where
  push hs h := push_wordOpen hs h
  startSig hs h := startSig_wordOpen hs.1 h
  emitHash16 hs h := by
    obtain ⟨hroom, rfl⟩ := emitHash16_eq_ok.mp h
    exact append_wordOpen hs (by decide) hroom
  tailByte hs h := by
    obtain ⟨hroom, -, rfl⟩ := tailByte_eq_ok.mp h
    exact append_wordOpen hs (by decide) hroom
  recordForm hs := hs
  recordLetter hs := hs
  dictUpdate hs := ⟨dictUpdate_packerSound hs.1, by rw [dictUpdate_outPtr]; exact hs.2⟩
  setLastHash hs := hs
  consume hs := hs
  raise hs := ⟨raise_packerSound hs.1, by rw [raise_outPtr]; exact hs.2⟩

theorem keptOnceOpened_packerSound : KeptOnceOpened packerSound wordOpen where
  primitives := keptByPrimitives_wordOpen
  weaken hs := hs.1
  raise hs := raise_packerSound hs
  startSig hs h := startSig_wordOpen hs h

/-- INIT leaves no word and no byte of OUT accounted for. -/
theorem initState_packerSound (s : State) : packerSound (initState s) :=
  ⟨by simp, by simp, fun hne => absurd (initState_outPtr s) hne, fun _ h => absurd h (by simp)⟩

/-- Settles O28: a session parked at READ_CHUNK or CHECK_SIGNATURE_STATE has a word open, and
PREPARE_NEW_BLOCK opens one before anything is appended. -/
theorem stepKeepsThePackerSound : Obligations.StepKeepsThePackerSound := by
  intro s t hs hpark hstep
  rcases step_cases hstep with ⟨-, rfl⟩ | ⟨c, cs, -, hexec⟩
  · exact hs
  · rcases exec_command_cases hexec with ⟨-, rfl⟩ | ⟨m, hdispatch⟩ | rfl
    · exact raise_packerSound (initState_packerSound _)
    · refine keptOnceOpened_packerSound.dispatch ?_ (fun hr => ?_) hdispatch
      · exact hs
      · exact ⟨hs, parkedSound_outPtr_ne_zero hpark hr⟩
    · exact raise_packerSound hs

end Sys2Proof.Machine
end

section
/-! The host's side of the state stays as it is, and OUT is append-only but for the current word (rules R22,
R40, R65, R80, R83). -/

namespace Sys2Proof.Machine

/-- Settles O11: INIT, `Error` and every dispatch keep the environment, and so does taking a command but for
the commands themselves. -/
theorem stepNeverWritesConfigurationOrInput : Obligations.StepNeverWritesConfigurationOrInput := by
  intro s t hstep
  rcases step_cases hstep with ⟨-, rfl⟩ | ⟨c, cs, -, hexec⟩
  · exact ⟨rfl, rfl⟩
  · rcases exec_command_cases hexec with ⟨-, rfl⟩ | ⟨m, hdispatch⟩ | rfl
    · exact ⟨raise_cfg _ _, raise_input _ _⟩
    · obtain ⟨hinput, hcfg, -, -⟩ :=
        environment_eq_iff.mp ((keptByPrimitives_environment _).dispatch rfl hdispatch)
      exact ⟨hcfg, hinput⟩
    · exact ⟨raise_cfg _ _, raise_input _ _⟩

/-! ### Bytes of OUT that may not change -/

/-- A stream still reads as OUT does in `s` below `out_ptr` outside the current word, and from `b` upwards. -/
def outputKept (s : State) (m : Memory) (b : Nat) : Prop :=
  ∀ x, (x < s.outPtr.toNat ∧ (x < s.sigAddr.toNat ∨ s.sigAddr.toNat + 8 ≤ x)) ∨ b ≤ x →
    readByte m x = readByte s.output x

/-- A store to the current word of `s`, or at or above its `out_ptr`, keeps the rest up to where it ends. -/
theorem outputKept.writeBytes {s : State} {m : Memory} {a n v b b' : Nat} (h : outputKept s m b)
    (ha : (a = s.sigAddr.toNat ∧ n = 8) ∨ s.outPtr.toNat ≤ a) (hn : a + n ≤ b') (hb : b ≤ b') :
    outputKept s (writeBytes m a n v) b' := by
  intro x hx
  rw [sameOutside_writeBytes m a n v x (by omega)]
  exact h x (by omega)

/-- `u` is reached from `s` by appending to OUT: `out_ptr` has not moved backwards, the current word is that of
`s` or one started since, and OUT is kept as `outputKept` says. -/
def appendedTo (s u : State) : Prop :=
  s.outPtr.toNat ≤ u.outPtr.toNat ∧ (u.sigAddr = s.sigAddr ∨ s.outPtr.toNat ≤ u.sigAddr.toNat) ∧
    outputKept s u.output u.outPtr.toNat

theorem appendedTo_refl (s : State) : appendedTo s s :=
  ⟨Nat.le_refl _, .inl rfl, fun _ _ => rfl⟩

/-- Appending reads three fields of the later state. -/
theorem appendedTo_congr {s u v : State} (h : appendedTo s u) (hptr : v.outPtr = u.outPtr)
    (haddr : v.sigAddr = u.sigAddr) (hout : v.output = u.output) : appendedTo s v := by
  unfold appendedTo at h ⊢
  rwa [hptr, haddr, hout]

/-- The current word lies below `out_ptr`, so that writing it through touches nothing above. -/
def appendedBelow (s u : State) : Prop := appendedTo s u ∧ u.sigAddr.toNat + 8 ≤ u.outPtr.toNat

theorem appendedBelow_congr {s u v : State} (h : appendedBelow s u) (hptr : v.outPtr = u.outPtr)
    (haddr : v.sigAddr = u.sigAddr) (hout : v.output = u.output) : appendedBelow s v := by
  obtain ⟨happ, hbelow⟩ := h
  exact ⟨appendedTo_congr happ hptr haddr hout, by rwa [hptr, haddr]⟩

/-! ### The primitive operations -/

theorem startSig_appendedBelow {s u v : State} (hu : appendedTo s u) (h : startSig u = .ok v) :
    appendedBelow s v := by
  obtain ⟨hle, -, hkept⟩ := hu
  obtain ⟨hroom, rfl⟩ := startSig_eq_ok.mp h
  unfold appendedBelow appendedTo
  dsimp only
  rw [cursor_toNat hroom]
  exact ⟨⟨by omega, .inr hle, hkept.writeBytes (.inr hle) (Nat.le_refl _) (Nat.le_add_right _ _)⟩,
    Nat.le_refl _⟩

theorem push_appendedBelow {s u v : State} {c : Word64} {bits : BitVec 8} (hu : appendedBelow s u)
    (h : push c bits u = .ok v) : appendedBelow s v := by
  obtain ⟨⟨hle, haddr, hkept⟩, hbelow⟩ := hu
  have hword : (u.sigAddr.toNat = s.sigAddr.toNat ∧ 8 = 8) ∨ s.outPtr.toNat ≤ u.sigAddr.toNat :=
    haddr.imp (fun e => ⟨congrArg _ e, rfl⟩) id
  have hcur (w : Nat) := hkept.writeBytes (v := w) hword hbelow (Nat.le_refl _)
  obtain ⟨-, -, ⟨-, rfl⟩ | ⟨-, hroom, -, -, rfl⟩⟩ := push_eq_ok.mp h
  · exact ⟨⟨hle, haddr, hcur _⟩, hbelow⟩
  · unfold appendedBelow appendedTo pushedSplit
    dsimp only
    rw [cursor_toNat hroom]
    have hnew := (hcur (u.sigWord ||| (c <<< u.bitPos.toNat)).toNat).writeBytes (n := 8) (v := 0) (.inr hle)
      (Nat.le_refl _) (Nat.le_add_right _ _)
    exact ⟨⟨by omega, .inr hle, hnew.writeBytes (.inr hle) (Nat.le_refl _) (Nat.le_refl _)⟩, Nat.le_refl _⟩

theorem append_appendedBelow {s u : State} {n v : Nat} (hu : appendedBelow s u)
    (hroom : u.outPtr.toNat + n ≤ u.latch.outLimit.toNat) :
    appendedBelow s { u with
      output := writeBytes u.output u.outPtr.toNat n v, outPtr := BitVec.ofNat 64 (u.outPtr.toNat + n) } := by
  obtain ⟨⟨hle, haddr, hkept⟩, hbelow⟩ := hu
  unfold appendedBelow appendedTo
  dsimp only
  rw [cursor_toNat hroom]
  exact ⟨⟨by omega, haddr, hkept.writeBytes (.inr hle) (Nat.le_refl _) (Nat.le_add_right _ _)⟩, by omega⟩

theorem keptByPrimitives_appendedBelow (s : State) : KeptByPrimitives (appendedBelow s) where
  push hu h := push_appendedBelow hu h
  startSig hu h := startSig_appendedBelow hu.1 h
  emitHash16 hu h := by
    obtain ⟨hroom, rfl⟩ := emitHash16_eq_ok.mp h
    exact append_appendedBelow hu hroom
  tailByte hu h := by
    obtain ⟨hroom, -, rfl⟩ := tailByte_eq_ok.mp h
    exact append_appendedBelow hu hroom
  recordForm hu := hu
  recordLetter hu := hu
  dictUpdate hu := appendedBelow_congr hu (dictUpdate_outPtr _ _ _ _) (dictUpdate_sigAddr _ _ _ _)
    (dictUpdate_output _ _ _ _)
  setLastHash hu := hu
  consume hu := hu
  raise hu := appendedBelow_congr hu (raise_outPtr _ _) (raise_sigAddr _ _) (raise_output _ _)

theorem keptOnceOpened_appendedTo (s : State) : KeptOnceOpened (appendedTo s) (appendedBelow s) where
  primitives := keptByPrimitives_appendedBelow s
  weaken hu := hu.1
  raise hu := appendedTo_congr hu (raise_outPtr _ _) (raise_sigAddr _ _) (raise_output _ _)
  startSig hu h := startSig_appendedBelow hu h

/-! ### Commands and handlers -/

/-- Every command but INIT and the reserved one is a dispatch with its arguments latched, and every handler
is the driver entered there. -/
theorem exec_appending_cases {i : Instr} {s t : State}
    (hi : ((∃ il ol, i = .step il ol ∨ i = .flush il ol) ∧ parkedSound s) ∨
      (i = .prepareNewBlock ∨ i = .readChunk ∨ i = .checkSignatureState ∨ i = .flushTail) ∧ s.outPtr ≠ 0)
    (h : exec i s = .next t) :
    (parkedSound s ∧ ∃ m il ol, dispatch (latchCommand s m il ol) = .ok t) ∨
      (s.outPtr ≠ 0 ∧ ∃ p, drive p s = .ok t) := by
  rcases hi with ⟨⟨il, ol, rfl | rfl⟩, hpark⟩ | ⟨rfl | rfl | rfl | rfl, hne⟩
  · exact .inl ⟨hpark, .step, il, ol, outcomeOf_eq_next.mp h⟩
  · exact .inl ⟨hpark, .flush, il, ol, outcomeOf_eq_next.mp h⟩
  · exact .inr ⟨hne, .prepareNewBlock, outcomeOf_eq_next.mp h⟩
  · exact .inr ⟨hne, .readChunk, outcomeOf_eq_next.mp h⟩
  · exact .inr ⟨hne, .checkSignatureState, outcomeOf_eq_next.mp h⟩
  · exact .inr ⟨hne, .flushTail, outcomeOf_eq_next.mp h⟩

/-- A sound packer with a word open starts below `out_ptr`. -/
theorem appendedBelow_refl {s : State} (hs : packerSound s) (hne : s.outPtr ≠ 0) : appendedBelow s s := by
  obtain ⟨-, -, hopen, -⟩ := hs
  obtain ⟨hbelow, -⟩ := hopen hne
  exact ⟨appendedTo_refl s, hbelow⟩

/-- Where a word was open, the current word has not moved backwards. -/
theorem appendedTo.sigAddr_le {s t : State} (h : appendedTo s t) (hs : packerSound s) (hne : s.outPtr ≠ 0) :
    s.sigAddr.toNat ≤ t.sigAddr.toNat := by
  obtain ⟨-, haddr, -⟩ := h
  obtain ⟨-, hbelow⟩ := appendedBelow_refl hs hne
  rcases haddr with heq | hge
  · rw [heq]
  · omega

/-- Settles O30: the three parts (the input cursor, the environment, what is appended) are kept through a
dispatch and through the driver alike. -/
theorem commandsOnlyAppendToOutput : Obligations.CommandsOnlyAppendToOutput := by
  intro i s t hs hi hexec
  have hparts : s.inPtr.toNat ≤ t.inPtr.toNat ∧ environment t = environment s ∧ appendedTo s t := by
    rcases exec_appending_cases hi hexec with ⟨hpark, m, il, ol, h⟩ | ⟨hne, p, h⟩
    · have hin := dispatch_inPtr_le h
      have henv := (keptByPrimitives_environment (latchCommand s m il ol)).dispatch rfl h
      refine ⟨hin, henv, (keptOnceOpened_appendedTo s).dispatch ?_ (fun hr => ?_) h⟩
      · exact appendedTo_refl s
      · exact appendedBelow_refl hs (parkedSound_outPtr_ne_zero hpark hr)
    · exact ⟨drive_inPtr_le h, (keptByPrimitives_environment s).drive rfl h,
        (keptOnceOpened_appendedTo s).drive (appendedTo_refl s) (fun _ => appendedBelow_refl hs hne) h⟩
  obtain ⟨hin, henv, happ⟩ := hparts
  have haddr := happ.sigAddr_le hs
  obtain ⟨hout, -, hkept⟩ := happ
  exact ⟨hin, hout, haddr, fun x hx hword => hkept x (.inl ⟨hx, hword⟩),
    fun x hx => hkept x (.inr hx), environment_eq_iff.mp henv⟩

end Sys2Proof.Machine
end

section
/-! The state after hardware reset and after DICT_RESET (rules R30, R154, R280, R282). -/

namespace Sys2Proof.Machine

theorem reset_storageCanonical : storageCanonical State.reset := by
  obtain ⟨hinput, houtput⟩ := reset_streams_wf
  have hempty (w n : Nat) (fresh : Nat → BitVec w) : Cells.wf fresh n [] :=
    ⟨List.Pairwise.nil, fun _ h => absurd h List.not_mem_nil⟩
  exact ⟨hinput, houtput, hempty _ _ _, hempty _ _ _, hempty _ _ _, hempty _ _ _, hempty _ _ _,
    hempty _ _ _, hempty _ _ _, hempty _ _ _, hempty _ _ _⟩

/-- No word is open and no byte is written. -/
theorem reset_packerSound : packerSound State.reset :=
  ⟨by decide, by decide, fun hne => absurd rfl hne, fun _ h => absurd h (Nat.not_lt_zero _)⟩

/-- At reset `resume` is 3, so no handler is parked at. -/
theorem reset_parkedSound : parkedSound State.reset :=
  ⟨fun h => absurd h (by decide), fun h => absurd h (by decide), fun h => absurd h (by decide)⟩

/-- Settles O25: at reset the tables are fresh and nothing has been written. -/
theorem invariantsHoldAtReset : Obligations.InvariantsHoldAtReset :=
  ⟨reset_storageCanonical, ⟨rankInit_consistent 256, rankInit_consistent 4⟩, reset_packerSound,
    reset_parkedSound, rfl⟩

/-- RANK_INIT's table is fresh cell by cell (rule R129). -/
theorem rankInit_isFresh : rankInit.isFresh :=
  fun x => ⟨usageOf_rankInit x, rankOf_rankInit x, atRank_rankInit x⟩

/-- Every cell of CHUNK and PRED reads 0 after DICT_RESET (rule R154). -/
theorem dictReset_cells (s : State) (h : Hash) :
    chunkAAt (dictReset s) h = 0 ∧ chunkBAt (dictReset s) h = 0 ∧ predAt (dictReset s) h = 0 := by
  simp only [chunkAAt, chunkBAt, predAt, dictReset_chunkA, dictReset_chunkB, dictReset_pred, getCell_nil,
    zeroCell, and_self]

/-- Settles O38: DICT_RESET is a record update of the Dictionary's fields alone. -/
theorem dictResetCoversTheDictionaryOnly : Obligations.DictResetCoversTheDictionaryOnly := by
  intro s
  exact ⟨dictReset s, rfl, rankInit_isFresh, dictReset_cells s, rfl⟩

end Sys2Proof.Machine
end

section
/-! Memory and tables stay in their one canonical form (rules R23, R25, R27, R28, R60; log entries 3, 4). -/

namespace Sys2Proof.Machine

/-! ### Rank tables -/

/-- A table with no cell listed is canonical: every cell is fresh. -/
theorem cells_wf_nil {w n : Nat} {fresh : Nat → BitVec w} : Cells.wf fresh n [] :=
  ⟨List.Pairwise.nil, fun _ h => absurd h List.not_mem_nil⟩

/-- The three arrays of a rank table are canonical: its share of `storageCanonical`. -/
def RankTable.canonical (t : RankTable) : Prop :=
  Cells.wf zeroCell 256 t.usage ∧ Cells.wf identityCell 256 t.rank ∧ Cells.wf identityCell 256 t.byRank

theorem rankInit_canonical : rankInit.canonical := ⟨cells_wf_nil, cells_wf_nil, cells_wf_nil⟩

theorem setUsage_canonical {t : RankTable} (h : t.canonical) (e : BitVec 8) (u : Counter) :
    (t.setUsage e u).canonical := by
  obtain ⟨husage, hrank, hat⟩ := h
  exact ⟨setCell_wf husage e.isLt, hrank, hat⟩

theorem setRank_canonical {t : RankTable} (h : t.canonical) (e r : BitVec 8) :
    (t.setRank e r).canonical := by
  obtain ⟨husage, hrank, hat⟩ := h
  exact ⟨husage, setCell_wf hrank e.isLt, hat⟩

theorem setAtRank_canonical {t : RankTable} (h : t.canonical) (r e : BitVec 8) :
    (t.setAtRank r e).canonical := by
  obtain ⟨husage, hrank, hat⟩ := h
  exact ⟨husage, hrank, setCell_wf hat r.isLt⟩

/-- RECORD_USE counts the use and makes at most the four writes of a swap (rule R121). -/
theorem recordUse_canonical {t : RankTable} (h : t.canonical) (e : BitVec 8) :
    (t.recordUse e).canonical := by
  have hcount : (t.countUse e).canonical := setUsage_canonical h _ _
  rcases recordUse_cases t e with ⟨-, -, heq⟩ | ⟨-, heq⟩ <;> rw [heq]
  · exact setAtRank_canonical (setAtRank_canonical (setRank_canonical (setRank_canonical hcount _ _) _ _) _ _) _ _
  · exact hcount

/-! ### The parts of the storage -/

/-- The dictionary's three tables are canonical: their share of `storageCanonical`. -/
def dictionaryCanonical (s : State) : Prop :=
  Cells.wf zeroCell 65536 s.chunkA ∧ Cells.wf zeroCell 65536 s.chunkB ∧ Cells.wf zeroCell 65536 s.pred

theorem storageCanonical_iff {s : State} : storageCanonical s ↔
    Memory.wf s.input ∧ Memory.wf s.output ∧ s.letter.canonical ∧ s.form.canonical ∧ dictionaryCanonical s := by
  simp only [storageCanonical, RankTable.canonical, dictionaryCanonical, and_assoc]

theorem setBucket_dictionaryCanonical {s : State} (hs : dictionaryCanonical s) (h : Hash) (a b : Chunk) :
    dictionaryCanonical (setBucket s h a b) := by
  obtain ⟨hA, hB, hpred⟩ := hs
  exact ⟨setCell_wf hA h.isLt, setCell_wf hB h.isLt, hpred⟩

theorem setPred_dictionaryCanonical {s : State} (hs : dictionaryCanonical s) (h : Hash) (c : Chunk) :
    dictionaryCanonical (setPred s h c) := by
  obtain ⟨hA, hB, hpred⟩ := hs
  exact ⟨hA, hB, setCell_wf hpred h.isLt⟩

/-- DICT_UPDATE writes a bucket, a prediction, both or neither, by the form (rule R143). -/
theorem dictUpdate_dictionaryCanonical {s : State} (hs : dictionaryCanonical s) (f : Form) (c : Chunk)
    (h : Hash) : dictionaryCanonical (dictUpdate f c h s) := by
  cases f with
  | predicted => exact hs
  | dictA => exact setPred_dictionaryCanonical hs _ _
  | dictB | literal => exact setPred_dictionaryCanonical (setBucket_dictionaryCanonical hs _ _ _) _ _

/-! ### The operations on the state -/

/-- A store that ends below a limit lies below 2^64. -/
theorem store_wf {m : Memory} (hm : Memory.wf m) {limit : Word64} {a n : Nat} (hroom : a + n ≤ limit.toNat)
    (v : Nat) : Memory.wf (writeBytes m a n v) :=
  writeBytes_wf n hm (by have := limit.isLt; omega)

/-- A store to OUT that ends below a limit keeps the storage canonical. -/
theorem store_storageCanonical {s : State} (hs : storageCanonical s) {limit : Word64} {a n : Nat}
    (hroom : a + n ≤ limit.toNat) (v : Nat) :
    storageCanonical { s with output := writeBytes s.output a n v } := by
  obtain ⟨hin, hout, htables⟩ := hs
  exact ⟨hin, store_wf hout hroom v, htables⟩

theorem push_storageCanonical {c : Word64} {bits : BitVec 8} {s t : State} (hs : storageCanonical s)
    (h : push c bits s = .ok t) : storageCanonical t := by
  obtain ⟨-, hword, ⟨-, rfl⟩ | ⟨-, hroom, -, -, rfl⟩⟩ := push_eq_ok.mp h
  · exact store_storageCanonical hs hword _
  · obtain ⟨hin, hout, htables⟩ := hs
    unfold storageCanonical pushedSplit
    dsimp only
    exact ⟨hin, store_wf (store_wf (store_wf hout hword _) hroom _) hroom _, htables⟩

theorem recordForm_storageCanonical {s : State} (hs : storageCanonical s) (f : Form) :
    storageCanonical (recordForm s f) := by
  obtain ⟨hin, hout, hletter, hform, hdict⟩ := storageCanonical_iff.mp hs
  exact storageCanonical_iff.mpr ⟨hin, hout, hletter, recordUse_canonical hform _, hdict⟩

theorem recordLetter_storageCanonical {s : State} (hs : storageCanonical s) (b : Byte) :
    storageCanonical (recordLetter s b) := by
  obtain ⟨hin, hout, hletter, hform, hdict⟩ := storageCanonical_iff.mp hs
  exact storageCanonical_iff.mpr ⟨hin, hout, recordUse_canonical hletter _, hform, hdict⟩

theorem dictUpdate_storageCanonical {s : State} (hs : storageCanonical s) (f : Form) (c : Chunk) (h : Hash) :
    storageCanonical (dictUpdate f c h s) := by
  obtain ⟨hin, hout, hletter, hform, hdict⟩ := storageCanonical_iff.mp hs
  refine storageCanonical_iff.mpr ⟨?_, ?_, ?_, ?_, dictUpdate_dictionaryCanonical hdict f c h⟩
  · rwa [dictUpdate_input]
  · rwa [dictUpdate_output]
  · rwa [dictUpdate_letter]
  · rwa [dictUpdate_form]

/-- DICT_RESET lists no cell of the Dictionary's tables (rule R154). -/
theorem dictReset_storageCanonical {s : State} (hs : storageCanonical s) : storageCanonical (dictReset s) := by
  obtain ⟨hin, hout, -, hform, -⟩ := storageCanonical_iff.mp hs
  exact storageCanonical_iff.mpr
    ⟨hin, hout, rankInit_canonical, hform, cells_wf_nil, cells_wf_nil, cells_wf_nil⟩

/-- A block end writes counters and, with the periodic reset due, does a DICT_RESET (rule R209). -/
theorem endBlock_storageCanonical {s : State} (hs : storageCanonical s) : storageCanonical (endBlock s) := by
  unfold endBlock
  dsimp only
  split_ifs
  · exact dictReset_storageCanonical (s := { clearBlockCounters s with resetCycle := s.resetCycle + 1 }) hs
  · exact hs
  · exact hs

/-- Of all causes only a new block touches a table. -/
theorem raise_storageCanonical {c : Cause} {s : State} (hs : storageCanonical s) :
    storageCanonical (raise c s) := by
  cases c with
  | newBlock => exact endBlock_storageCanonical hs
  | _ => exact hs

/-- INIT is a DICT_RESET, a fresh FORM table, and registers (rule R201). -/
theorem initState_storageCanonical {s : State} (hs : storageCanonical s) : storageCanonical (initState s) := by
  obtain ⟨hin, hout, hletter, -, hdict⟩ := storageCanonical_iff.mp (dictReset_storageCanonical hs)
  exact storageCanonical_iff.mpr ⟨hin, hout, hletter, rankInit_canonical, hdict⟩

theorem keptByPrimitives_storageCanonical : KeptByPrimitives storageCanonical where
  push hs h := push_storageCanonical hs h
  startSig hs h := by
    obtain ⟨hroom, rfl⟩ := startSig_eq_ok.mp h
    exact store_storageCanonical hs hroom _
  emitHash16 hs h := by
    obtain ⟨hroom, rfl⟩ := emitHash16_eq_ok.mp h
    exact store_storageCanonical hs hroom _
  tailByte hs h := by
    obtain ⟨hroom, -, rfl⟩ := tailByte_eq_ok.mp h
    exact store_storageCanonical hs hroom _
  recordForm hs := recordForm_storageCanonical hs _
  recordLetter hs := recordLetter_storageCanonical hs _
  dictUpdate hs := dictUpdate_storageCanonical hs _ _ _
  setLastHash hs := hs
  consume hs := hs
  raise hs := raise_storageCanonical hs

/-- Settles O26: every write of a cell or of OUT goes through `setCell` or `writeBytes` within the table's or
the stream's range, and the resets list no cell at all. -/
theorem stepKeepsStorageCanonical : Obligations.StepKeepsStorageCanonical := by
  intro s t hs hstep
  exact keptByPrimitives_storageCanonical.step (fun _ h _ => initState_storageCanonical h)
    (fun _ _ _ _ h => h) (fun _ _ h => h) hs hstep

end Sys2Proof.Machine
end

section
/-! What the rows SIGWORD and HASH16 store in OUT (rules R67, R68, R101, R171, R177; log entry 7). -/

namespace Sys2Proof.Machine

/-- Two stores in a row to the same bytes are the second. -/
theorem storedAt_writeBytes_twice (m : Memory) (a n v w : Nat) :
    storedAt m (writeBytes (writeBytes m a n v) a n w) a n w := by
  refine ⟨holdsLE_writeBytes _ a n w, fun x hx => ?_⟩
  rw [sameOutside_writeBytes _ a n w x hx, sameOutside_writeBytes m a n v x hx]

/-- Settles O59: the row is a START_SIG, whose zero word the 64 bits of `w` then replace. -/
theorem sigwordRowPlacesAFullWord : Obligations.SigwordRowPlacesAFullWord := by
  intro s w hroom
  have hplace := (placeWord_eq_ok (w := w)).mpr ⟨hroom, rfl⟩
  refine ⟨_, outcomeOf_eq_next.mpr hplace, ?_, by dsimp only⟩
  dsimp only
  exact storedAt_writeBytes_twice s.output s.outPtr.toNat 8 0 w.toNat

/-- A hash held little end first is its low byte and then its high byte (rule R68). -/
theorem holdsLE_hash {m : Memory} {a : Nat} {h : Hash} (hm : holdsLE m a 2 h.toNat) :
    readByte m a = some (h.setWidth 8) ∧ readByte m (a + 1) = some ((h >>> 8).setWidth 8) := by
  have hlow : BitVec.ofNat 8 (h.toNat / 256 ^ 0) = h.setWidth 8 := by bv_omega
  have hhigh : BitVec.ofNat 8 (h.toNat / 256 ^ 1) = (h >>> 8).setWidth 8 := by
    apply BitVec.eq_of_toNat_eq
    simp [Nat.shiftRight_eq_div_pow]
  rw [← hlow, ← hhigh]
  exact ⟨hm 0 (by decide), hm 1 (by decide)⟩

/-- Settles O56: EMIT_HASH16 and the row HASH16 are the same two-byte store at `out_ptr`. -/
theorem hashPayloadIsTwoBytesAtTheCursor : Obligations.HashPayloadIsTwoBytesAtTheCursor := by
  intro s h hroom
  have hemit := (emitHash16_eq_ok (h := h)).mpr ⟨hroom, rfl⟩
  obtain ⟨hbytes, hframe⟩ := storedAt_writeBytes s.output s.outPtr.toNat 2 h.toNat
  obtain ⟨hlow, hhigh⟩ := holdsLE_hash hbytes
  exact ⟨⟨_, outcomeOf_eq_next.mpr hemit, hlow, hhigh, hframe, rfl⟩,
    ⟨_, outcomeOf_eq_next.mpr hemit, ⟨hbytes, hframe⟩, rfl⟩⟩

end Sys2Proof.Machine
end

section
/-! Where the accesses to the streams and the cursors stop (rules R62, R76, R298; log entry 9). -/

namespace Sys2Proof.Machine

/-! ### Reads, writes and cursors -/

theorem memWrite_overrun {s : State} {a n : Nat} (h : s.latch.outLimit.toNat < a + n) (v : Nat) :
    memWrite s a n v = .error .outputOverrun := if_pos h

/-- MemRead stops at `in_limit` (rule R62). -/
theorem memRead_beyond {s : State} {a n : Nat} (h : s.latch.inLimit.toNat < a + n) :
    memRead s a n = .error .inputOverrun := if_pos h

/-- MemRead stops at a byte the host has not supplied, below `in_limit` or not (log entry 9). -/
theorem memRead_unsupplied {s : State} {a : Nat} (h : readByte s.input a = none) :
    memRead s a 1 = .error .inputOverrun := by
  simp [memRead, readBytes, h]

theorem advance_overflow {p : Word64} {n : Nat} (h : 2 ^ 64 ≤ p.toNat + n) :
    advance p n = .error .offsetOverflow := if_neg (Nat.not_lt.mpr h)

/-! ### The operations -/

theorem startSig_overrun {s : State} (h : s.latch.outLimit.toNat < s.outPtr.toNat + 8) :
    startSig s = .error .outputOverrun := by
  rw [startSig, memWrite_overrun h, error_bind]

theorem placeWord_overrun {s : State} (h : s.latch.outLimit.toNat < s.outPtr.toNat + 8) (w : Word64) :
    placeWord w s = .error .outputOverrun := by
  rw [placeWord, startSig_overrun h, error_bind]

theorem emitHash16_overrun {s : State} (h : s.latch.outLimit.toNat < s.outPtr.toNat + 2) (x : Hash) :
    emitHash16 x s = .error .outputOverrun := by
  rw [emitHash16, memWrite_overrun h, error_bind]

theorem tailByte_overrun {s : State} (h : s.latch.outLimit.toNat < s.outPtr.toNat + 1) (b : Byte) :
    tailByte b s = .error .outputOverrun := by
  rw [tailByte, memWrite_overrun h, error_bind]

/-- With room in OUT for the byte, `out_ptr` cannot overflow, so it is `in_ptr` that does (rule R76). -/
theorem tailByte_overflow {s : State} (hroom : s.outPtr.toNat + 1 ≤ s.latch.outLimit.toNat)
    (h : 2 ^ 64 ≤ s.inPtr.toNat + 1) (b : Byte) : tailByte b s = .error .offsetOverflow := by
  have hlimit := s.latch.outLimit.isLt
  have hwrite := (memWrite_eq_ok (v := b.toNat)).mpr ⟨hroom, rfl⟩
  have hout := advance_eq_ok.mpr ⟨(by omega : s.outPtr.toNat + 1 < 2 ^ 64), rfl⟩
  rw [tailByte, hwrite, ok_bind, hout, ok_bind, advance_overflow h, error_bind]

/-- A legal PUSH stops where the current word, or the new word its field needs, lies beyond `out_limit`. -/
theorem push_overrun {s : State} {c : Word64} {bits : BitVec 8} (hlegal : pushOperandsLegal c bits = true)
    (h : s.latch.outLimit.toNat < s.sigAddr.toNat + 8 ∨
      (64 < s.bitPos.toNat + bits.toNat ∧ s.latch.outLimit.toNat < s.outPtr.toNat + 8)) :
    push c bits s = .error .outputOverrun := by
  rw [push, if_pos hlegal]
  by_cases hword : s.latch.outLimit.toNat < s.sigAddr.toNat + 8
  · rw [orIntoWord, memWrite_overrun hword, error_bind, error_bind]
  · obtain ⟨hover, hnew⟩ := h.resolve_left hword
    have hor := (orIntoWord_eq_ok (c := c)).mpr ⟨Nat.not_lt.mp hword, rfl⟩
    rw [hor, ok_bind, if_pos hover, startSig_overrun, error_bind]
    exact hnew

/-- With fewer than four bytes left the first chunk cannot be read. -/
theorem processUnit_beyond {s : State} (h : inAvail s < 4) : processUnit s = .error .inputOverrun := by
  have hread : s.latch.inLimit.toNat < s.inPtr.toNat + 4 := by unfold inAvail at h; omega
  rw [processUnit, processChunks, memRead_beyond hread, error_bind, error_bind]

/-- EMIT_TAIL's first turn reads the byte at `in_ptr`. -/
theorem emitTail_unsupplied {s : State} (h : 0 < inAvail s) (hnone : readByte s.input s.inPtr.toNat = none) :
    emitTail s = .error .inputOverrun := by
  obtain ⟨n, hn⟩ := Nat.exists_eq_add_one.mpr h
  rw [emitTail, hn, tailBytes, memRead_unsupplied hnone, error_bind]

/-- Settles O50: each row is the operation whose stop is a lemma above. -/
theorem accessesBeyondALimitStop : Obligations.AccessesBeyondALimitStop := by
  intro s
  refine ⟨fun h w => ?_, fun h x => ⟨?_, ?_⟩, fun h b => ?_, fun c bits hlegal h => ?_, fun h => ?_,
    fun h hnone => ?_, fun hroom h b => ?_⟩ <;> refine outcomeOf_eq_fault.mpr ?_
  · exact placeWord_overrun h w
  · exact emitHash16_overrun h x
  · exact emitHash16_overrun h x
  · exact tailByte_overrun h b
  · exact push_overrun hlegal h
  · exact processUnit_beyond h
  · exact emitTail_unsupplied h hnone
  · exact tailByte_overflow hroom (Nat.le_of_eq h.symm) b

end Sys2Proof.Machine
end

section
/-! PROCESS_UNIT chunk by chunk (rules R66, R79, R213, R214). -/

namespace Sys2Proof.Machine

/-- A chunk that is read is four bytes that are there. -/
theorem memRead_chunk {s : State} {a : Nat} {bs : List Byte} (h : memRead s a 4 = .ok bs) :
    ∃ b0 b1 b2 b3, bs = [b0, b1, b2, b3] ∧ readBytes s.input a 4 = some [b0, b1, b2, b3] := by
  obtain ⟨-, hread⟩ := memRead_eq_ok.mp h
  obtain ⟨hlen, -⟩ := readBytes_eq_some.mp hread
  obtain ⟨b0, b1, b2, b3, rfl⟩ := List.length_eq_four.mp hlen
  exact ⟨b0, b1, b2, b3, rfl, hread⟩

theorem processChunk_input {c : Chunk} {s t : State} (h : processChunk c s = .ok t) : t.input = s.input := by
  obtain ⟨hinput, -⟩ := environment_eq_iff.mp ((keptByPrimitives_environment s).processChunk rfl h)
  exact hinput

/-- The states `u` passes through are those of `n` chunks of the stream `m` from offset `a`, processed one
after another, each on the state the one before it left. -/
def chunkRun (m : Memory) (a n : Nat) (u : Nat → State) : Prop :=
  ∀ k, k < n → ∃ b0 b1 b2 b3, readBytes m (a + 4 * k) 4 = some [b0, b1, b2, b3] ∧
    processChunk (le32 b0 b1 b2 b3) (u k) = .ok (u (k + 1))

/-- A sequence of states with one more state in front. -/
def runFrom (s : State) (u : Nat → State) : Nat → State
  | 0 => s
  | k + 1 => u k

/-- A run may be extended by the chunk in front of it. -/
theorem chunkRun_runFrom {m : Memory} {a n : Nat} {s : State} {u : Nat → State} {b0 b1 b2 b3 : Byte}
    (hread : readBytes m a 4 = some [b0, b1, b2, b3])
    (hchunk : processChunk (le32 b0 b1 b2 b3) s = .ok (u 0)) (hrun : chunkRun m (a + 4) n u) :
    chunkRun m a (n + 1) (runFrom s u) := by
  intro k hk
  cases k with
  | zero => exact ⟨b0, b1, b2, b3, hread, hchunk⟩
  | succ k =>
    have hrest := hrun k (Nat.lt_of_succ_lt_succ hk)
    rwa [show a + 4 + 4 * k = a + 4 * (k + 1) by omega] at hrest

/-- The loop over the chunks is such a run, on the input it started with. -/
theorem processChunks_run (n : Nat) : ∀ {a : Nat} {s t : State}, processChunks n a s = .ok t →
    ∃ u, u 0 = s ∧ u n = t ∧ chunkRun s.input a n u := by
  induction n with
  | zero =>
    intro a s t h
    cases h
    exact ⟨fun _ => s, rfl, rfl, fun _ hk => absurd hk (Nat.not_lt_zero _)⟩
  | succ n ih =>
    intro a s t h
    obtain ⟨bs, v, hread, hchunk, hrest⟩ := processChunks_succ_eq_ok.mp h
    obtain ⟨b0, b1, b2, b3, rfl, hbytes⟩ := memRead_chunk hread
    obtain ⟨u, rfl, rfl, hrun⟩ := ih hrest
    rw [processChunk_input hchunk] at hrun
    exact ⟨runFrom s u, rfl, rfl, chunkRun_runFrom hbytes hchunk hrun⟩

/-- Settles O44: PROCESS_UNIT is the loop over eight chunks, which leaves `in_ptr` alone, and then the
cursor. -/
theorem processUnitIsEightChunksInOrder : Obligations.ProcessUnitIsEightChunksInOrder := by
  intro s t hexec
  obtain ⟨v, hloop, -, rfl⟩ := processUnit_eq_ok.mp (outcomeOf_eq_next.mp hexec)
  have hptr := processChunks_inPtr 8 hloop
  obtain ⟨u, hfirst, rfl, hrun⟩ := processChunks_run 8 hloop
  refine ⟨u, hfirst, fun k hk => ?_, by rw [hptr]⟩
  obtain ⟨b0, b1, b2, b3, hbytes, hchunk⟩ := hrun k hk
  exact ⟨b0, b1, b2, b3, hbytes, outcomeOf_eq_next.mpr hchunk⟩

end Sys2Proof.Machine
end

section
/-! Reading the code words of `spec/30_encoding.md`: codes off a bit stream, the words of each code space, and
the statements on the encoder and the decoder (rules R90 to R102, R107, R111). -/

namespace Sys2Proof.Machine

/-! ### Codes off a bit stream -/

theorem stripBits_append (as rest : List Bool) : stripBits as (as ++ rest) = some rest :=
  stripBits_eq_some.mpr rfl

theorem stripBits_eq_none_iff {as bs : List Bool} : stripBits as bs = none ↔ ¬as <+: bs := by
  simp only [Option.eq_none_iff_forall_ne_some, ne_eq, stripBits_eq_some, List.prefix_iff_exists_eq_append,
    not_exists]

/-- Of two codes neither of which starts the other, one is not stripped from a stream that starts with the
other. -/
theorem stripBits_append_eq_none {as bs : List Bool} (hab : stripBits as bs = none)
    (hba : stripBits bs as = none) (rest : List Bool) : stripBits as (bs ++ rest) = none := by
  rw [stripBits_eq_none_iff] at hab hba ⊢
  intro h
  exact (List.prefix_or_prefix_of_prefix h (List.prefix_append bs rest)).elim hab hba

/-- A stream that starts with an entry of a self-delimiting table is read as that entry. -/
theorem matchCode_append {table : List Code} (hdelim : codesSelfDelimiting table) (rest : List Bool)
    {c : Code} : ∀ {r : Nat} (i : Nat), table[r]? = some c →
      matchCode table i (c.bitString ++ rest) = some (i + r, rest) := by
  induction table with
  | nil => intro r i hc; cases hc
  | cons d cs ih =>
    obtain ⟨hhead, htail⟩ := List.pairwise_cons.mp hdelim
    intro r i hc
    cases r with
    | zero =>
      obtain rfl : d = c := Option.some.inj hc
      simp only [matchCode, stripBits_append, Nat.add_zero]
    | succ r =>
      obtain ⟨hdc, hcd⟩ := hhead c (List.mem_of_getElem? hc)
      simp only [matchCode, stripBits_append_eq_none hdc hcd, ih htail (i + 1) hc, Nat.add_assoc,
        Nat.add_comm 1 r]

/-- A stream that starts with no entry of a table is not read as one. -/
theorem matchCode_eq_none {table : List Code} {stream : List Bool}
    (h : ∀ c ∈ table, stripBits c.bitString stream = none) (i : Nat) : matchCode table i stream = none := by
  induction table generalizing i with
  | nil => rfl
  | cons d cs ih =>
    simp only [matchCode, h d List.mem_cons_self, ih fun c hc => h c (List.mem_cons_of_mem d hc)]

/-- None of the five codes of rules R98 and R99 starts another. -/
theorem fixedCodes_selfDelimiting : codesSelfDelimiting (fixedEndCode :: fixedFormCode) := by decide

theorem decodeSelector_formCode {cfg : Config} (hfixed : selectorCodesFixed cfg) {r : Nat} {c : Code}
    (hc : fixedFormCode[r]? = some c) (rest : List Bool) :
    decodeSelector cfg (c.bitString ++ rest) = some (selectorRow r, rest) := by
  obtain ⟨hform, -⟩ := hfixed
  obtain ⟨-, hdelim⟩ := List.pairwise_cons.mp fixedCodes_selfDelimiting
  have htake : cfg.formCode.take 4 = fixedFormCode := by rw [hform]; rfl
  simp only [decodeSelector, htake, matchCode_append hdelim rest 0 hc, Nat.zero_add]

theorem decodeSelector_endCode {cfg : Config} (hfixed : selectorCodesFixed cfg) (rest : List Bool) :
    decodeSelector cfg (fixedEndCode.bitString ++ rest) = some (.selEnd, rest) := by
  obtain ⟨hform, hend⟩ := hfixed
  obtain ⟨hdelim, -⟩ := List.pairwise_cons.mp fixedCodes_selfDelimiting
  have htake : cfg.formCode.take 4 = fixedFormCode := by rw [hform]; rfl
  have hnone : matchCode fixedFormCode 0 (fixedEndCode.bitString ++ rest) = none :=
    matchCode_eq_none (fun c hc => have ⟨hec, hce⟩ := hdelim c hc; stripBits_append_eq_none hce hec rest) 0
  simp only [decodeSelector, htake, hnone, hend, stripBits_append, Option.map_some]

theorem decodeLetter_codebook {cfg : Config} (hdelim : codesSelfDelimiting cfg.codebook) {r : BitVec 8}
    {c : Code} (hc : cfg.codebook[r.toNat]? = some c) (rest : List Bool) :
    decodeLetter cfg (c.bitString ++ rest) = some (.letter r, rest) := by
  simp only [decodeLetter, matchCode_append hdelim rest 0 hc, Option.map_some, Nat.zero_add,
    BitVec.ofNat_toNat, BitVec.setWidth_eq]

/-! ### The words of each code space -/

/-- The packing of the triple loses nothing (log entry 5). -/
theorem commandWord_ofNat_toNat (c : CommandWord) : CommandWord.ofNat c.toNat = c := by
  obtain ⟨cmd, il, ol⟩ := c
  have hcmd := cmd.isLt
  have hil := il.isLt
  have hlimits : (cmd.toNat + 4 * (il.toNat + 2 ^ 64 * ol.toNat)) / 4 = il.toNat + 2 ^ 64 * ol.toNat := by omega
  have hout : (il.toNat + 2 ^ 64 * ol.toNat) / 2 ^ 64 = ol.toNat := by omega
  simp only [CommandWord.ofNat, CommandWord.toNat, hlimits, hout, CommandWord.mk.injEq]
  refine ⟨?_, ?_, ?_⟩ <;> apply BitVec.eq_of_toNat_eq <;> rw [BitVec.toNat_ofNat] <;> omega

/-- A command's word is its triple (rules R91, R95). -/
theorem decode_commandWord (cfg : Config) (c : CommandWord) :
    decode cfg ⟨.cmd, 130, c.toNat⟩ = .ok (decodeCommand c) := by
  have hfits := Nat.not_le.mpr (Sys2Proof.Laws.commandWord_toNat_lt c)
  simp only [decode, hfits, if_false, if_true, commandWord_ofNat_toNat]

theorem decode_resumeWord (cfg : Config) (r : BitVec 2) :
    decode cfg ⟨.resume, 2, r.toNat⟩ = .ok (decodeResume r) := by
  simp only [decode, Nat.not_le.mpr r.isLt, if_false, if_true, BitVec.ofNat_toNat, BitVec.setWidth_eq]

theorem decode_statusWord (cfg : Config) (st : Status) :
    decode cfg ⟨.status, 3, (statusCode st).toNat⟩ = .ok st.instr := by
  cases st <;> rfl

/-- A selector word of a code that fits its length is what its bits are read as. -/
theorem decode_selWord {cfg : Config} {c : Code} {i : Instr} (hlegal : codeLegal c = true)
    (h : decodeSelector cfg c.bitString = some (i, [])) : decode cfg (c.word .sel) = .ok i := by
  have hfits := Nat.not_le.mpr (Sys2Proof.Laws.codeLegal_lt hlegal)
  rw [Code.bitString] at h
  simp only [decode, Code.word, hfits, if_false, h]

/-- The same for a letter word. -/
theorem decode_letterWord {cfg : Config} {c : Code} {i : Instr} (hlegal : codeLegal c = true)
    (h : decodeLetter cfg c.bitString = some (i, [])) : decode cfg (c.word .letter) = .ok i := by
  have hfits := Nat.not_le.mpr (Sys2Proof.Laws.codeLegal_lt hlegal)
  rw [Code.bitString] at h
  simp only [decode, Code.word, hfits, if_false, h]

theorem decode_formCodeWord {cfg : Config} (hfixed : selectorCodesFixed cfg) {r : Nat} {w : CodeWord}
    (hw : (cfg.formCode[r]?).map (Code.word .sel) = some w) : decode cfg w = .ok (selectorRow r) := by
  have ⟨hform, _⟩ := hfixed
  rw [hform] at hw
  obtain ⟨c, hc, rfl⟩ := Option.map_eq_some_iff.mp hw
  obtain ⟨hr, -⟩ := List.getElem?_eq_some_iff.mp hc
  obtain ⟨d, hd, hlegal⟩ := fixedFormCode_at hr
  obtain rfl : c = d := Option.some.inj (hc.symm.trans hd)
  refine decode_selWord hlegal ?_
  rw [← List.append_nil c.bitString, decodeSelector_formCode hfixed hc]

theorem decode_endCodeWord {cfg : Config} (hfixed : selectorCodesFixed cfg) :
    decode cfg (cfg.endCode.word .sel) = .ok .selEnd := by
  have ⟨_, hend⟩ := hfixed
  rw [hend]
  refine decode_selWord fixedEndCode_legal ?_
  rw [← List.append_nil fixedEndCode.bitString, decodeSelector_endCode hfixed]

theorem decode_codebookWord {cfg : Config} (hdelim : codesSelfDelimiting cfg.codebook) {r : BitVec 8}
    {c : Code} (hc : cfg.codebook[r.toNat]? = some c) (hlegal : codeLegal c = true) :
    decode cfg (c.word .letter) = .ok (.letter r) := by
  refine decode_letterWord hlegal ?_
  rw [← List.append_nil c.bitString, decodeLetter_codebook hdelim hc]

theorem decode_tailWord (cfg : Config) (b : Byte) : decode cfg ⟨.bytes, 8, b.toNat⟩ = .ok (.tail b) := by
  simp only [decode, decodeBytes, Nat.not_le.mpr b.isLt, if_false, if_true, BitVec.ofNat_toNat,
    BitVec.setWidth_eq]

theorem decode_hashWord (cfg : Config) (h : Hash) : decode cfg ⟨.bytes, 16, h.toNat⟩ = .ok (.hash16 h) := by
  simp only [decode, decodeBytes, Nat.not_le.mpr h.isLt, if_false, if_true, BitVec.ofNat_toNat,
    BitVec.setWidth_eq, Nat.reduceEqDiff]

theorem decode_signatureWord (cfg : Config) (v : Word64) :
    decode cfg ⟨.bytes, 64, v.toNat⟩ = .ok (.sigword v) := by
  simp only [decode, decodeBytes, Nat.not_le.mpr v.isLt, if_false, if_true, BitVec.ofNat_toNat,
    BitVec.setWidth_eq, Nat.reduceEqDiff]

/-! ### The statements -/

/-- The form of the proof for a row whose one code word is known. -/
theorem decode_of_some {cfg : Config} {v w : CodeWord} {i : Instr} (hw : some v = some w)
    (h : decode cfg v = .ok i) : decode cfg w = .ok i := Option.some.inj hw ▸ h

/-- Settles O1, row by row: each code space's words decode to their rows, and an internal operation has
none. -/
theorem decodeOfEncodeIsTheInstruction : Obligations.DecodeOfEncodeIsTheInstruction := by
  intro cfg i w hbook hdelim hfixed hw
  cases i with
  | init => exact decode_of_some hw (decode_commandWord cfg ⟨0, 0, 0⟩)
  | step il ol => exact decode_of_some hw (decode_commandWord cfg ⟨1, il, ol⟩)
  | flush il ol => exact decode_of_some hw (decode_commandWord cfg ⟨2, il, ol⟩)
  | cmdReserved => exact decode_of_some hw (decode_commandWord cfg ⟨3, 0, 0⟩)
  | prepareNewBlock => exact decode_of_some hw (decode_resumeWord cfg 0)
  | readChunk => exact decode_of_some hw (decode_resumeWord cfg 1)
  | checkSignatureState => exact decode_of_some hw (decode_resumeWord cfg 2)
  | resumeUnrecognized => exact decode_of_some hw (decode_resumeWord cfg 3)
  | statusReady => exact decode_of_some hw (decode_statusWord cfg .ready)
  | statusStallOnInput => exact decode_of_some hw (decode_statusWord cfg .stallOnInput)
  | statusStallOnOutput => exact decode_of_some hw (decode_statusWord cfg .stallOnOutput)
  | statusInfoEfficiencyCheck => exact decode_of_some hw (decode_statusWord cfg .infoEfficiencyCheck)
  | statusInfoNewBlock => exact decode_of_some hw (decode_statusWord cfg .infoNewBlock)
  | statusError => exact decode_of_some hw (decode_statusWord cfg .error)
  | selRank0 | selRank1 | selRank2 | selRank3 => exact decode_formCodeWord hfixed hw
  | selEnd => exact decode_of_some hw (decode_endCodeWord hfixed)
  | letter r =>
    obtain ⟨c, hc, rfl⟩ := Option.map_eq_some_iff.mp hw
    obtain ⟨-, hlegal⟩ := codebookAccepted_iff.mp hbook
    exact decode_codebookWord hdelim hc (hlegal c (List.mem_of_getElem? hc))
  | hash16 h => exact decode_of_some hw (decode_hashWord cfg h)
  | sigword v => exact decode_of_some hw (decode_signatureWord cfg v)
  | tail b => exact decode_of_some hw (decode_tailWord cfg b)
  | processUnit | flushTail | recordUseForm | recordUseLetter | rankInit | hash | classify | dictUpdate
  | processChunk | dictReset | startSig | push | emitSelector | emitHash16 | emitLetter | emitLiteral | emitEnd
  | emitTail => cases hw

/-- Everything a code word can decode to, by its code space. -/
theorem decode_cases {cfg : Config} {w : CodeWord} {i : Instr} (h : decode cfg w = .ok i) :
    (∃ c, i = decodeCommand c) ∨ (∃ r, i = decodeResume r) ∨ (∃ st, i = Status.instr st) ∨
    (∃ stream, decodeSelector cfg stream = some (i, [])) ∨
    (∃ stream, decodeLetter cfg stream = some (i, [])) ∨ decodeBytes w.len w.val = .ok i := by
  obtain ⟨sp, len, val⟩ := w
  unfold decode at h
  split at h
  · cases h
  · cases sp with
    | cmd => dsimp only at h; split at h <;> cases h; exact .inl ⟨_, rfl⟩
    | resume => dsimp only at h; split at h <;> cases h; exact .inr (.inl ⟨_, rfl⟩)
    | status =>
      dsimp only at h
      split at h
      · split at h <;> cases h
        exact .inr (.inr (.inl ⟨_, rfl⟩))
      · cases h
    | sel =>
      dsimp only at h
      split at h
      · next hsel => cases h; exact .inr (.inr (.inr (.inl ⟨_, hsel⟩)))
      · cases h
    | letter =>
      dsimp only at h
      split at h
      · next hletter => cases h; exact .inr (.inr (.inr (.inr (.inl ⟨_, hletter⟩))))
      · cases h
    | bytes => exact .inr (.inr (.inr (.inr (.inr h))))
    | internal => cases h

theorem decodeCommand_internal (c : CommandWord) : (decodeCommand c).internal = false := by
  unfold decodeCommand
  split <;> rfl

theorem decodeResume_internal (r : BitVec 2) : (decodeResume r).internal = false := by
  unfold decodeResume
  split <;> rfl

theorem statusInstr_internal (st : Status) : st.instr.internal = false := by cases st <;> rfl

theorem selectorRow_internal (r : Nat) : (selectorRow r).internal = false := by
  unfold selectorRow
  split <;> rfl

theorem decodeSelector_internal {cfg : Config} {stream rest : List Bool} {i : Instr}
    (h : decodeSelector cfg stream = some (i, rest)) : i.internal = false := by
  unfold decodeSelector at h
  split at h
  · cases h; exact selectorRow_internal _
  · obtain ⟨_, -, hend⟩ := Option.map_eq_some_iff.mp h
    cases hend
    rfl

theorem decodeLetter_internal {cfg : Config} {stream rest : List Bool} {i : Instr}
    (h : decodeLetter cfg stream = some (i, rest)) : i.internal = false := by
  obtain ⟨_, -, hletter⟩ := Option.map_eq_some_iff.mp h
  cases hletter
  rfl

theorem decodeBytes_internal {len val : Nat} {i : Instr} (h : decodeBytes len val = .ok i) :
    i.internal = false := by
  unfold decodeBytes at h
  split_ifs at h <;> cases h <;> rfl

/-- A table has a code word for each rank below its length. -/
theorem codeWord_isSome {table : List Code} {r : Nat} (h : r < table.length) (sp : Space) :
    ((table[r]?).map (Code.word sp)).isSome = true := by
  rw [List.getElem?_eq_getElem h]
  rfl

/-- Settles O2: no code space has an internal row, and of the others only the rows that look a rank up in a
table could lack a code word. -/
theorem onlyInternalOperationsHaveNoCode : Obligations.OnlyInternalOperationsHaveNoCode := by
  refine ⟨fun cfg w i h => ?_, fun cfg i hbook hform => ?_⟩
  · rcases decode_cases h with ⟨c, rfl⟩ | ⟨r, rfl⟩ | ⟨st, rfl⟩ | ⟨_, hsel⟩ | ⟨_, hletter⟩ | hbytes
    · exact decodeCommand_internal c
    · exact decodeResume_internal r
    · exact statusInstr_internal st
    · exact decodeSelector_internal hsel
    · exact decodeLetter_internal hletter
    · exact decodeBytes_internal hbytes
  · obtain ⟨hlen, -⟩ := codebookAccepted_iff.mp hbook
    cases i with
    | selRank0 | selRank1 | selRank2 | selRank3 =>
      exact iff_of_true (codeWord_isSome (by omega) .sel) rfl
    | letter r => exact iff_of_true (codeWord_isSome (hlen ▸ r.isLt) .letter) rfl
    | init | step | flush | cmdReserved | prepareNewBlock | readChunk | checkSignatureState
    | resumeUnrecognized | statusReady | statusStallOnInput | statusStallOnOutput
    | statusInfoEfficiencyCheck | statusInfoNewBlock | statusError | selEnd | hash16 | sigword | tail =>
      exact iff_of_true rfl rfl
    | processUnit | flushTail | recordUseForm | recordUseLetter | rankInit | hash | classify | dictUpdate
    | processChunk | dictReset | startSig | push | emitSelector | emitHash16 | emitLetter | emitLiteral
    | emitEnd | emitTail => exact iff_of_false Bool.false_ne_true Bool.false_ne_true.symm

/-- Settles O3: each stream is one of the five fixed codes and then the rest. -/
theorem selectorStreamReadsFromItsFirstBit : Obligations.SelectorStreamReadsFromItsFirstBit := by
  intro cfg rest hfixed
  exact ⟨decodeSelector_formCode (r := 0) hfixed rfl rest, decodeSelector_endCode hfixed rest,
    decodeSelector_formCode (r := 1) hfixed rfl rest, decodeSelector_formCode (r := 2) hfixed rfl rest,
    decodeSelector_formCode (r := 3) hfixed rfl rest⟩

/-- Settles O4: each word is the one its code space gives the row. -/
theorem wordsWrittenOutDecode : Obligations.WordsWrittenOutDecode := by
  have hfixed : selectorCodesFixed Config.test := ⟨rfl, rfl⟩
  have hcode : Config.test.codebook[65]? = some ⟨131, 9⟩ := rfl
  exact ⟨decode_commandWord _ ⟨0, 0, 0⟩, decode_commandWord _ ⟨1, 38, 121⟩, decode_resumeWord _ 2,
    decode_statusWord _ .infoNewBlock, decode_formCodeWord (r := 1) hfixed rfl,
    decode_codebookWord (r := 65) test_codebook_selfDelimiting hcode (by decide), decode_hashWord _ 0x0602⟩

end Sys2Proof.Machine
end

section
/-! The statements on what a PUSH packs and on the selector and letter rows (rules R98, R100, R104, R172 to
R178). -/

namespace Sys2Proof.Machine

/-! ### PUSH -/

/-- Settles O47: an instruction's legal operands are a legal code. -/
theorem pushPacksItsField : Obligations.PushPacksItsField := by
  intro s content bits hlegal hroom
  obtain ⟨t, hpush, hpacked⟩ := pushCode_packs (c := ⟨content, bits⟩) hlegal hroom
  exact ⟨t, outcomeOf_eq_next.mpr hpush, hpacked⟩

/-- Above a word with no bit at or over the cursor, a field is added (rules R104, R106). -/
theorem packedValue_eq_add {c : Code} {s : State} (hclear : s.sigWord.toNat < 2 ^ s.bitPos.toNat) :
    packedValue c s = s.sigWord.toNat + c.content.toNat * 2 ^ s.bitPos.toNat := by
  rw [packedValue, Nat.lor_comm, ← Nat.shiftLeft_add_eq_or_of_lt hclear, Nat.shiftLeft_eq, Nat.add_comm]

/-- The bits of the word and the field fill no more than the bits below the cursor and the field's own. -/
theorem packedValue_lt {c : Code} {s : State} (hclear : s.sigWord.toNat < 2 ^ s.bitPos.toNat)
    (hc : c.content.toNat < 2 ^ c.bits.toNat) : packedValue c s < 2 ^ (s.bitPos.toNat + c.bits.toNat) := by
  apply Nat.or_lt_two_pow
  · exact Nat.lt_of_lt_of_le hclear (Nat.pow_le_pow_right Nat.two_pos (Nat.le_add_right _ _))
  · rw [Nat.shiftLeft_eq, Nat.pow_add, Nat.mul_comm]
    exact Nat.mul_lt_mul_of_pos_left hc (Nat.two_pow_pos _)

/-- What the new word gets fits in it: a field spans at most two words (rule R173). -/
theorem packedValue_div_lt {c : Code} {s : State} (hpos : s.bitPos.toNat ≤ 64) (hbits : c.bits.toNat ≤ 64)
    (hlt : packedValue c s < 2 ^ (s.bitPos.toNat + c.bits.toNat)) : packedValue c s / 2 ^ 64 < 2 ^ 64 := by
  refine Nat.div_lt_of_lt_mul (hlt.trans_le ?_)
  rw [← Nat.pow_add]
  exact Nat.pow_le_pow_right Nat.two_pos (Nat.add_le_add hpos hbits)

/-- Settles O49: the packed value is the earlier bits with the field on top; the old word holds its low 64
bits and the new word, where one is started, the rest. -/
theorem everyBitOfAFieldIsWrittenOnce : Obligations.EveryBitOfAFieldIsWrittenOnce := by
  intro s t content bits hpos hclear hbelow hexec
  obtain ⟨hlegal, -, hcases⟩ := push_eq_ok.mp (outcomeOf_eq_next.mp hexec)
  obtain ⟨-, hbits, hcontent⟩ := (codeLegal_iff (c := ⟨content, bits⟩)).mp hlegal
  have hsum := packedValue_eq_add (c := ⟨content, bits⟩) hclear
  have hlt := packedValue_lt (c := ⟨content, bits⟩) hclear hcontent
  rcases hcases with ⟨hn, rfl⟩ | ⟨hn, hroom, -, -, rfl⟩
  · have hword := hlt.trans_le (Nat.pow_le_pow_right Nat.two_pos hn)
    have hpacked := fieldPacked_pushedFit (c := ⟨content, bits⟩) hn
    rw [fieldPacked, if_pos hn] at hpacked
    obtain ⟨⟨hheld, -⟩, hregs⟩ := hpacked
    refine ⟨_, hheld, hword, fun _ => ⟨rfl, ?_, hsum, rfl, rfl⟩, fun hover => absurd hn (Nat.not_le.mpr hover)⟩
    rw [hregs, BitVec.toNat_ofNat, Nat.mod_eq_of_lt hword]
  · have hpacked := fieldPacked_pushedSplit (c := ⟨content, bits⟩) hn hpos hbelow
    rw [fieldPacked, if_neg (Nat.not_le.mpr hn)] at hpacked
    obtain ⟨hheld, hnew, -, hregs⟩ := hpacked
    have hhigh := packedValue_div_lt hpos hbits hlt
    have hsigWord : (pushedSplit content bits s).sigWord.toNat = packedValue ⟨content, bits⟩ s / 2 ^ 64 := by
      rw [hregs, BitVec.toNat_ofNat, Nat.mod_eq_of_lt hhigh]
    have hout : (pushedSplit content bits s).outPtr.toNat = s.outPtr.toNat + 8 := by
      have hlimit := s.latch.outLimit.isLt
      rw [hregs, BitVec.toNat_ofNat, Nat.mod_eq_of_lt (by omega)]
    refine ⟨_, hheld, Nat.mod_lt _ (Nat.two_pow_pos 64), fun hfit => absurd hfit (Nat.not_le.mpr hn), fun _ =>
      ⟨rfl, ?_, ?_, hout, rfl⟩⟩
    · rw [hsigWord]; exact hnew
    · rw [hsigWord, Nat.mod_add_div, hsum]

/-! ### Selector and letter rows -/

/-- The row of a selector rank, with a legal code at that rank and room for one more word. -/
theorem emitSelectorOfRank_packs {s : State} {r : BitVec 8} {c : Code} (hroom : roomToPack 1 0 s)
    (hc : s.cfg.formCode[r.toNat]? = some c) (hlegal : codeLegal c = true) :
    ∃ t F, outcomeOf (emitSelectorOfRank r s) = .next t ∧ s.form.useRecorded F (s.form.atRank r) ∧
      fieldPacked c { s with form := F } t := by
  obtain ⟨t, hpush, hpacked⟩ :=
    pushCode_packs (s := setForm s (s.form.recordUse (s.form.atRank r))) hlegal hroom
  refine ⟨t, _, outcomeOf_eq_next.mpr ?_, recordUse_useRecorded _ _, hpacked⟩
  rw [emitSelectorOfRank, formCodeAt_of_getElem? hc, hpush]

/-- Settles O52: the four rows are one operation at the four ranks, each of which has a fixed code. -/
theorem selectorRowsEmitTheFormOfTheirRank : Obligations.SelectorRowsEmitTheFormOfTheirRank := by
  intro s ⟨hform, _⟩ hroom
  have hrow (r : BitVec 8) {c : Code} (hc : fixedFormCode[r.toNat]? = some c) (hlegal : codeLegal c = true) :=
    emitSelectorOfRank_packs hroom (hform ▸ hc) hlegal
  exact ⟨hrow 0 rfl (by decide), hrow 1 rfl (by decide), hrow 2 rfl (by decide), hrow 3 rfl (by decide)⟩

/-- An accepted codebook has a legal entry for every rank, the one the letters push (rule R11). -/
theorem codebookAt_of_accepted {cfg : Config} (hbook : codebookAccepted cfg = true) (r : BitVec 8) :
    cfg.codebook[r.toNat]? = some (codebookAt cfg r) ∧ codeLegal (codebookAt cfg r) = true := by
  obtain ⟨hlen, hall⟩ := codebookAccepted_iff.mp hbook
  have hr : r.toNat < cfg.codebook.length := hlen ▸ r.isLt
  have hentry : cfg.codebook[r.toNat]? = some (codebookAt cfg r) := by
    rw [codebookAt, List.getD_eq_getElem?_getD, List.getElem?_eq_getElem hr, Option.getD_some]
  exact ⟨hentry, hall _ (List.mem_of_getElem? hentry)⟩

/-- A letter's use recorded and the codebook entry of a rank pushed, with room for one more word. -/
theorem letterCode_packs {s : State} (hbook : codebookAccepted s.cfg = true) (hroom : roomToPack 1 0 s)
    (b r : BitVec 8) :
    ∃ t L c, outcomeOf (pushCode (codebookAt s.cfg r) (setLetter s (s.letter.recordUse b))) = .next t ∧
      s.letter.useRecorded L b ∧ s.cfg.codebook[r.toNat]? = some c ∧
      fieldPacked c { s with letter := L } t := by
  obtain ⟨hentry, hlegal⟩ := codebookAt_of_accepted hbook r
  obtain ⟨t, hpush, hpacked⟩ := pushCode_packs (s := setLetter s (s.letter.recordUse b)) hlegal hroom
  exact ⟨t, _, _, outcomeOf_eq_next.mpr hpush, recordUse_useRecorded _ _, hentry, hpacked⟩

/-- Settles O54: EMIT_LETTER pushes at the byte's rank, the row LETTER records the byte at its rank. -/
theorem lettersPushTheirCodebookEntry : Obligations.LettersPushTheirCodebookEntry := by
  intro s hbook hroom
  exact ⟨fun b => letterCode_packs hbook hroom b (s.letter.rankOf b),
    fun r => letterCode_packs hbook hroom (s.letter.atRank r) r⟩

end Sys2Proof.Machine
end

section
/-! `Error` returns, the steps of PROCESS_CHUNK in order, and the row TAIL (rules R102, R105, R108, R144, R181,
R202, R255). -/

namespace Sys2Proof.Machine

/-- A session that is over answers `Error` before anything else (rules R202, R259). -/
theorem dispatch_of_resume_eq_three {s : State} (h : s.resume = 3) : dispatch s = .ok (raise .error s) :=
  if_pos h

/-- `Error` writes the status presented and forgets the command's arguments (rules R255, R260). -/
theorem raise_error (s : State) :
    raise .error s = { s with status := some .error, latch := Latch.idle } := rfl

/-- Settles O7: STEP and FLUSH latch arguments that the `Error` of dispatch forgets; the other rows are that
`Error` itself (`raise_error`). -/
theorem errorChangesNoState : Obligations.ErrorChangesNoState := by
  intro s il ol
  have hcommand (m : Mode) (h : s.resume = 3) : outcomeOf (dispatch (latchCommand s m il ol)) =
      .next { s with status := some .error, latch := Latch.idle } := by
    have hlatched : (latchCommand s m il ol).resume = 3 := by rw [latchCommand_resume, h]
    rw [dispatch_of_resume_eq_three hlatched, raise_error]
    rfl
  exact ⟨fun h => ⟨hcommand .step h, hcommand .flush h⟩, rfl, rfl, rfl⟩

/-- The payload of a form, given what each form's payload does (rules R145 to R148). -/
theorem emitPayload_of_form {f : Form} {c : Chunk} {h : Hash} {u v : State}
    (hnone : f = .predicted ∨ f = .dictA → v = u) (hhash : f = .dictB → emitHash16 h u = .ok v)
    (hliteral : f = .literal → emitLiteral c u = .ok v) : emitPayload f c h u = .ok v := by
  cases f with
  | literal => exact hliteral rfl
  | dictA => rw [hnone (.inr rfl)]; rfl
  | dictB => exact hhash rfl
  | predicted => rw [hnone (.inl rfl)]; rfl

/-- Settles O43: each step is the operation its row executes. -/
theorem processChunkRunsItsStepsInOrder : Obligations.ProcessChunkRunsItsStepsInOrder := by
  intro s u v w c h f hsel hnone hhash hliteral hupdate
  have hpayload : emitPayload f c h u = .ok v :=
    emitPayload_of_form hnone (fun hf => outcomeOf_eq_next.mp (hhash hf))
      (fun hf => outcomeOf_eq_next.mp (hliteral hf))
  obtain rfl : dictUpdate f c h v = w := Host.Outcome.next.inj hupdate
  exact outcomeOf_eq_next.mpr (processChunk_eq_ok.mpr ⟨u, v, outcomeOf_eq_next.mp hsel, hpayload, rfl⟩)

/-- Settles O58: the row is one turn of EMIT_TAIL's loop, a store of one byte. -/
theorem tailRowAppendsItsByte : Obligations.TailRowAppendsItsByte := by
  intro s b hroom hin
  have htail := (tailByte_eq_ok (b := b)).mpr ⟨hroom, hin, rfl⟩
  exact ⟨_, outcomeOf_eq_next.mpr htail, storedAt_writeBytes s.output s.outPtr.toNat 1 b.toNat, rfl⟩

end Sys2Proof.Machine
end

section
/-! The rank selector: RECORD_USE on each table, the permutation it keeps, and RANK_INIT (rules R121 to R123,
R125, R126, R128, R129). -/

namespace Sys2Proof.Machine

/-- RECORD_USE_FORM answers the state with the FORM table after the use and, as result, the form's rank in
the table before it (rules R122, R126). -/
theorem exec_recordUseForm (f : Form) (s : State) : exec (.recordUseForm f) s = .next
    { s with form := s.form.recordUse (formId f), result := (s.form.rankOf (formId f)).setWidth 16 } := rfl

/-- RECORD_USE_LETTER answers the state with the LETTER table after the use and, as result, the byte's rank
in the table before it (rules R123, R126). -/
theorem exec_recordUseLetter (b : Byte) (s : State) : exec (.recordUseLetter b) s = .next
    { s with letter := s.letter.recordUse b, result := (s.letter.rankOf b).setWidth 16 } := rfl

/-- RANK_INIT answers the state with its table replaced (rule R129). -/
theorem exec_rankInit (k : RankTableId) (s : State) : exec (.rankInit k) s = .next (rankInitOf k s) := rfl

/-- Settles O32: both rows put `RankTable.recordUse` of their element in place of their table, and that is
rule R121 on every cell, whether or not the ranks swap (`recordUse_useRecorded`). -/
theorem recordUseUpdatesOneTable : Obligations.RecordUseUpdatesOneTable := by
  intro s
  constructor
  · intro f
    exact ⟨_, exec_recordUseForm f s, recordUse_useRecorded s.form (formId f), rfl⟩
  · intro b
    exact ⟨_, exec_recordUseLetter b s, recordUse_useRecorded s.letter b, rfl⟩

/-- Settles O33: a swap exchanges the ranks of the element and of the one the permutation puts just above it
(`recordUse_consistent`); which cells change holds of every table, a permutation or not. -/
theorem recordUseKeepsThePermutation : Obligations.RecordUseKeepsThePermutation :=
  fun _ t e he hperm => ⟨recordUse_consistent hperm he, recordUse_useRecorded t e⟩

/-- Settles O34: the row is a record update of its table alone, with a table every cell of which is fresh. -/
theorem rankInitMakesTheTableFresh : Obligations.RankInitMakesTheTableFresh := by
  intro s
  constructor
  · exact ⟨_, exec_rankInit .form s, rankInit_isFresh, rfl⟩
  · exact ⟨_, exec_rankInit .letter s, rankInit_isFresh, rfl⟩

end Sys2Proof.Machine
end

section
/-! CLASSIFY, DICT_UPDATE and what PROCESS_CHUNK writes (rules R142 to R151, R153, R156). -/

namespace Sys2Proof.Machine

/-! ### CLASSIFY -/

/-- The PRED test comes first, and it alone decides whether a chunk is PREDICTED (rules R142, R151). -/
theorem classify_eq_predicted_iff {s : State} {c : Chunk} {h : Hash} :
    classify s c h = .predicted ↔ predAt s s.lastHash = c := by
  unfold classify
  split_ifs with hpred hslotA hslotB <;> simp [hpred]

theorem classify_of_slotA {s : State} {c : Chunk} {h : Hash} (hpred : predAt s s.lastHash ≠ c)
    (hslotA : chunkAAt s h = c) : classify s c h = .dictA := by
  rw [classify, if_neg hpred, if_pos hslotA]

theorem classify_of_slotB {s : State} {c : Chunk} {h : Hash} (hpred : predAt s s.lastHash ≠ c)
    (hslotA : chunkAAt s h ≠ c) (hslotB : chunkBAt s h = c) : classify s c h = .dictB := by
  rw [classify, if_neg hpred, if_neg hslotA, if_pos hslotB]

theorem classify_of_miss {s : State} {c : Chunk} {h : Hash} (hpred : predAt s s.lastHash ≠ c)
    (hslotA : chunkAAt s h ≠ c) (hslotB : chunkBAt s h ≠ c) : classify s c h = .literal := by
  rw [classify, if_neg hpred, if_neg hslotA, if_neg hslotB]

/-- CLASSIFY answers the identifier of the form (rule R94) on the result wire. -/
theorem exec_classify {f : Form} {c : Chunk} {h : Hash} {s : State} (hf : classify s c h = f) :
    exec (.classify c h) s = .next { s with result := (formId f).setWidth 16 } := by
  rw [← hf]
  rfl

/-- Settles O36: one lemma per outcome of the tests says the form, and the result is its identifier. -/
theorem classifyTestsInPriorityOrder : Obligations.ClassifyTestsInPriorityOrder := by
  intro s c h
  refine ⟨fun hpred => ?_, fun hpred hslotA => ?_, fun hpred hslotA hslotB => ?_,
    fun hpred hslotA hslotB => ?_⟩
  · exact exec_classify (classify_eq_predicted_iff.mpr hpred)
  · exact exec_classify (classify_of_slotA hpred hslotA)
  · exact exec_classify (classify_of_slotB hpred hslotA hslotB)
  · exact exec_classify (classify_of_miss hpred hslotA hslotB)

/-! ### DICT_UPDATE -/

theorem chunkAAt_setBucket (s : State) (h : Hash) (a b : Chunk) (x : Hash) :
    chunkAAt (setBucket s h a b) x = if x = h then a else chunkAAt s x := by
  simp only [chunkAAt, setBucket_chunkA, getCell_setCell, BitVec.toNat_inj, eq_comm (a := h)]

theorem chunkBAt_setBucket (s : State) (h : Hash) (a b : Chunk) (x : Hash) :
    chunkBAt (setBucket s h a b) x = if x = h then b else chunkBAt s x := by
  simp only [chunkBAt, setBucket_chunkB, getCell_setCell, BitVec.toNat_inj, eq_comm (a := h)]

theorem predAt_setPred (s : State) (h : Hash) (c : Chunk) (x : Hash) :
    predAt (setPred s h c) x = if x = h then c else predAt s x := by
  simp only [predAt, setPred_pred, getCell_setCell, BitVec.toNat_inj, eq_comm (a := h)]

/-- DICT_UPDATE makes the chunk the most recent of its bucket where CLASSIFY did not find it there as that
(rule R143). -/
theorem chunkAAt_dictUpdate (f : Form) (c : Chunk) (h : Hash) (s : State) (x : Hash) :
    chunkAAt (dictUpdate f c h s) x =
      if x = h ∧ (f = .dictB ∨ f = .literal) then c else chunkAAt s x := by
  rw [dictUpdate, chunkAAt, updatePred_chunkA, ← chunkAAt]
  cases f with
  | literal | dictB => simp [updateBucket, chunkAAt_setBucket]
  | dictA | predicted => simp [updateBucket]

/-- The older slot gets what the more recent one held before (rule R143). -/
theorem chunkBAt_dictUpdate (f : Form) (c : Chunk) (h : Hash) (s : State) (x : Hash) :
    chunkBAt (dictUpdate f c h s) x =
      if x = h ∧ (f = .dictB ∨ f = .literal) then chunkAAt s h else chunkBAt s x := by
  rw [dictUpdate, chunkBAt, updatePred_chunkB, ← chunkBAt]
  cases f with
  | literal | dictB => simp [updateBucket, chunkBAt_setBucket]
  | dictA | predicted => simp [updateBucket]

/-- Every form but PREDICTED writes the PRED cell of the context (rules R143, R149). -/
theorem predAt_dictUpdate (f : Form) (c : Chunk) (h : Hash) (s : State) (x : Hash) :
    predAt (dictUpdate f c h s) x =
      if x = s.lastHash ∧ f ≠ .predicted then c else predAt s x := by
  have hbucket (y : Hash) : predAt (updateBucket f c h s) y = predAt s y := by
    rw [predAt, updateBucket_pred, ← predAt]
  rw [dictUpdate]
  cases f with
  | literal | dictA | dictB => simp [updatePred, predAt_setPred, hbucket]
  | predicted => simp [updatePred, hbucket]

theorem dictUpdate_predicted_pred (c : Chunk) (h : Hash) (s : State) :
    (dictUpdate .predicted c h s).pred = s.pred := rfl

/-- DICT_UPDATE writes the three dictionary tables and nothing else. -/
theorem dictUpdate_eq (f : Form) (c : Chunk) (h : Hash) (s : State) :
    dictUpdate f c h s = { s with
      chunkA := (dictUpdate f c h s).chunkA, chunkB := (dictUpdate f c h s).chunkB
      pred := (dictUpdate f c h s).pred } := by
  cases f <;> rfl

theorem exec_dictUpdate (f : Form) (c : Chunk) (h : Hash) (s : State) :
    exec (.dictUpdate f c h) s = .next (dictUpdate f c h s) := rfl

/-- Settles O37: one lemma per table says what each of its cells holds afterwards. -/
theorem dictUpdateWritesPerForm : Obligations.DictUpdateWritesPerForm := by
  intro s f c h
  exact ⟨_, exec_dictUpdate f c h s, dictUpdate_eq f c h s, chunkAAt_dictUpdate f c h s,
    chunkBAt_dictUpdate f c h s, predAt_dictUpdate f c h s⟩

/-! ### What packing and appending write -/

/-- `t` is `s` but for the packer's registers, `out_ptr` and OUT. -/
def emittedFrom (s t : State) : Prop :=
  ∃ addr word pos count ptr out, t = { s with
    sigAddr := addr, sigWord := word, bitPos := pos, sigCount := count, outPtr := ptr, output := out }

theorem emittedFrom_refl (s : State) : emittedFrom s s := ⟨_, _, _, _, _, _, rfl⟩

theorem push_emittedFrom {c : Word64} {bits : BitVec 8} {s t : State} (h : push c bits s = .ok t) :
    emittedFrom s t := by
  obtain ⟨-, -, ⟨-, rfl⟩ | ⟨-, -, -, -, rfl⟩⟩ := push_eq_ok.mp h <;> exact ⟨_, _, _, _, _, _, rfl⟩

theorem emitHash16_emittedFrom {h : Hash} {s t : State} (hok : emitHash16 h s = .ok t) :
    emittedFrom s t := by
  obtain ⟨-, rfl⟩ := emitHash16_eq_ok.mp hok
  exact ⟨_, _, _, _, _, _, rfl⟩

/-- EMIT_SELECTOR records the use of the form before it packs (rule R176). -/
theorem emitSelector_emittedFrom {f : Form} {s t : State} (h : emitSelector f s = .ok t) :
    emittedFrom (recordForm s f) t :=
  push_emittedFrom h

/-- EMIT_LETTER after letters whose uses have made the LETTER table `L` (rule R178). -/
theorem emitLetter_emittedFrom {b : Byte} {s t u : State} {L : RankTable}
    (ht : emittedFrom (setLetter s L) t) (h : emitLetter b t = .ok u) :
    emittedFrom (setLetter s (L.recordUse b)) u := by
  obtain ⟨_, _, _, _, _, _, rfl⟩ := ht
  obtain ⟨_, _, _, _, _, _, rfl⟩ := push_emittedFrom h
  exact ⟨_, _, _, _, _, _, rfl⟩

theorem emitLiteral_emittedFrom {c : Chunk} {s t : State} (h : emitLiteral c s = .ok t) :
    ∃ L, emittedFrom (setLetter s L) t := by
  obtain ⟨t0, t1, t2, h0, h1, h2, h3⟩ := emitLiteral_eq_ok.mp h
  have hfirst := emitLetter_emittedFrom (L := s.letter) (emittedFrom_refl s) h0
  exact ⟨_, emitLetter_emittedFrom (emitLetter_emittedFrom (emitLetter_emittedFrom hfirst h1) h2) h3⟩

/-- Of the payloads only a LITERAL's letters write a table (rules R145 to R148). -/
theorem emitPayload_emittedFrom {f : Form} {c : Chunk} {h : Hash} {s t : State}
    (hok : emitPayload f c h s = .ok t) :
    ∃ L, (f ≠ .literal → L = s.letter) ∧ emittedFrom (setLetter s L) t := by
  cases f with
  | literal =>
    obtain ⟨L, hL⟩ := emitLiteral_emittedFrom hok
    exact ⟨L, fun hf => absurd rfl hf, hL⟩
  | dictB => exact ⟨_, fun _ => rfl, emitHash16_emittedFrom hok⟩
  | dictA => cases hok; exact ⟨_, fun _ => rfl, emittedFrom_refl s⟩
  | predicted => cases hok; exact ⟨_, fun _ => rfl, emittedFrom_refl s⟩

/-! ### PROCESS_CHUNK -/

/-- PROCESS_CHUNK records the use of the form and, for a LITERAL, of its letters, emits, and then updates the
dictionary and the context (rule R144). -/
theorem processChunk_emits {c : Chunk} {s t : State} (h : processChunk c s = .ok t) :
    ∃ L v, (classify s c (hashOf s.cfg c) ≠ .literal → L = s.letter) ∧
      emittedFrom (setLetter (recordForm s (classify s c (hashOf s.cfg c))) L) v ∧
      t = setLastHash (dictUpdate (classify s c (hashOf s.cfg c)) c (hashOf s.cfg c) v)
        (hashOf s.cfg c) := by
  obtain ⟨u, v, hsel, hpayload, rfl⟩ := processChunk_eq_ok.mp h
  obtain ⟨_, _, _, _, _, _, rfl⟩ := emitSelector_emittedFrom hsel
  obtain ⟨L, hL, _, _, _, _, _, _, rfl⟩ := emitPayload_emittedFrom hpayload
  exact ⟨L, _, hL, ⟨_, _, _, _, _, _, rfl⟩, rfl⟩

theorem processChunk_lastHash {c : Chunk} {s t : State} (h : processChunk c s = .ok t) :
    t.lastHash = hashOf s.cfg c := by
  obtain ⟨-, -, -, -, rfl⟩ := processChunk_emits h
  rfl

theorem processChunk_cfg {c : Chunk} {s t : State} (h : processChunk c s = .ok t) : t.cfg = s.cfg := by
  obtain ⟨-, hcfg, -⟩ := environment_eq_iff.mp ((keptByPrimitives_environment s).processChunk rfl h)
  exact hcfg

/-- Nothing is emitted through the dictionary tables, so they change as DICT_UPDATE changes them. -/
theorem chunkAAt_processChunk {c : Chunk} {s t : State} (h : processChunk c s = .ok t) (x : Hash) :
    chunkAAt t x = if x = hashOf s.cfg c ∧ (classify s c (hashOf s.cfg c) = .dictB ∨
      classify s c (hashOf s.cfg c) = .literal) then c else chunkAAt s x := by
  obtain ⟨L, -, -, ⟨_, _, _, _, _, _, rfl⟩, rfl⟩ := processChunk_emits h
  exact chunkAAt_dictUpdate _ _ _ _ x

theorem chunkBAt_processChunk {c : Chunk} {s t : State} (h : processChunk c s = .ok t) (x : Hash) :
    chunkBAt t x = if x = hashOf s.cfg c ∧ (classify s c (hashOf s.cfg c) = .dictB ∨
      classify s c (hashOf s.cfg c) = .literal) then chunkAAt s (hashOf s.cfg c) else chunkBAt s x := by
  obtain ⟨L, -, -, ⟨_, _, _, _, _, _, rfl⟩, rfl⟩ := processChunk_emits h
  exact chunkBAt_dictUpdate _ _ _ _ x

theorem predAt_processChunk {c : Chunk} {s t : State} (h : processChunk c s = .ok t) (x : Hash) :
    predAt t x =
      if x = s.lastHash ∧ classify s c (hashOf s.cfg c) ≠ .predicted then c else predAt s x := by
  obtain ⟨L, -, -, ⟨_, _, _, _, _, _, rfl⟩, rfl⟩ := processChunk_emits h
  exact predAt_dictUpdate _ _ _ _ x

/-- After PROCESS_CHUNK the old context predicts the chunk: either it already did, or PRED was written
(rule R149). -/
theorem predAt_lastHash_processChunk {c : Chunk} {s t : State} (h : processChunk c s = .ok t) :
    predAt t s.lastHash = c := by
  rw [predAt_processChunk h]
  by_cases hf : classify s c (hashOf s.cfg c) = .predicted
  · rw [if_neg (fun ⟨_, hnot⟩ => hnot hf), classify_eq_predicted_iff.mp hf]
  · rw [if_pos ⟨rfl, hf⟩]

theorem predAt_processChunk_of_ne {c : Chunk} {s t : State} (h : processChunk c s = .ok t) {x : Hash}
    (hx : x ≠ s.lastHash) : predAt t x = predAt s x := by
  rw [predAt_processChunk h, if_neg (fun ⟨heq, _⟩ => hx heq)]

/-- A PREDICTED chunk leaves the PRED table as it is. -/
theorem processChunk_pred_of_predicted {c : Chunk} {s t : State} (h : processChunk c s = .ok t)
    (hf : classify s c (hashOf s.cfg c) = .predicted) : t.pred = s.pred := by
  obtain ⟨L, -, -, ⟨_, _, _, _, _, _, rfl⟩, rfl⟩ := processChunk_emits h
  rw [hf, setLastHash_pred, dictUpdate_predicted_pred]
  rfl

/-- Settles O40: the form is not PREDICTED exactly when the context's cell held another chunk. -/
theorem contextPredictsTheLastChunk : Obligations.ContextPredictsTheLastChunk := by
  intro s t c hexec
  have h := outcomeOf_eq_next.mp hexec
  have hcell := predAt_lastHash_processChunk h
  refine ⟨processChunk_pred_of_predicted h, fun hf hsame => hf ?_, hcell,
    fun x hx => predAt_processChunk_of_ne h hx⟩
  exact classify_eq_predicted_iff.mpr (hsame.symm.trans hcell)

/-- Settles O41: the first chunk is left in the cell of its context, which the second, in another context,
does not write and makes the context again. -/
theorem secondOccurrenceIsPredicted : Obligations.SecondOccurrenceIsPredicted := by
  intro s t u c d hexec hexec' hback hother
  have h := outcomeOf_eq_next.mp hexec
  have h' := outcomeOf_eq_next.mp hexec'
  have hcontext : u.lastHash = s.lastHash := by
    rw [processChunk_lastHash h', processChunk_cfg h, hback]
  have hne : s.lastHash ≠ t.lastHash := by
    rw [processChunk_lastHash h]
    exact hother.symm
  have hcell : predAt u u.lastHash = c := by
    rw [hcontext, predAt_processChunk_of_ne h' hne, predAt_lastHash_processChunk h]
  exact exec_classify (classify_eq_predicted_iff.mpr hcell)

/-- Nothing but the components named is written (rule R153). -/
theorem processChunk_frame {c : Chunk} {s t : State} (h : processChunk c s = .ok t) :
    t = { s with
      form := t.form, letter := t.letter, chunkA := t.chunkA, chunkB := t.chunkB, pred := t.pred
      lastHash := hashOf s.cfg c, sigAddr := t.sigAddr, sigWord := t.sigWord, bitPos := t.bitPos
      sigCount := t.sigCount, outPtr := t.outPtr, output := t.output } := by
  obtain ⟨L, -, -, ⟨_, _, _, _, _, _, rfl⟩, rfl⟩ := processChunk_emits h
  rw [dictUpdate_eq]
  rfl

/-- The rank tables are those the uses of the form and of the letters made. -/
theorem processChunk_tables {c : Chunk} {s t : State} (h : processChunk c s = .ok t) :
    t.form = s.form.recordUse (formId (classify s c (hashOf s.cfg c))) ∧
      (classify s c (hashOf s.cfg c) ≠ .literal → t.letter = s.letter) := by
  obtain ⟨L, -, hL, ⟨_, _, _, _, _, _, rfl⟩, rfl⟩ := processChunk_emits h
  rw [setLastHash_form, setLastHash_letter, dictUpdate_form, dictUpdate_letter]
  exact ⟨rfl, hL⟩

/-- Settles O39: the registers and tables by what is emitted and then updated, OUT by `appendedBelow`, which
every operation of the packer keeps. -/
theorem processChunkWritesPerForm : Obligations.ProcessChunkWritesPerForm := by
  intro s t c hbelow hexec
  have h := outcomeOf_eq_next.mp hexec
  obtain ⟨hform, hletter⟩ := processChunk_tables h
  obtain ⟨⟨-, -, hkept⟩, -⟩ :=
    (keptByPrimitives_appendedBelow s).processChunk ⟨appendedTo_refl s, hbelow⟩ h
  refine ⟨processChunk_frame h, ?_, hletter, chunkAAt_processChunk h, chunkBAt_processChunk h,
    predAt_processChunk h, fun x hx hword => hkept x (hx.imp (fun hlt => ⟨hlt, hword⟩) id)⟩
  rw [hform]
  exact recordUse_useRecorded _ _

end Sys2Proof.Machine
end

section
/-! PROCESS_CHUNK completes where its fields and its hash have room (rules R144, R183). -/

namespace Sys2Proof.Machine

/-! ### Room used -/

/-- `t` is reached from `s` by packing and appending at most `k` bytes at `out_ptr`: a word is open, not
empty and below `out_ptr`, and neither the configuration nor the command's limits have changed. -/
structure PackedWithin (k : Nat) (s t : State) : Prop where
  cfg_eq : t.cfg = s.cfg
  latch_eq : t.latch = s.latch
  bitPos_pos : 1 ≤ t.bitPos.toNat
  bitPos_le : t.bitPos.toNat ≤ 64
  below : t.sigAddr.toNat + 8 ≤ t.outPtr.toNat
  outPtr_le : t.outPtr.toNat ≤ s.outPtr.toNat + k

theorem PackedWithin.trans {j k : Nat} {s t u : State} (h : PackedWithin j s t) (h' : PackedWithin k t u) :
    PackedWithin (j + k) s u where
  cfg_eq := h'.cfg_eq.trans h.cfg_eq
  latch_eq := h'.latch_eq.trans h.latch_eq
  bitPos_pos := h'.bitPos_pos
  bitPos_le := h'.bitPos_le
  below := h'.below
  outPtr_le := by have hfirst := h.outPtr_le; have hsecond := h'.outPtr_le; omega

theorem PackedWithin.mono {j k : Nat} {s t : State} (h : PackedWithin j s t) (hjk : j ≤ k) :
    PackedWithin k s t :=
  { h with outPtr_le := Nat.le_trans h.outPtr_le (Nat.add_le_add_left hjk _) }

/-- What is left of the room once `k` bytes of it are used. -/
theorem PackedWithin.room {k n b m b' : Nat} {s t : State} (h : PackedWithin k s t) (hroom : roomToPack n b s)
    (hk : 8 * m + b' + k ≤ 8 * n + b) : roomToPack m b' t := by
  obtain ⟨-, -, hlimit⟩ := hroom
  have hptr := h.outPtr_le
  refine ⟨h.bitPos_le, h.below, ?_⟩
  rw [h.latch_eq]
  omega

theorem roomToPack.mono {n b m b' : Nat} {s : State} (h : roomToPack n b s) (hle : 8 * m + b' ≤ 8 * n + b) :
    roomToPack m b' s := by
  obtain ⟨hpos, hbelow, hlimit⟩ := h
  exact ⟨hpos, hbelow, by omega⟩

/-! ### The operations -/

/-- A PUSH leaves at least one bit in the current word and starts at most one word. -/
theorem push_packedWithin {c : Word64} {bits : BitVec 8} {s t : State}
    (hbelow : s.sigAddr.toNat + 8 ≤ s.outPtr.toNat) (h : push c bits s = .ok t) : PackedWithin 8 s t := by
  obtain ⟨hlegal, -, hcases⟩ := push_eq_ok.mp h
  obtain ⟨(hbits : 1 ≤ bits.toNat), -, -⟩ := (codeLegal_iff (c := ⟨c, bits⟩)).mp hlegal
  rcases hcases with ⟨hfit, rfl⟩ | ⟨hover, hroom, hfit, -, rfl⟩
  · have hpos : (pushedFit c bits s).bitPos.toNat = s.bitPos.toNat + bits.toNat := bitCursor_toNat hfit
    exact ⟨rfl, rfl, by omega, by omega, hbelow, Nat.le_add_right _ _⟩
  · have hpos : (pushedSplit c bits s).bitPos.toNat = s.bitPos.toNat + bits.toNat - 64 :=
      bitCursor_toNat hfit
    have hptr : (pushedSplit c bits s).outPtr.toNat = s.outPtr.toNat + 8 := cursor_toNat hroom
    exact ⟨rfl, rfl, by omega, by omega, hptr.ge, hptr.le⟩

/-- A legal code is pushed wherever there is room for a word. -/
theorem pushCode_completes {c : Code} {s : State} (hc : codeLegal c = true) (hroom : roomToPack 1 0 s) :
    ∃ t, pushCode c s = .ok t ∧ PackedWithin 8 s t := by
  obtain ⟨t, hpush, -⟩ := pushCode_packs hc hroom
  obtain ⟨-, hbelow, -⟩ := hroom
  exact ⟨t, hpush, push_packedWithin hbelow hpush⟩

theorem emitSelector_completes {s : State} {f : Form} (hfixed : selectorCodesFixed s.cfg)
    (hcons : s.form.consistent 4) (hroom : roomToPack 1 0 s) :
    ∃ t, emitSelector f s = .ok t ∧ PackedWithin 8 s t := by
  obtain ⟨hform, -⟩ := hfixed
  obtain ⟨c, hc, hlegal⟩ := fixedFormCode_at (rankOf_formId_lt hcons f)
  obtain ⟨t, hpush, hwithin⟩ := pushCode_completes (s := recordForm s f) hlegal hroom
  refine ⟨t, ?_, { hwithin with }⟩
  rw [emitSelector, formCodeAt_of_getElem? (hform ▸ hc), hpush]

theorem emitLetter_completes {s : State} (hbook : codebookAccepted s.cfg = true) (hroom : roomToPack 1 0 s)
    (b : Byte) : ∃ t, emitLetter b s = .ok t ∧ PackedWithin 8 s t := by
  obtain ⟨-, hlegal⟩ := codebookAt_of_accepted hbook (s.letter.rankOf b)
  obtain ⟨t, hpush, hwithin⟩ := pushCode_completes (s := recordLetter s b) hlegal hroom
  exact ⟨t, hpush, { hwithin with }⟩

/-- One more letter, after packing that has left room for a word. -/
theorem PackedWithin.emitLetter_completes {k : Nat} {s u : State} (hu : PackedWithin k s u)
    (hbook : codebookAccepted s.cfg = true) (hroom : roomToPack 4 0 s) (hk : k + 8 ≤ 32) (b : Byte) :
    ∃ v, emitLetter b u = .ok v ∧ PackedWithin (k + 8) s v := by
  have hword : roomToPack 1 0 u := hu.room hroom (by omega)
  obtain ⟨v, hv, hwithin⟩ := Machine.emitLetter_completes (hu.cfg_eq ▸ hbook) hword b
  exact ⟨v, hv, hu.trans hwithin⟩

/-- A LITERAL's letters are four codes, each in the room the letters before it have left (rule R179). -/
theorem emitLiteral_completes {s : State} (hbook : codebookAccepted s.cfg = true) (hroom : roomToPack 4 0 s)
    (c : Chunk) : ∃ t, emitLiteral c s = .ok t ∧ PackedWithin 32 s t := by
  obtain ⟨t0, h0, hw0⟩ := emitLetter_completes hbook (hroom.mono (by decide)) (chunkByte c 0)
  obtain ⟨t1, h1, hw1⟩ := hw0.emitLetter_completes hbook hroom (by decide) (chunkByte c 1)
  obtain ⟨t2, h2, hw2⟩ := hw1.emitLetter_completes hbook hroom (by decide) (chunkByte c 2)
  obtain ⟨t3, h3, hw3⟩ := hw2.emitLetter_completes hbook hroom (by decide) (chunkByte c 3)
  exact ⟨t3, emitLiteral_eq_ok.mpr ⟨t0, t1, t2, h0, h1, h2, h3⟩, hw3⟩

/-- A hash is appended above the open word, which it leaves as it is. -/
theorem emitHash16_completes {s : State} (hpos : 1 ≤ s.bitPos.toNat) (hroom : roomToPack 0 2 s) (h : Hash) :
    ∃ t, emitHash16 h s = .ok t ∧ PackedWithin 2 s t := by
  obtain ⟨hle, hbelow, hlimit⟩ := hroom
  have hptr := cursor_toNat hlimit
  refine ⟨_, emitHash16_eq_ok.mpr ⟨hlimit, rfl⟩, rfl, rfl, hpos, hle, ?_, hptr.le⟩
  exact Nat.le_trans (Nat.le_trans hbelow (Nat.le_add_right _ 2)) hptr.ge

/-- No payload needs more than the four letters of a LITERAL (rules R145 to R148). -/
theorem emitPayload_completes {s : State} (hbook : codebookAccepted s.cfg = true) (hpos : 1 ≤ s.bitPos.toNat)
    (hroom : roomToPack 4 2 s) (f : Form) (c : Chunk) (h : Hash) :
    ∃ t, emitPayload f c h s = .ok t ∧ PackedWithin 32 s t := by
  have hnothing : PackedWithin 32 s s := by
    obtain ⟨hle, hbelow, -⟩ := hroom
    exact ⟨rfl, rfl, hpos, hle, hbelow, Nat.le_add_right _ _⟩
  cases f with
  | literal => exact emitLiteral_completes hbook (hroom.mono (by decide)) c
  | dictB =>
    obtain ⟨t, ht, hwithin⟩ := emitHash16_completes hpos (hroom.mono (by decide)) h
    exact ⟨t, ht, hwithin.mono (by decide)⟩
  | dictA => exact ⟨s, rfl, hnothing⟩
  | predicted => exact ⟨s, rfl, hnothing⟩

/-- The dictionary and the context are no part of what is packed. -/
theorem PackedWithin.dictUpdate {k : Nat} {s t : State} (h : PackedWithin k s t) (f : Form) (c : Chunk)
    (x y : Hash) : PackedWithin k s (setLastHash (dictUpdate f c x t) y) := by
  rw [dictUpdate_eq]
  exact { h with }

/-- The selector is one field, the payload at most four more. -/
theorem processChunk_completes {s : State} (hbook : codebookAccepted s.cfg = true)
    (hfixed : selectorCodesFixed s.cfg) (hcons : s.form.consistent 4) (hroom : roomToPack 5 2 s)
    (c : Chunk) : ∃ t, processChunk c s = .ok t ∧ PackedWithin 40 s t := by
  obtain ⟨u, hsel, hu⟩ := emitSelector_completes (f := classify s c (hashOf s.cfg c)) hfixed hcons
    (hroom.mono (by decide))
  obtain ⟨v, hpayload, hv⟩ := emitPayload_completes (hu.cfg_eq ▸ hbook) hu.bitPos_pos
    (hu.room hroom (by decide)) (classify s c (hashOf s.cfg c)) c (hashOf s.cfg c)
  exact ⟨_, processChunk_eq_ok.mpr ⟨u, v, hsel, hpayload, rfl⟩, (hu.trans hv).dictUpdate _ _ _ _⟩

/-- Settles O42: a selector and at most four letters are the most that is packed; the rank tables stay
consistent as every operation keeps them. -/
theorem processChunkCompletes : Obligations.ProcessChunkCompletes := by
  intro s c hbook hfixed htables hroom
  have ⟨_, hform⟩ := htables
  obtain ⟨t, h, hwithin⟩ := processChunk_completes hbook hfixed hform hroom c
  have hptr := hwithin.outPtr_le
  exact ⟨t, outcomeOf_eq_next.mpr h, processChunk_lastHash h,
    keptByPrimitives_tablesConsistent.processChunk htables h, hwithin.bitPos_pos, hwithin.bitPos_le,
    hwithin.below, by omega⟩

end Sys2Proof.Machine
end

section
/-! START_SIG's word, PUSH's operands, the letters of a LITERAL and the bytes EMIT_TAIL copies (rules R171, R175,
R179, R181). -/

namespace Sys2Proof.Machine

/-! ### START_SIG and PUSH -/

/-- Settles O46: with room START_SIG is a store of zero at `out_ptr` and a new word's registers; without room
its store stops. -/
theorem startSigPlacesAZeroWord : Obligations.StartSigPlacesAZeroWord := by
  intro s
  refine ⟨fun hroom => ?_, fun hshort => outcomeOf_eq_fault.mpr (startSig_overrun hshort)⟩
  have hstart := startSig_eq_ok.mpr ⟨hroom, rfl⟩
  exact ⟨_, outcomeOf_eq_next.mpr hstart, storedAt_writeBytes s.output s.outPtr.toNat 8 0, rfl⟩

theorem push_of_illegal {c : Word64} {bits : BitVec 8} (h : pushOperandsLegal c bits = false) (s : State) :
    push c bits s = .error .pushOperand := by
  rw [push, if_neg (by rw [h]; decide)]

/-- Settles O48: a PUSH is well formed exactly when its operands keep the discipline, which PUSH tests before
it does anything. -/
theorem pushStopsOnBadOperands : Obligations.PushStopsOnBadOperands := by
  intro s content bits hbad
  exact outcomeOf_eq_fault.mpr (push_of_illegal hbad s)

/-! ### EMIT_LITERAL -/

/-- The four bytes put together by `le32` are those `chunkByte` takes out again (rule R66). -/
theorem chunkByte_le32 (b0 b1 b2 b3 : Byte) :
    chunkByte (le32 b0 b1 b2 b3) 0 = b0 ∧ chunkByte (le32 b0 b1 b2 b3) 1 = b1 ∧
      chunkByte (le32 b0 b1 b2 b3) 2 = b2 ∧ chunkByte (le32 b0 b1 b2 b3) 3 = b3 := by
  have hsum : (le32 b0 b1 b2 b3).toNat =
      b0.toNat + 256 * b1.toNat + 65536 * b2.toNat + 16777216 * b3.toNat := by
    rw [le32, BitVec.toNat_ofNat, Nat.mod_eq_of_lt (by bv_omega)]
  refine ⟨?_, ?_, ?_, ?_⟩ <;> (apply BitVec.eq_of_toNat_eq; rw [chunkByte, BitVec.toNat_ofNat, hsum]; omega)

/-- Settles O55: a LITERAL is its chunk's four letters in turn, and has room for four words. -/
theorem literalEmitsItsFourBytesInOrder : Obligations.LiteralEmitsItsFourBytesInOrder := by
  intro s b0 b1 b2 b3 hbook hroom
  obtain ⟨t, hlit, -⟩ := emitLiteral_completes hbook hroom (le32 b0 b1 b2 b3)
  obtain ⟨t0, t1, t2, h0, h1, h2, h3⟩ := emitLiteral_eq_ok.mp hlit
  obtain ⟨hb0, hb1, hb2, hb3⟩ := chunkByte_le32 b0 b1 b2 b3
  rw [hb0] at h0
  rw [hb1] at h1
  rw [hb2] at h2
  rw [hb3] at h3
  exact ⟨t0, t1, t2, t, outcomeOf_eq_next.mpr h0, outcomeOf_eq_next.mpr h1, outcomeOf_eq_next.mpr h2,
    outcomeOf_eq_next.mpr h3, outcomeOf_eq_next.mpr hlit⟩

/-! ### EMIT_TAIL -/

/-- The `n` bytes of IN from offset `a` lie below `in_limit` and the host has supplied them (rules R61, R62). -/
def readable (s : State) (a n : Nat) : Prop :=
  a + n ≤ s.latch.inLimit.toNat ∧ ∀ x, a ≤ x → x < a + n → (readByte s.input x).isSome

/-- Input supplied up to the limit is readable from `in_ptr` on. -/
theorem inputSupplied.readable {s : State} (h : inputSupplied s s.latch.inLimit.toNat) {a n : Nat}
    (ha : s.inPtr.toNat ≤ a) (hn : a + n ≤ s.latch.inLimit.toNat) : readable s a n :=
  ⟨hn, fun x hx hlt => h x (Nat.le_trans ha hx) (Nat.lt_of_lt_of_le hlt hn)⟩

/-- A part of what is readable is readable, and stays so where neither IN nor the limit changes. -/
theorem readable.sub {s t : State} {a n b m : Nat} (h : readable s a n) (hlatch : t.latch = s.latch)
    (hinput : t.input = s.input) (hab : a ≤ b) (hend : b + m ≤ a + n) : readable t b m := by
  obtain ⟨hlimit, hsome⟩ := h
  refine ⟨?_, fun x hx hlt => ?_⟩
  · rw [hlatch]
    exact Nat.le_trans hend hlimit
  · rw [hinput]
    exact hsome x (Nat.le_trans hab hx) (Nat.lt_of_lt_of_le hlt hend)

/-- A byte that is readable is read as it stands in IN. -/
theorem readable.memRead_byte {s : State} {a : Nat} (h : readable s a 1) :
    ∃ b, readByte s.input a = some b ∧ memRead s a 1 = .ok [b] := by
  obtain ⟨hlimit, hsome⟩ := h
  obtain ⟨b, hb⟩ := Option.isSome_iff_exists.mp (hsome a (Nat.le_refl a) (Nat.lt_succ_self a))
  exact ⟨b, hb, memRead_eq_ok.mpr ⟨hlimit, by simp only [readBytes, hb]⟩⟩

/-- `t` is `s` after `n` bytes have been copied from `in_ptr` to `out_ptr` and counted in both cursors. -/
def tailCopied (n : Nat) (s t : State) : Prop :=
  (∀ k, k < n → readByte t.output (s.outPtr.toNat + k) = readByte s.input (s.inPtr.toNat + k)) ∧
  sameOutside s.output t.output s.outPtr.toNat n ∧
  t = { s with
    output := t.output, inPtr := BitVec.ofNat 64 (s.inPtr.toNat + n)
    outPtr := BitVec.ofNat 64 (s.outPtr.toNat + n) }

theorem tailCopied_zero (s : State) : tailCopied 0 s s :=
  ⟨fun _ hk => absurd hk (Nat.not_lt_zero _), fun _ _ => rfl,
    by simp only [Nat.add_zero, BitVec.ofNat_toNat, BitVec.setWidth_eq]⟩

/-- One turn of the loop copies the byte it has read (rule R181). -/
theorem tailByte_copies {s t : State} {b : Byte} (hb : readByte s.input s.inPtr.toNat = some b)
    (h : tailByte b s = .ok t) : tailCopied 1 s t := by
  obtain ⟨-, -, rfl⟩ := tailByte_eq_ok.mp h
  refine ⟨fun k hk => ?_, sameOutside_writeBytes _ _ _ _, rfl⟩
  obtain rfl : k = 0 := Nat.lt_one_iff.mp hk
  have hheld := holdsLE_writeBytes s.output s.outPtr.toNat 1 b.toNat 0 Nat.one_pos
  rw [Nat.pow_zero, Nat.div_one, BitVec.ofNat_toNat, BitVec.setWidth_eq] at hheld
  exact hheld.trans hb.symm

/-- Where the cursors stand after a copy that reaches no 2^64, and what it leaves alone. -/
theorem tailCopied.cursors {n : Nat} {s t : State} (h : tailCopied n s t)
    (hin : s.inPtr.toNat + n < 2 ^ 64) (hout : s.outPtr.toNat + n < 2 ^ 64) :
    t.inPtr.toNat = s.inPtr.toNat + n ∧ t.outPtr.toNat = s.outPtr.toNat + n ∧ t.input = s.input ∧
      t.latch = s.latch := by
  obtain ⟨-, -, ht⟩ := h
  rw [ht, BitVec.toNat_ofNat, BitVec.toNat_ofNat, Nat.mod_eq_of_lt hin, Nat.mod_eq_of_lt hout]
  exact ⟨rfl, rfl, rfl, rfl⟩

/-- Bytes copied after other bytes lie above them. -/
theorem tailCopied.trans {m n : Nat} {s u t : State} (h : tailCopied m s u) (h' : tailCopied n u t)
    (hin : s.inPtr.toNat + m < 2 ^ 64) (hout : s.outPtr.toNat + m < 2 ^ 64) : tailCopied (m + n) s t := by
  obtain ⟨hinPtr, houtPtr, hinput, -⟩ := h.cursors hin hout
  obtain ⟨hfirst, hframe, hu⟩ := h
  obtain ⟨hrest, hframe', ht⟩ := h'
  rw [houtPtr] at hframe' hrest
  refine ⟨fun k hk => ?_, fun x hx => ?_, ?_⟩
  · by_cases hkm : k < m
    · rw [hframe' _ (by omega), hfirst k hkm]
    · obtain ⟨j, rfl⟩ := Nat.exists_eq_add_of_le (Nat.not_lt.mp hkm)
      have hj := hrest j (by omega)
      rwa [hinput, hinPtr, Nat.add_assoc, Nat.add_assoc] at hj
  · rw [hframe' x (by omega), hframe x (by omega)]
  · rw [ht, hinPtr, houtPtr, hu, Nat.add_assoc, Nat.add_assoc]

/-- With a byte to read and room to write it, one turn of the loop completes. -/
theorem tailByte_completes {s : State} (hin : readable s s.inPtr.toNat 1)
    (hout : s.outPtr.toNat + 1 ≤ s.latch.outLimit.toNat) :
    ∃ b u, memRead s s.inPtr.toNat 1 = .ok [b] ∧ tailByte b s = .ok u ∧ tailCopied 1 s u := by
  obtain ⟨b, hb, hread⟩ := hin.memRead_byte
  obtain ⟨hlimit, -⟩ := hin
  have hbyte := (tailByte_eq_ok (b := b)).mpr ⟨hout, Nat.lt_of_le_of_lt hlimit s.latch.inLimit.isLt, rfl⟩
  exact ⟨b, _, hread, hbyte, tailByte_copies hb hbyte⟩

/-- `n` turns of the loop, with the bytes there to read and the room to write them. -/
theorem tailBytes_copies (n : Nat) : ∀ {s : State}, readable s s.inPtr.toNat n →
    s.outPtr.toNat + n ≤ s.latch.outLimit.toNat → ∃ t, tailBytes n s = .ok t ∧ tailCopied n s t := by
  induction n with
  | zero => exact fun {s} _ _ => ⟨s, rfl, tailCopied_zero s⟩
  | succ n ih =>
    intro s hin hout
    have hfirst : readable s s.inPtr.toNat 1 := hin.sub rfl rfl (Nat.le_refl _) (by omega)
    obtain ⟨b, u, hread, hbyte, hone⟩ := tailByte_completes hfirst (by omega)
    have hinLimit := s.latch.inLimit.isLt
    have houtLimit := s.latch.outLimit.isLt
    obtain ⟨hlimit, -⟩ := hfirst
    have hinLt : s.inPtr.toNat + 1 < 2 ^ 64 := by omega
    have houtLt : s.outPtr.toNat + 1 < 2 ^ 64 := by omega
    obtain ⟨hinPtr, houtPtr, hinput, hlatch⟩ := hone.cursors hinLt houtLt
    obtain ⟨t, hloop, hrest⟩ :=
      ih (hin.sub hlatch hinput (by omega) (by omega)) (by rw [houtPtr, hlatch]; omega)
    refine ⟨t, tailBytes_succ_eq_ok.mpr ⟨[b], u, hread, hbyte, hloop⟩, ?_⟩
    have hboth := hone.trans hrest hinLt houtLt
    rwa [Nat.add_comm 1 n] at hboth

/-- Settles O57: the loop makes as many turns as there are bytes left, so `in_ptr` ends at the limit. -/
theorem emitTailCopiesTheRest : Obligations.EmitTailCopiesTheRest := by
  intro s hsupplied hle hroom
  have hend : s.inPtr.toNat + inAvail s = s.latch.inLimit.toNat := Nat.add_sub_cancel' hle
  obtain ⟨t, hloop, hbytes, hframe, ht⟩ :=
    tailBytes_copies (inAvail s) (hsupplied.readable (Nat.le_refl _) hend.le) hroom
  rw [hend, BitVec.ofNat_toNat, BitVec.setWidth_eq] at ht
  exact ⟨t, outcomeOf_eq_next.mpr hloop, hbytes, hframe, ht⟩

end Sys2Proof.Machine
end

section
/-! PROCESS_UNIT stays within the bound of rule R222: the bits of a unit start no more than `W` words (rules R183,
R213, R222). -/

namespace Sys2Proof.Machine

/-! ### Bits pushed and words started -/

/-- `t` is reached from `s` by pushing at most `n` bits and appending at most `b` bytes of hashes: `w` words have
been started, each when the one before it was full (rules R104, R172). -/
def PackedBits (n b : Nat) (s t : State) : Prop :=
  ∃ w, PackedWithin (8 * w + b) s t ∧ 64 * w + t.bitPos.toNat ≤ s.bitPos.toNat + n

/-- A word is open, and there is room for every word that `n` more bits can start and for `b` bytes. -/
def roomForBits (n b : Nat) (s : State) : Prop :=
  s.bitPos.toNat ≤ 64 ∧ s.sigAddr.toNat + 8 ≤ s.outPtr.toNat ∧
    s.outPtr.toNat + 8 * ((s.bitPos.toNat + n - 1) / 64) + b ≤ s.latch.outLimit.toNat

/-- Nothing pushed and nothing appended, with a word open that is not empty. -/
theorem packedBits_refl {n b : Nat} {s : State} (hpos : 1 ≤ s.bitPos.toNat) (hroom : roomForBits n b s) :
    PackedBits 0 0 s s := by
  obtain ⟨hle, hbelow, -⟩ := hroom
  exact ⟨0, ⟨rfl, rfl, hpos, hle, hbelow, Nat.le_refl _⟩, by omega⟩

theorem PackedBits.trans {n m b d : Nat} {s t u : State} (h : PackedBits n b s t) (h' : PackedBits m d t u) :
    PackedBits (n + m) (b + d) s u := by
  obtain ⟨w, hwithin, hbits⟩ := h
  obtain ⟨w', hwithin', hbits'⟩ := h'
  exact ⟨w + w', (hwithin.trans hwithin').mono (by omega), by omega⟩

theorem PackedBits.mono {n m b d : Nat} {s t : State} (h : PackedBits n b s t) (hn : n ≤ m) (hb : b ≤ d) :
    PackedBits m d s t := by
  obtain ⟨w, hwithin, hbits⟩ := h
  exact ⟨w, hwithin.mono (by omega), by omega⟩

theorem roomForBits.mono {n m b d : Nat} {s : State} (h : roomForBits n b s) (hm : m ≤ n) (hd : d ≤ b) :
    roomForBits m d s := by
  obtain ⟨hpos, hbelow, hlimit⟩ := h
  exact ⟨hpos, hbelow, by omega⟩

/-- What is left of the room once `n` bits and `b` bytes of it are used. -/
theorem PackedBits.room {n m b d : Nat} {s t : State} (h : PackedBits n b s t)
    (hroom : roomForBits (n + m) (b + d) s) : roomForBits m d t := by
  obtain ⟨w, hwithin, hbits⟩ := h
  obtain ⟨-, -, hlimit⟩ := hroom
  have hptr := hwithin.outPtr_le
  have hpos := hwithin.bitPos_pos
  refine ⟨hwithin.bitPos_le, hwithin.below, ?_⟩
  rw [hwithin.latch_eq]
  omega

theorem PackedBits.cfg_eq {n b : Nat} {s t : State} (h : PackedBits n b s t) : t.cfg = s.cfg := by
  obtain ⟨w, hwithin, -⟩ := h
  exact hwithin.cfg_eq

theorem PackedBits.latch_eq {n b : Nat} {s t : State} (h : PackedBits n b s t) : t.latch = s.latch := by
  obtain ⟨w, hwithin, -⟩ := h
  exact hwithin.latch_eq

theorem PackedBits.bitPos_pos {n b : Nat} {s t : State} (h : PackedBits n b s t) : 1 ≤ t.bitPos.toNat := by
  obtain ⟨w, hwithin, -⟩ := h
  exact hwithin.bitPos_pos

/-! ### The operations -/

/-- A field that fits starts no word; one that does not leaves the old word full and its rest in one new word. -/
theorem push_packedBits {c : Word64} {bits : BitVec 8} {s t : State}
    (hbelow : s.sigAddr.toNat + 8 ≤ s.outPtr.toNat) (h : push c bits s = .ok t) :
    PackedBits bits.toNat 0 s t := by
  have hwithin := push_packedWithin hbelow h
  obtain ⟨-, -, ⟨hfit, rfl⟩ | ⟨hover, -, hfit, -, rfl⟩⟩ := push_eq_ok.mp h
  · have hpos : (pushedFit c bits s).bitPos.toNat = s.bitPos.toNat + bits.toNat := bitCursor_toNat hfit
    exact ⟨0, { hwithin with outPtr_le := Nat.le_refl _ }, by omega⟩
  · have hpos : (pushedSplit c bits s).bitPos.toNat = s.bitPos.toNat + bits.toNat - 64 :=
      bitCursor_toNat hfit
    exact ⟨1, hwithin, by omega⟩

/-- A legal code of at most `n` bits is pushed wherever there is room for the words they start: none where it
fits. -/
theorem pushCode_packsBits {c : Code} {n : Nat} {s : State} (hc : codeLegal c = true)
    (hbits : c.bits.toNat ≤ n) (hroom : roomForBits n 0 s) :
    ∃ t, pushCode c s = .ok t ∧ PackedBits n 0 s t := by
  obtain ⟨hpos, hbelow, hlimit⟩ := hroom
  have hpush : ∃ t, pushCode c s = .ok t := by
    by_cases hfit : s.bitPos.toNat + c.bits.toNat ≤ 64
    · exact ⟨_, push_eq_ok.mpr ⟨hc, by omega, .inl ⟨hfit, rfl⟩⟩⟩
    · have hword : roomToPack 1 0 s := ⟨hpos, hbelow, by omega⟩
      obtain ⟨t, hpush, -⟩ := pushCode_packs hc hword
      exact ⟨t, hpush⟩
  obtain ⟨t, hpush⟩ := hpush
  exact ⟨t, hpush, (push_packedBits hbelow hpush).mono hbits (Nat.le_refl _)⟩

/-- No selector code of rule R98 is longer than 4 bits. -/
theorem fixedFormCode_bits_le {c : Code} (h : c ∈ fixedFormCode) : c.bits.toNat ≤ 4 := by
  have hall : ∀ c ∈ fixedFormCode, c.bits.toNat ≤ 4 := by decide
  exact hall c h

theorem emitSelector_packsBits {s : State} (hfixed : selectorCodesFixed s.cfg) (hcons : s.form.consistent 4)
    (hroom : roomForBits 4 0 s) (f : Form) : ∃ t, emitSelector f s = .ok t ∧ PackedBits 4 0 s t := by
  obtain ⟨hform, -⟩ := hfixed
  obtain ⟨c, hc, hlegal⟩ := fixedFormCode_at (rankOf_formId_lt hcons f)
  have hbits := fixedFormCode_bits_le (List.mem_of_getElem? hc)
  obtain ⟨t, hpush, w, hwithin, hcursor⟩ := pushCode_packsBits (s := recordForm s f) hlegal hbits hroom
  refine ⟨t, ?_, w, { hwithin with }, hcursor⟩
  rw [emitSelector, formCodeAt_of_getElem? (hform ▸ hc), hpush]

/-- A letter is one codebook entry, of at most `LMAX` bits (rule R11). -/
theorem emitLetter_packsBits {s : State} (hbook : codebookAccepted s.cfg = true)
    (hroom : roomForBits (longestCode s.cfg.codebook) 0 s) (b : Byte) :
    ∃ t, emitLetter b s = .ok t ∧ PackedBits (longestCode s.cfg.codebook) 0 s t := by
  obtain ⟨hentry, hlegal⟩ := codebookAt_of_accepted hbook (s.letter.rankOf b)
  have hbits := bits_le_longestCode (List.mem_of_getElem? hentry)
  obtain ⟨t, hpush, w, hwithin, hcursor⟩ := pushCode_packsBits (s := recordLetter s b) hlegal hbits hroom
  exact ⟨t, hpush, w, { hwithin with }, hcursor⟩

/-- One more letter, after packing that has left room for its bits. -/
theorem PackedBits.emitLetter {n : Nat} {s u : State} (hu : PackedBits n 0 s u)
    (hbook : codebookAccepted s.cfg = true) (hroom : roomForBits (n + longestCode s.cfg.codebook) 0 s)
    (b : Byte) : ∃ v, emitLetter b u = .ok v ∧ PackedBits (n + longestCode s.cfg.codebook) 0 s v := by
  rw [← hu.cfg_eq] at hbook hroom ⊢
  obtain ⟨v, hv, hpacked⟩ := emitLetter_packsBits hbook (hu.room hroom) b
  exact ⟨v, hv, hu.trans hpacked⟩

theorem emitLiteral_packsBits {s : State} (hbook : codebookAccepted s.cfg = true)
    (hroom : roomForBits (4 * longestCode s.cfg.codebook) 0 s) (c : Chunk) :
    ∃ t, emitLiteral c s = .ok t ∧ PackedBits (4 * longestCode s.cfg.codebook) 0 s t := by
  have hle (k : Nat) (hk : k ≤ 4 * longestCode s.cfg.codebook) : roomForBits k 0 s :=
    hroom.mono hk (Nat.le_refl _)
  obtain ⟨t0, h0, hp0⟩ := emitLetter_packsBits hbook (hle _ (by omega)) (chunkByte c 0)
  obtain ⟨t1, h1, hp1⟩ := hp0.emitLetter hbook (hle _ (by omega)) (chunkByte c 1)
  obtain ⟨t2, h2, hp2⟩ := hp1.emitLetter hbook (hle _ (by omega)) (chunkByte c 2)
  obtain ⟨t3, h3, hp3⟩ := hp2.emitLetter hbook (hle _ (by omega)) (chunkByte c 3)
  exact ⟨t3, emitLiteral_eq_ok.mpr ⟨t0, t1, t2, h0, h1, h2, h3⟩, hp3.mono (by omega) (Nat.le_refl _)⟩

/-- A payload is at most four letters or two bytes of hash (rules R145 to R148, R183). -/
theorem emitPayload_packsBits {s : State} (hbook : codebookAccepted s.cfg = true) (hpos : 1 ≤ s.bitPos.toNat)
    (hroom : roomForBits (4 * longestCode s.cfg.codebook) 2 s) (f : Form) (c : Chunk) (h : Hash) :
    ∃ t, emitPayload f c h s = .ok t ∧ PackedBits (4 * longestCode s.cfg.codebook) 2 s t := by
  have hnothing : PackedBits (4 * longestCode s.cfg.codebook) 2 s s :=
    (packedBits_refl hpos hroom).mono (Nat.zero_le _) (Nat.zero_le _)
  cases f with
  | literal =>
    obtain ⟨t, ht, hpacked⟩ := emitLiteral_packsBits hbook (hroom.mono (Nat.le_refl _) (by decide)) c
    exact ⟨t, ht, hpacked.mono (Nat.le_refl _) (by decide)⟩
  | dictB =>
    obtain ⟨hle, hbelow, hlimit⟩ := hroom
    obtain ⟨t, ht, hwithin⟩ := emitHash16_completes hpos ⟨hle, hbelow, by omega⟩ h
    have hcursor : t.bitPos = s.bitPos := by obtain ⟨-, rfl⟩ := emitHash16_eq_ok.mp ht; rfl
    exact ⟨t, ht, 0, hwithin, by rw [hcursor]; omega⟩
  | dictA => exact ⟨s, rfl, hnothing⟩
  | predicted => exact ⟨s, rfl, hnothing⟩

/-! ### Chunks -/

/-- The most bits a chunk adds to the bit stream (rule R183). -/
def chunkBits (cfg : Config) : Nat := 4 + 4 * longestCode cfg.codebook

theorem unitBits_eq (cfg : Config) : unitBits cfg = 8 * chunkBits cfg := rfl

/-- The dictionary and the context are no part of what is packed. -/
theorem PackedBits.dictUpdate {n b : Nat} {s t : State} (h : PackedBits n b s t) (f : Form) (c : Chunk)
    (x y : Hash) : PackedBits n b s (setLastHash (dictUpdate f c x t) y) := by
  obtain ⟨w, hwithin, hbits⟩ := h
  refine ⟨w, hwithin.dictUpdate f c x y, ?_⟩
  rwa [setLastHash_bitPos, dictUpdate_bitPos]

/-- PROCESS_CHUNK completes with room for the bits of its selector and its letters and for its hash. -/
theorem processChunk_packsBits {s : State} (hbook : codebookAccepted s.cfg = true)
    (hfixed : selectorCodesFixed s.cfg) (hcons : s.form.consistent 4)
    (hroom : roomForBits (chunkBits s.cfg) 2 s) (c : Chunk) :
    ∃ t, processChunk c s = .ok t ∧ PackedBits (chunkBits s.cfg) 2 s t := by
  have hselRoom : roomForBits 4 0 s := hroom.mono (Nat.le_add_right _ _) (by decide)
  obtain ⟨u, hsel, hu⟩ := emitSelector_packsBits hfixed hcons hselRoom (classify s c (hashOf s.cfg c))
  have hpayRoom : roomForBits (4 * longestCode s.cfg.codebook) 2 u := hu.room (b := 0) (d := 2) hroom
  rw [← hu.cfg_eq] at hbook hpayRoom
  obtain ⟨v, hpay, hv⟩ := emitPayload_packsBits hbook hu.bitPos_pos hpayRoom
    (classify s c (hashOf s.cfg c)) c (hashOf s.cfg c)
  rw [hu.cfg_eq] at hv
  exact ⟨_, processChunk_eq_ok.mpr ⟨u, v, hsel, hpay, rfl⟩, (hu.trans hv).dictUpdate _ _ _ _⟩

/-- A chunk that is readable is read. -/
theorem readable.memRead_chunk {s : State} {a : Nat} (h : readable s a 4) :
    ∃ bs, memRead s a 4 = .ok bs := by
  obtain ⟨hlimit, hsome⟩ := h
  obtain ⟨b0, h0⟩ := Option.isSome_iff_exists.mp (hsome a (by omega) (by omega))
  obtain ⟨b1, h1⟩ := Option.isSome_iff_exists.mp (hsome (a + 1) (by omega) (by omega))
  obtain ⟨b2, h2⟩ := Option.isSome_iff_exists.mp (hsome (a + 1 + 1) (by omega) (by omega))
  obtain ⟨b3, h3⟩ := Option.isSome_iff_exists.mp (hsome (a + 1 + 1 + 1) (by omega) (by omega))
  exact ⟨[b0, b1, b2, b3], memRead_eq_ok.mpr ⟨hlimit, by simp only [readBytes, h0, h1, h2, h3]⟩⟩

/-- What the loop over `n` chunks from offset `a` needs: a configuration and tables that give every field a legal
code, the chunks there to read, and room for their bits and hashes. -/
def chunksReady (n a : Nat) (s : State) : Prop :=
  codebookAccepted s.cfg = true ∧ selectorCodesFixed s.cfg ∧ tablesConsistent s ∧ readable s a (4 * n) ∧
    roomForBits (chunkBits s.cfg * n) (2 * n) s

/-- One turn of the loop completes and leaves what the turns after it need. -/
theorem chunksReady.turn {n a : Nat} {s : State} (h : chunksReady (n + 1) a s) :
    ∃ bs u, memRead s a 4 = .ok bs ∧
      processChunk (le32 (bs.getD 0 0) (bs.getD 1 0) (bs.getD 2 0) (bs.getD 3 0)) s = .ok u ∧
      PackedBits (chunkBits s.cfg) 2 s u ∧ chunksReady n (a + 4) u := by
  obtain ⟨hbook, hfixed, htables, hin, hroom⟩ := h
  have ⟨_, hform⟩ := htables
  have hfirst : readable s a 4 := hin.sub rfl rfl (Nat.le_refl _) (by omega)
  have hchunkRoom : roomForBits (chunkBits s.cfg) 2 s :=
    hroom.mono (Nat.le_mul_of_pos_right _ (Nat.succ_pos n)) (by omega)
  obtain ⟨bs, hread⟩ := hfirst.memRead_chunk
  obtain ⟨u, hchunk, hu⟩ := processChunk_packsBits hbook hfixed hform hchunkRoom
    (le32 (bs.getD 0 0) (bs.getD 1 0) (bs.getD 2 0) (bs.getD 3 0))
  refine ⟨bs, u, hread, hchunk, hu, ?_⟩
  rw [Nat.mul_succ, Nat.add_comm, Nat.mul_succ 2, Nat.add_comm (2 * n)] at hroom
  unfold chunksReady
  rw [hu.cfg_eq]
  exact ⟨hbook, hfixed, keptByPrimitives_tablesConsistent.processChunk htables hchunk,
    hin.sub hu.latch_eq (processChunk_input hchunk) (by omega) (by omega), hu.room hroom⟩

/-- The loop, with a word open that is not empty: each chunk has the room the chunks before it have left. -/
theorem processChunks_packsBits (n : Nat) : ∀ {a : Nat} {s : State}, chunksReady n a s →
    1 ≤ s.bitPos.toNat →
    ∃ t, processChunks n a s = .ok t ∧ PackedBits (chunkBits s.cfg * n) (2 * n) s t := by
  induction n with
  | zero =>
    intro a s ⟨_, _, _, _, hroom⟩ hpos
    exact ⟨s, rfl, packedBits_refl hpos hroom⟩
  | succ n ih =>
    intro a s h _
    obtain ⟨bs, u, hread, hchunk, hu, hready⟩ := h.turn
    obtain ⟨t, hloop, ht⟩ := ih hready hu.bitPos_pos
    rw [hu.cfg_eq] at ht
    refine ⟨t, processChunks_succ_eq_ok.mpr ⟨bs, u, hread, hchunk, hloop⟩, (hu.trans ht).mono ?_ ?_⟩
    · rw [Nat.mul_succ, Nat.add_comm]
    · omega

/-- The first chunk of a unit may find an empty word; after it the word is not empty. -/
theorem unitChunks_packsBits {s : State} (h : chunksReady 8 s.inPtr.toNat s) :
    ∃ u, processChunks 8 s.inPtr.toNat s = .ok u ∧ PackedBits (unitBits s.cfg) 16 s u := by
  obtain ⟨bs, u, hread, hchunk, hu, hready⟩ := h.turn
  obtain ⟨t, hloop, ht⟩ := processChunks_packsBits 7 hready hu.bitPos_pos
  rw [hu.cfg_eq] at ht
  have hunit : chunkBits s.cfg + chunkBits s.cfg * 7 ≤ unitBits s.cfg := by rw [unitBits_eq]; omega
  exact ⟨t, processChunks_succ_eq_ok.mpr ⟨bs, u, hread, hchunk, hloop⟩, (hu.trans ht).mono hunit (by decide)⟩

/-- Room for `W` words is room for the bits of a unit: the cursor is at most 64 (rule R222). -/
theorem roomToPack.roomForUnit {b : Nat} {s : State} (h : roomToPack (unitWords s.cfg) b s) :
    roomForBits (unitBits s.cfg) b s := by
  obtain ⟨hpos, hbelow, hlimit⟩ := h
  unfold unitWords at hlimit
  exact ⟨hpos, hbelow, by omega⟩

/-- The bits of a unit start at most `W` words: the cursor is at most 64 before them and at least 1 after. -/
theorem PackedBits.outPtr_le_of_unit {b : Nat} {s t : State} (h : PackedBits (unitBits s.cfg) b s t)
    (hpos : s.bitPos.toNat ≤ 64) : t.outPtr.toNat ≤ s.outPtr.toNat + 8 * unitWords s.cfg + b := by
  obtain ⟨w, hwithin, hbits⟩ := h
  have hptr := hwithin.outPtr_le
  have hpos' := hwithin.bitPos_pos
  unfold unitWords
  omega

/-- Settles O45: the bits of eight chunks fit the room of `W` words, whatever of it each chunk takes, and the
cursor of IN stays below `in_limit`. -/
theorem processUnitStaysWithinItsBound : Obligations.ProcessUnitStaysWithinItsBound := by
  intro s hbook hfixed htables hroom havail hsupplied
  have hend : s.inPtr.toNat + 4 * 8 ≤ s.latch.inLimit.toNat := by unfold inAvail at havail; omega
  have hbits : roomForBits (chunkBits s.cfg * 8) (2 * 8) s := by
    rw [Nat.mul_comm, ← unitBits_eq]
    exact hroom.roomForUnit
  obtain ⟨hpos, -, -⟩ := hroom
  obtain ⟨u, hloop, hu⟩ := unitChunks_packsBits
    ⟨hbook, hfixed, htables, hsupplied.readable (Nat.le_refl _) hend, hbits⟩
  have hptr : u.inPtr.toNat + 32 < 2 ^ 64 := by
    rw [processChunks_inPtr 8 hloop]
    exact Nat.lt_of_le_of_lt hend s.latch.inLimit.isLt
  have hunit := processUnit_eq_ok.mpr ⟨u, hloop, hptr, rfl⟩
  have houtPtr := hu.outPtr_le_of_unit hpos
  obtain ⟨w, hwithin, -⟩ := hu
  exact ⟨_, outcomeOf_eq_next.mpr hunit, processUnit_inPtr hunit,
    keptByPrimitives_tablesConsistent.processUnit htables hunit, hwithin.bitPos_pos, hwithin.bitPos_le,
    hwithin.below, houtPtr⟩

end Sys2Proof.Machine
end

section
/-! The driver's transfers of control: what each handler hands on and returns, a measure that every transfer
lowers, and the driver as an equation (rules R200, R218, R220; log entry 10). -/

namespace Sys2Proof.Machine

/-! ### Where a handler sends control and what it returns -/

/-- The rows of rule R218's table that go on in the same command. -/
inductive GoesTo : Place → State → Place → State → Prop
  | newWord {s t : State} : outputShort s = false → efficiencyCheckDue s = false → blockEndDue s = false →
      startSig s = .ok t → GoesTo .prepareNewBlock s .readChunk t
  | unit {s t : State} : 32 ≤ inAvail s → processUnit s = .ok t → GoesTo .readChunk s .checkSignatureState t
  | tail {s : State} : inAvail s < 32 → s.latch.mode = .flush → GoesTo .readChunk s .flushTail s
  | full {s : State} : wordFull s = true → GoesTo .checkSignatureState s .prepareNewBlock s
  | more {s : State} : wordFull s = false → outputShort s = false →
      GoesTo .checkSignatureState s .readChunk s
  | fullTail {s t : State} : tailChunks (inAvail s / 4) s = .ok t → 4 ≤ inAvail t →
      GoesTo .flushTail s .prepareNewBlock t

/-- The rows of rule R218's table that return a status. -/
inductive Returns : Place → State → State → Prop
  | outputStall {s : State} : outputShort s = true →
      Returns .prepareNewBlock s (raise .stallOnOutputPrepare s)
  | efficiency {s : State} : efficiencyCheckDue s = true →
      Returns .prepareNewBlock s (raise .efficiencyCheck s)
  | blockEnd {s : State} : blockEndDue s = true → Returns .prepareNewBlock s (raise .newBlock s)
  | inputStall {s : State} : inAvail s < 32 → s.latch.mode = .step →
      Returns .readChunk s (raise .stallOnInput s)
  | checkStall {s : State} : wordFull s = false → outputShort s = true →
      Returns .checkSignatureState s (raise .stallOnOutputCheck s)
  | finished {s t u v : State} : tailChunks (inAvail s / 4) s = .ok t → inAvail t < 4 →
      emitEnd t = .ok u → emitTail u = .ok v → Returns .flushTail s (raise .flushReady v)

theorem handler_goto {p q : Place} {s t : State} (h : handler p s = .ok (.goto q t)) : GoesTo p s q t := by
  cases p with
  | prepareNewBlock =>
    rcases prepareNewBlock_cases h with ⟨-, e⟩ | ⟨-, -, e⟩ | ⟨-, -, -, e⟩ | ⟨hroom, heff, hblock, u, hu, e⟩ <;>
      cases e
    exact .newWord hroom heff hblock hu
  | readChunk =>
    rcases readChunk_cases h with ⟨havail, u, hu, e⟩ | ⟨-, -, e⟩ | ⟨havail, hmode, e⟩ <;> cases e
    · exact .unit havail hu
    · exact .tail havail hmode
  | checkSignatureState =>
    rcases checkSignatureState_cases s with ⟨hfull, e⟩ | ⟨-, -, e⟩ | ⟨hfull, hroom, e⟩ <;>
      rw [handler, e] at h <;> cases h
    · exact .full hfull
    · exact .more hfull hroom
  | flushTail =>
    obtain ⟨u, hu, ⟨havail, e⟩ | ⟨-, v, -, e⟩⟩ := flushTail_cases h <;> cases e
    exact .fullTail hu havail

theorem handler_returned {p : Place} {s t : State} (h : handler p s = .ok (.returned t)) : Returns p s t := by
  cases p with
  | prepareNewBlock =>
    rcases prepareNewBlock_cases h with ⟨hshort, e⟩ | ⟨-, hdue, e⟩ | ⟨-, -, hdue, e⟩ | ⟨-, -, -, u, -, e⟩ <;>
      cases e
    · exact .outputStall hshort
    · exact .efficiency hdue
    · exact .blockEnd hdue
  | readChunk =>
    rcases readChunk_cases h with ⟨-, u, -, e⟩ | ⟨havail, hmode, e⟩ | ⟨-, -, e⟩ <;> cases e
    exact .inputStall havail hmode
  | checkSignatureState =>
    rcases checkSignatureState_cases s with ⟨-, e⟩ | ⟨hfull, hshort, e⟩ | ⟨-, -, e⟩ <;>
      rw [handler, e] at h <;> cases h
    exact .checkStall hfull hshort
  | flushTail =>
    obtain ⟨u, hu, ⟨-, e⟩ | ⟨havail, v, hv, e⟩⟩ := flushTail_cases h <;> cases e
    obtain ⟨w, x, hend, htail, rfl⟩ := finishStream_eq_ok.mp hv
    exact .finished hu havail hend htail

/-! ### What a transfer leaves alone -/

/-- What no handler writes before it returns: the arguments of the command, the efficiency flag, the
configuration and IN. -/
def commandFrame (s : State) : Latch × Bool × Config × Memory := (s.latch, s.effChecked, s.cfg, s.input)

theorem commandFrame_eq_iff {s t : State} : commandFrame t = commandFrame s ↔
    t.latch = s.latch ∧ t.effChecked = s.effChecked ∧ t.cfg = s.cfg ∧ t.input = s.input := by
  simp only [commandFrame, Prod.mk.injEq]

theorem push_commandFrame {c : Word64} {b : BitVec 8} {s t : State} (h : push c b s = .ok t) :
    commandFrame t = commandFrame s := by
  obtain ⟨-, -, ⟨-, rfl⟩ | ⟨-, -, -, -, rfl⟩⟩ := push_eq_ok.mp h <;> rfl

theorem startSig_commandFrame {s t : State} (h : startSig s = .ok t) : commandFrame t = commandFrame s := by
  obtain ⟨-, rfl⟩ := startSig_eq_ok.mp h
  rfl

theorem processChunk_commandFrame {c : Chunk} {s t : State} (h : processChunk c s = .ok t) :
    commandFrame t = commandFrame s := by
  have hframe := congrArg commandFrame (processChunk_frame h)
  exact hframe

theorem processChunks_commandFrame (n : Nat) : ∀ {a : Nat} {s t : State}, processChunks n a s = .ok t →
    commandFrame t = commandFrame s := by
  induction n with
  | zero => intro a s t h; cases h; rfl
  | succ n ih =>
    intro a s t h
    obtain ⟨b, u, -, hchunk, hrest⟩ := processChunks_succ_eq_ok.mp h
    rw [ih hrest, processChunk_commandFrame hchunk]

theorem processUnit_commandFrame {s t : State} (h : processUnit s = .ok t) :
    commandFrame t = commandFrame s := by
  obtain ⟨u, hloop, -, rfl⟩ := processUnit_eq_ok.mp h
  have hframe := processChunks_commandFrame 8 hloop
  exact hframe

theorem tailChunk_commandFrame {s t : State} (h : tailChunk s = .ok t) : commandFrame t = commandFrame s := by
  obtain ⟨b, -, -, hchunk⟩ := tailChunk_eq_ok.mp h
  have hframe := processChunk_commandFrame hchunk
  exact hframe

theorem tailChunks_commandFrame (n : Nat) : ∀ {s t : State}, tailChunks n s = .ok t →
    commandFrame t = commandFrame s := by
  induction n with
  | zero => intro s t h; cases h; rfl
  | succ n ih =>
    intro s t h
    rcases tailChunks_succ_eq_ok.mp h with ⟨-, rfl⟩ | ⟨-, -, u, hchunk, hrest⟩
    · rfl
    · rw [ih hrest, tailChunk_commandFrame hchunk]

theorem tailBytes_commandFrame (n : Nat) : ∀ {s t : State}, tailBytes n s = .ok t →
    commandFrame t = commandFrame s := by
  induction n with
  | zero => intro s t h; cases h; rfl
  | succ n ih =>
    intro s t h
    obtain ⟨bs, u, -, hbyte, hrest⟩ := tailBytes_succ_eq_ok.mp h
    obtain ⟨-, -, rfl⟩ := tailByte_eq_ok.mp hbyte
    have hframe := ih hrest
    exact hframe

theorem GoesTo.commandFrame {p q : Place} {s t : State} (h : GoesTo p s q t) :
    commandFrame t = commandFrame s := by
  cases h with
  | newWord _ _ _ hstart => exact startSig_commandFrame hstart
  | unit _ hunit => exact processUnit_commandFrame hunit
  | tail | full | more => rfl
  | fullTail hloop _ => exact tailChunks_commandFrame _ hloop

theorem GoesTo.latch_eq {p q : Place} {s t : State} (h : GoesTo p s q t) : t.latch = s.latch := by
  obtain ⟨hlatch, -⟩ := commandFrame_eq_iff.mp h.commandFrame
  exact hlatch

/-! ### The bytes of IN left -/

/-- A turn of FLUSH_TAIL's loop takes 4 bytes that were there (rule R216). -/
theorem tailChunk_inAvail {s t : State} (h : tailChunk s = .ok t) : inAvail t + 4 = inAvail s := by
  have hptr := tailChunk_inPtr h
  obtain ⟨hlatch, -⟩ := commandFrame_eq_iff.mp (tailChunk_commandFrame h)
  obtain ⟨b, hread, -, -⟩ := tailChunk_eq_ok.mp h
  obtain ⟨hlimit, -⟩ := memRead_eq_ok.mp hread
  unfold inAvail
  rw [hlatch, hptr]
  omega

theorem tailChunks_inAvail_le (n : Nat) {s t : State} (h : tailChunks n s = .ok t) :
    inAvail t ≤ inAvail s := by
  have hptr := tailChunks_inPtr_le n h
  obtain ⟨hlatch, -⟩ := commandFrame_eq_iff.mp (tailChunks_commandFrame n h)
  unfold inAvail
  rw [hlatch]
  omega

/-- The loop stops at a full word or with fewer than 4 bytes left, not for want of turns. -/
theorem tailChunks_stops (n : Nat) : ∀ {s t : State}, tailChunks n s = .ok t → inAvail s < 4 * n + 4 →
    wordFull t = true ∨ inAvail t < 4 := by
  induction n with
  | zero => intro s t h hlt; cases h; exact .inr hlt
  | succ n ih =>
    intro s t h hlt
    rcases tailChunks_succ_eq_ok.mp h with ⟨hstop, rfl⟩ | ⟨-, -, u, hchunk, hrest⟩
    · exact hstop
    · have havail := tailChunk_inAvail hchunk
      exact ih hrest (by omega)

/-- FLUSH_TAIL goes on only because the word is full. -/
theorem tailChunks_wordFull {s t : State} (h : tailChunks (inAvail s / 4) s = .ok t) (havail : 4 ≤ inAvail t) :
    wordFull t = true :=
  (tailChunks_stops _ h (by omega)).resolve_right (by omega)

/-- Entered with a word that is not full, FLUSH_TAIL takes a chunk before it goes on. -/
theorem tailChunks_consumes {s t : State} (h : tailChunks (inAvail s / 4) s = .ok t) (havail : 4 ≤ inAvail t)
    (hfull : wordFull s = false) : inAvail t + 4 ≤ inAvail s := by
  have hle := tailChunks_inAvail_le _ h
  obtain ⟨n, hn⟩ : ∃ n, inAvail s / 4 = n + 1 := ⟨inAvail s / 4 - 1, by omega⟩
  rw [hn] at h
  rcases tailChunks_succ_eq_ok.mp h with ⟨hstop, -⟩ | ⟨-, -, u, hchunk, hrest⟩
  · rcases hstop with hfull' | hshort
    · rw [hfull] at hfull'; cases hfull'
    · omega
  · have hturn := tailChunk_inAvail hchunk
    have hrest := tailChunks_inAvail_le n hrest
    omega

theorem processUnit_inAvail {s t : State} (h : processUnit s = .ok t) : inAvail t = inAvail s - 32 := by
  have hptr := processUnit_inPtr h
  obtain ⟨hlatch, -⟩ := commandFrame_eq_iff.mp (processUnit_commandFrame h)
  unfold inAvail
  rw [hlatch, hptr]
  omega

theorem startSig_wordFull {s t : State} (h : startSig s = .ok t) : wordFull t = false := by
  obtain ⟨-, rfl⟩ := startSig_eq_ok.mp h
  rfl

theorem startSig_inAvail {s t : State} (h : startSig s = .ok t) : inAvail t = inAvail s := by
  obtain ⟨-, rfl⟩ := startSig_eq_ok.mp h
  rfl

/-! ### Every command terminates -/

/-- A bound on the transfers still to come: a chunk of 4 bytes pays for the three transfers of a new word, and a
full word at READ_CHUNK or FLUSH_TAIL costs one round through PREPARE_NEW_BLOCK (rule R220). -/
def transfersLeft (p : Place) (s : State) : Nat :=
  match p with
  | .prepareNewBlock => inAvail s + 2
  | .readChunk => inAvail s + if wordFull s then 4 else 1
  | .checkSignatureState => inAvail s + 3
  | .flushTail => inAvail s + if wordFull s then 3 else 0

theorem GoesTo.transfersLeft_lt {p q : Place} {s t : State} (h : GoesTo p s q t) :
    transfersLeft q t < transfersLeft p s := by
  cases h with
  | newWord _ _ _ hstart => simp [transfersLeft, startSig_wordFull hstart, startSig_inAvail hstart]
  | unit havail hunit => have hleft := processUnit_inAvail hunit; simp only [transfersLeft]; split <;> omega
  | tail => simp only [transfersLeft]; split <;> omega
  | full => simp [transfersLeft]
  | more hfull => simp [transfersLeft, hfull]
  | fullTail hloop havail =>
    have hle := tailChunks_inAvail_le _ hloop
    simp only [transfersLeft]
    split
    · omega
    · next hfull =>
      have hchunk := tailChunks_consumes hloop havail (Bool.eq_false_of_not_eq_true hfull)
      omega

theorem transfersLeft_lt_driverFuel (p : Place) (s : State) : transfersLeft p s < driverFuel s := by
  unfold driverFuel
  cases p with
  | prepareNewBlock | checkSignatureState => simp only [transfersLeft]; omega
  | readChunk | flushTail => simp only [transfersLeft]; split <;> omega

/-- What the driver does with a handler's end: it goes on at the place named, or hands the status back. -/
def followTransfer : Transfer → Except Fault State
  | .goto q t => drive q t
  | .returned t => .ok t

/-- Above the bound the number of transfers allowed does not matter. -/
theorem runDriver_eq_of_transfersLeft_lt (n : Nat) : ∀ {m : Nat} {p : Place} {s : State},
    transfersLeft p s < n → transfersLeft p s < m → runDriver n p s = runDriver m p s := by
  induction n with
  | zero => intro m p s h; omega
  | succ n ih =>
    intro m p s hn hm
    obtain ⟨m, rfl⟩ : ∃ k, m = k + 1 := ⟨m - 1, by omega⟩
    rw [runDriver, runDriver]
    cases hh : handler p s with
    | error f => rfl
    | ok r =>
      cases r with
      | returned t => rfl
      | goto q t =>
        have hlt := (handler_goto hh).transfersLeft_lt
        exact ih (by omega) (by omega)

/-- The driver entered at a place is the handler there and then the driver where that sends control (rule
R200). -/
theorem drive_eq (p : Place) (s : State) : drive p s = handler p s >>= followTransfer := by
  have hfuel := transfersLeft_lt_driverFuel p s
  obtain ⟨n, hn⟩ : ∃ n, driverFuel s = n + 1 := ⟨driverFuel s - 1, by omega⟩
  rw [drive, hn, runDriver]
  cases hh : handler p s with
  | error f => rfl
  | ok r =>
    cases r with
    | returned t => rfl
    | goto q t =>
      have hlt := (handler_goto hh).transfersLeft_lt
      exact runDriver_eq_of_transfersLeft_lt n (by omega) (transfersLeft_lt_driverFuel q t)

theorem drive_of_goto {p q : Place} {s t : State} (h : handler p s = .ok (.goto q t)) :
    drive p s = drive q t := by
  rw [drive_eq, h]
  rfl

theorem drive_of_returned {p : Place} {s t : State} (h : handler p s = .ok (.returned t)) :
    drive p s = .ok t := by
  rw [drive_eq, h]
  rfl

/-- The induction over a command's transfers, faults included: the transfers do not run out, so
its outcome is that of some handler on the way. -/
theorem drive_induction {R : Place → State → Prop} {Q : Except Fault State → Prop}
    (herror : ∀ p s f, R p s → handler p s = .error f → Q (.error f))
    (hret : ∀ p s t, R p s → handler p s = .ok (.returned t) → Q (.ok t))
    (hgoto : ∀ p s q t, R p s → handler p s = .ok (.goto q t) → R q t) {p : Place} {s : State} (h : R p s) :
    Q (drive p s) := by
  induction hn : transfersLeft p s using Nat.strong_induction_on generalizing p s with
  | _ n ih =>
    subst hn
    rw [drive_eq]
    cases hh : handler p s with
    | error f => exact herror p s f h hh
    | ok r =>
      cases r with
      | returned t => exact hret p s t h hh
      | goto q t => exact ih _ (handler_goto hh).transfersLeft_lt (hgoto p s q t h hh) rfl

end Sys2Proof.Machine
end

section
/-! Every command and every handler terminates (rule R220). -/

namespace Sys2Proof.Machine

/-- The operation does not end for want of transfers. -/
def progresses {α : Type} (x : Except Fault α) : Prop := x ≠ .error .noProgress

theorem ok_progresses {α : Type} (a : α) : progresses (.ok a) := nofun

theorem error_progresses {α : Type} {f : Fault} (h : f ≠ .noProgress) :
    progresses (.error f : Except Fault α) :=
  fun e => h (Except.error.inj e)

theorem bind_progresses {α β : Type} {x : Except Fault α} {f : α → Except Fault β} (hx : progresses x)
    (hf : ∀ a, progresses (f a)) : progresses (x >>= f) := by
  cases x with
  | error e => exact fun h => hx (congrArg _ (Except.error.inj h))
  | ok a => exact hf a

/-! ### The operations -/

theorem memRead_progresses (s : State) (a n : Nat) : progresses (memRead s a n) := by
  unfold memRead
  split
  · exact error_progresses (by decide)
  · split
    · exact ok_progresses _
    · exact error_progresses (by decide)

theorem memWrite_progresses (s : State) (a n v : Nat) : progresses (memWrite s a n v) := by
  unfold memWrite
  split
  · exact error_progresses (by decide)
  · exact ok_progresses _

theorem advance_progresses (p : Word64) (n : Nat) : progresses (advance p n) := by
  unfold advance
  split
  · exact ok_progresses _
  · exact error_progresses (by decide)

theorem startSig_progresses (s : State) : progresses (startSig s) :=
  bind_progresses (memWrite_progresses _ _ _ _) fun _ =>
    bind_progresses (advance_progresses _ _) fun _ => ok_progresses _

theorem orIntoWord_progresses (c : Word64) (s : State) : progresses (orIntoWord c s) :=
  bind_progresses (memWrite_progresses _ _ _ _) fun _ => ok_progresses _

theorem pushRest_progresses (c : Word64) (n : Nat) (s : State) : progresses (pushRest c n s) := by
  unfold pushRest
  split
  · exact bind_progresses (orIntoWord_progresses _ _) fun _ => ok_progresses _
  · exact error_progresses (by decide)

theorem push_progresses (c : Word64) (bits : BitVec 8) (s : State) : progresses (push c bits s) := by
  unfold push
  split
  · refine bind_progresses (orIntoWord_progresses _ _) fun t => ?_
    dsimp only
    split
    · exact bind_progresses (startSig_progresses _) fun _ => pushRest_progresses _ _ _
    · exact ok_progresses _
  · exact error_progresses (by decide)

theorem emitHash16_progresses (h : Hash) (s : State) : progresses (emitHash16 h s) :=
  bind_progresses (memWrite_progresses _ _ _ _) fun _ =>
    bind_progresses (advance_progresses _ _) fun _ => ok_progresses _

theorem emitLiteral_progresses (c : Chunk) (s : State) : progresses (emitLiteral c s) :=
  bind_progresses (push_progresses _ _ _) fun _ => bind_progresses (push_progresses _ _ _) fun _ =>
    bind_progresses (push_progresses _ _ _) fun _ => push_progresses _ _ _

theorem emitPayload_progresses (f : Form) (c : Chunk) (h : Hash) (s : State) :
    progresses (emitPayload f c h s) := by
  cases f with
  | literal => exact emitLiteral_progresses c s
  | dictB => exact emitHash16_progresses h s
  | dictA | predicted => exact ok_progresses s

theorem processChunk_progresses (c : Chunk) (s : State) : progresses (processChunk c s) :=
  bind_progresses (push_progresses _ _ _) fun _ =>
    bind_progresses (emitPayload_progresses _ _ _ _) fun _ => ok_progresses _

theorem processChunks_progresses (n : Nat) : ∀ (a : Nat) (s : State), progresses (processChunks n a s) := by
  induction n with
  | zero => exact fun _ s => ok_progresses s
  | succ n ih =>
    exact fun a s => bind_progresses (memRead_progresses _ _ _) fun _ =>
      bind_progresses (processChunk_progresses _ _) fun _ => ih _ _

theorem processUnit_progresses (s : State) : progresses (processUnit s) :=
  bind_progresses (processChunks_progresses _ _ _) fun _ =>
    bind_progresses (advance_progresses _ _) fun _ => ok_progresses _

theorem tailChunk_progresses (s : State) : progresses (tailChunk s) :=
  bind_progresses (memRead_progresses _ _ _) fun _ =>
    bind_progresses (advance_progresses _ _) fun _ => processChunk_progresses _ _

theorem tailChunks_progresses (n : Nat) : ∀ s : State, progresses (tailChunks n s) := by
  induction n with
  | zero => exact ok_progresses
  | succ n ih =>
    intro s
    unfold tailChunks
    split
    · exact ok_progresses _
    · split
      · exact ok_progresses _
      · exact bind_progresses (tailChunk_progresses _) ih

theorem tailByte_progresses (b : Byte) (s : State) : progresses (tailByte b s) :=
  bind_progresses (memWrite_progresses _ _ _ _) fun _ => bind_progresses (advance_progresses _ _) fun _ =>
    bind_progresses (advance_progresses _ _) fun _ => ok_progresses _

theorem tailBytes_progresses (n : Nat) : ∀ s : State, progresses (tailBytes n s) := by
  induction n with
  | zero => exact ok_progresses
  | succ n ih =>
    exact fun s => bind_progresses (memRead_progresses _ _ _) fun _ =>
      bind_progresses (tailByte_progresses _ _) ih

theorem finishStream_progresses (s : State) : progresses (finishStream s) :=
  bind_progresses (push_progresses _ _ _) fun _ =>
    bind_progresses (tailBytes_progresses _ _) fun _ => ok_progresses _

theorem placeWord_progresses (w : Word64) (s : State) : progresses (placeWord w s) :=
  bind_progresses (startSig_progresses _) fun _ => pushRest_progresses _ _ _

/-! ### The driver -/

theorem handler_progresses (p : Place) (s : State) : progresses (handler p s) := by
  cases p with
  | prepareNewBlock =>
    show progresses (prepareNewBlock s)
    unfold prepareNewBlock
    split_ifs
    · exact ok_progresses _
    · exact ok_progresses _
    · exact ok_progresses _
    · exact bind_progresses (startSig_progresses _) fun _ => ok_progresses _
  | readChunk =>
    show progresses (readChunk s)
    unfold readChunk
    split
    · exact bind_progresses (processUnit_progresses _) fun _ => ok_progresses _
    · split <;> exact ok_progresses _
  | checkSignatureState =>
    rcases checkSignatureState_cases s with ⟨-, e⟩ | ⟨-, -, e⟩ | ⟨-, -, e⟩ <;>
      rw [handler, e] <;> exact ok_progresses _
  | flushTail =>
    refine bind_progresses (tailChunks_progresses _ _) fun t => ?_
    split
    · exact ok_progresses _
    · exact bind_progresses (finishStream_progresses _) fun _ => ok_progresses _

/-- Every fault of the driver is a handler's, since the transfers do not run out. -/
theorem drive_progresses (p : Place) (s : State) : progresses (drive p s) :=
  drive_induction (R := fun _ _ => True) (Q := progresses)
    (fun q u _ _ hf e => handler_progresses q u (hf.trans (congrArg _ (Except.error.inj e))))
    (fun _ _ t _ _ => ok_progresses t) (fun _ _ _ _ _ _ => trivial) trivial

theorem dispatch_progresses (s : State) : progresses (dispatch s) := by
  unfold dispatch
  split_ifs
  · exact ok_progresses _
  · exact error_progresses (by decide)
  · exact drive_progresses _ _
  · exact drive_progresses _ _
  · exact drive_progresses _ _

theorem outcomeOf_ne_noProgress {x : Except Fault State} (h : progresses x) :
    outcomeOf x ≠ .fault .noProgress :=
  fun e => h (outcomeOf_eq_fault.mp e)

theorem next_ne_fault {t : State} {f : Fault} : (.next t : Host.Outcome State Fault Refusal) ≠ .fault f := nofun

/-- Settles O19: STEP, FLUSH and the handlers are the driver, whose transfers `transfersLeft` bounds; every other
row is a fixed sequence of operations. -/
theorem everyCommandTerminates : Obligations.EveryCommandTerminates := by
  intro i s
  cases i with
  | init =>
    show execInit s ≠ _
    unfold execInit
    split <;> nofun
  | step il ol | flush il ol => exact outcomeOf_ne_noProgress (dispatch_progresses _)
  | prepareNewBlock | readChunk | checkSignatureState | flushTail =>
    exact outcomeOf_ne_noProgress (drive_progresses _ _)
  | cmdReserved | resumeUnrecognized => exact next_ne_fault
  | statusReady | statusStallOnInput | statusStallOnOutput | statusInfoEfficiencyCheck | statusInfoNewBlock
  | statusError => exact next_ne_fault
  | recordUseForm _ | recordUseLetter _ | rankInit _ | hash _ | classify _ _ | dictUpdate _ _ _ | dictReset =>
    exact next_ne_fault
  | selRank0 | selRank1 | selRank2 | selRank3 | selEnd | letter _ | push _ _ | emitSelector _ | emitLetter _
  | emitEnd => exact outcomeOf_ne_noProgress (push_progresses _ _ _)
  | hash16 h | emitHash16 h => exact outcomeOf_ne_noProgress (emitHash16_progresses h s)
  | sigword w => exact outcomeOf_ne_noProgress (placeWord_progresses w s)
  | tail b => exact outcomeOf_ne_noProgress (tailByte_progresses b s)
  | processUnit => exact outcomeOf_ne_noProgress (processUnit_progresses s)
  | processChunk c => exact outcomeOf_ne_noProgress (processChunk_progresses c s)
  | startSig => exact outcomeOf_ne_noProgress (startSig_progresses s)
  | emitLiteral c => exact outcomeOf_ne_noProgress (emitLiteral_progresses c s)
  | emitTail => exact outcomeOf_ne_noProgress (tailBytes_progresses _ s)

end Sys2Proof.Machine
end

section
/-! INIT, dispatch and the handlers' rows of the transfer table (rules R201 to R218, R259; log entry 14). -/

namespace Sys2Proof.Machine

/-! ### INIT -/

theorem execInit_of_accepted {s : State} (h : configAccepted s.cfg = true) :
    exec .init s = .next (raise .initReady (initState s)) := if_pos h

/-- Every cell of CHUNK and PRED reads 0 after INIT, which is a DICT_RESET and registers. -/
theorem initState_cells (s : State) (h : Hash) :
    chunkAAt (initState s) h = 0 ∧ chunkBAt (initState s) h = 0 ∧ predAt (initState s) h = 0 :=
  dictReset_cells s h

/-- Settles O8: `initState` writes every register, and both tables and the Dictionary are fresh after it. -/
theorem initGivesEveryRegisterItsValue : Obligations.InitGivesEveryRegisterItsValue := by
  intro s haccepted
  exact ⟨_, execInit_of_accepted haccepted, rankInit_isFresh, rankInit_isFresh, initState_cells s, rfl⟩

/-- Settles O9: the check comes before anything INIT writes. -/
theorem initRefusesABadConfiguration : Obligations.InitRefusesABadConfiguration := by
  intro s hbad
  exact if_neg (by rw [hbad]; decide)

/-! ### Dispatch -/

/-- The handler that a resume code names (rule R93). -/
def parkedPlace (r : BitVec 2) : Place :=
  if r = 0 then .prepareNewBlock else if r = 1 then .readChunk else .checkSignatureState

/-- With a session open and `in_limit` not below `in_ptr`, STEP and FLUSH are the driver entered where the
session is parked (rule R202). -/
theorem dispatch_eq_drive {s : State} (hopen : s.resume ≠ 3) (hlimit : s.inPtr.toNat ≤ s.latch.inLimit.toNat) :
    dispatch s = drive (parkedPlace s.resume) s := by
  rw [dispatch, if_neg hopen, if_neg (Nat.not_lt.mpr hlimit), parkedPlace]
  split_ifs <;> rfl

theorem exec_step_eq {s : State} {il ol : Word64} (hopen : s.resume ≠ 3) (hlimit : s.inPtr.toNat ≤ il.toNat) :
    exec (.step il ol) s = outcomeOf (drive (parkedPlace s.resume) (latchCommand s .step il ol)) :=
  congrArg outcomeOf (dispatch_eq_drive (s := latchCommand s .step il ol) hopen hlimit)

theorem exec_flush_eq {s : State} {il ol : Word64} (hopen : s.resume ≠ 3) (hlimit : s.inPtr.toNat ≤ il.toNat) :
    exec (.flush il ol) s = outcomeOf (drive (parkedPlace s.resume) (latchCommand s .flush il ol)) :=
  congrArg outcomeOf (dispatch_eq_drive (s := latchCommand s .flush il ol) hopen hlimit)

/-- A resume code decodes to the row of the handler it names. -/
theorem exec_decodeResume {r : BitVec 2} (hopen : r ≠ 3) (s : State) :
    exec (decodeResume r) s = outcomeOf (drive (parkedPlace r) s) := by
  have hcodes : r = 0 ∨ r = 1 ∨ r = 2 := by bv_omega
  rcases hcodes with rfl | rfl | rfl <;> rfl

/-- Settles O12: both sides are the driver entered at the parked handler. -/
theorem stepAndFlushEnterTheParkedHandler : Obligations.StepAndFlushEnterTheParkedHandler := by
  intro s il ol hopen hlimit
  rw [exec_step_eq hopen hlimit, exec_flush_eq hopen hlimit, exec_decodeResume hopen, exec_decodeResume hopen]
  exact ⟨rfl, rfl⟩

/-! ### The tests -/

theorem outputShort_iff {s : State} : outputShort s = true ↔ outAvail s < s.cfg.minLookahead.toNat :=
  decide_eq_true_iff

theorem outputShort_eq_false {s : State} : outputShort s = false ↔ s.cfg.minLookahead.toNat ≤ outAvail s := by
  rw [outputShort, decide_eq_false_iff_not, Nat.not_lt]

theorem efficiencyCheckDue_iff {s : State} :
    efficiencyCheckDue s = true ↔ s.sigCount = s.cfg.effT ∧ s.effChecked = false := by
  rw [efficiencyCheckDue, Bool.and_eq_true, beq_iff_eq, Bool.not_eq_true']

theorem blockEndDue_iff {s : State} : blockEndDue s = true ↔ s.sigCount = s.cfg.blkT := beq_iff_eq

theorem wordFull_iff {s : State} : wordFull s = true ↔ s.bitPos = 64 := beq_iff_eq

/-- A handler that returns a status ends the command. -/
theorem outcomeOf_drive_of_returned {p : Place} {s t : State} (h : handler p s = .ok (.returned t)) :
    outcomeOf (drive p s) = .next t := by
  rw [drive_of_returned h, outcomeOf]

/-! ### PREPARE_NEW_BLOCK -/

theorem prepareNewBlock_of_short {s : State} (h : outputShort s = true) :
    prepareNewBlock s = .ok (.returned (raise .stallOnOutputPrepare s)) := if_pos h

theorem prepareNewBlock_of_efficiency {s : State} (hroom : outputShort s = false)
    (hdue : efficiencyCheckDue s = true) :
    prepareNewBlock s = .ok (.returned (raise .efficiencyCheck s)) := by
  rw [prepareNewBlock, hroom, hdue]
  rfl

theorem prepareNewBlock_of_blockEnd {s : State} (hroom : outputShort s = false)
    (heff : efficiencyCheckDue s = false) (hdue : blockEndDue s = true) :
    prepareNewBlock s = .ok (.returned (raise .newBlock s)) := by
  rw [prepareNewBlock, hroom, heff, hdue]
  rfl

theorem prepareNewBlock_of_startSig {s t : State} (hroom : outputShort s = false)
    (heff : efficiencyCheckDue s = false) (hblock : blockEndDue s = false) (hstart : startSig s = .ok t) :
    prepareNewBlock s = .ok (.goto .readChunk t) := by
  rw [prepareNewBlock, hroom, heff, hblock, hstart]
  rfl

/-- Settles O14: each clause gives one test its value and those before it the other. -/
theorem prepareNewBlockReturnsInTestOrder : Obligations.PrepareNewBlockReturnsInTestOrder := by
  intro s
  refine ⟨fun hshort => ?_, fun hroom hcount hclear => ?_, fun hroom heff hblock => ?_⟩
  · exact outcomeOf_drive_of_returned (prepareNewBlock_of_short (outputShort_iff.mpr hshort))
  · exact outcomeOf_drive_of_returned (prepareNewBlock_of_efficiency (outputShort_eq_false.mpr hroom)
      (efficiencyCheckDue_iff.mpr ⟨hcount, hclear⟩))
  · rw [← efficiencyCheckDue_iff, Bool.not_eq_true] at heff
    exact outcomeOf_drive_of_returned (prepareNewBlock_of_blockEnd (outputShort_eq_false.mpr hroom) heff
      (blockEndDue_iff.mpr hblock))

theorem endBlock_of_disabled {s : State} (h : s.cfg.periodicResetEn = false) :
    endBlock s = clearBlockCounters s := by
  rw [endBlock, h]
  rfl

theorem endBlock_of_counting {s : State} (hen : s.cfg.periodicResetEn = true)
    (h : s.resetCycle + 1 ≠ s.cfg.resetCycle) :
    endBlock s = { clearBlockCounters s with resetCycle := s.resetCycle + 1 } := by
  rw [endBlock, hen, if_neg h]
  rfl

/-- At the end of a reset cycle the counter starts again and the Dictionary is reset (rule R209). -/
theorem endBlock_of_cycle {s : State} (hen : s.cfg.periodicResetEn = true)
    (h : s.resetCycle + 1 = s.cfg.resetCycle) :
    endBlock s = { dictReset (clearBlockCounters s) with resetCycle := 0 } := by
  rw [endBlock, hen, if_pos h]
  rfl

/-- Settles O15: the three cases of `endBlock`. -/
theorem blockEndCountsAndResets : Obligations.BlockEndCountsAndResets := by
  intro s
  have hrow : exec .statusInfoNewBlock s = .next (endCommand (setResume (endBlock s) 0) .infoNewBlock) := rfl
  rw [hrow]
  refine ⟨fun hdisabled => ?_, fun hen hcounting => ?_, fun hen hcycle => ?_⟩
  · rw [endBlock_of_disabled hdisabled]
    rfl
  · rw [endBlock_of_counting hen hcounting]
    rfl
  · rw [endBlock_of_cycle hen hcycle]
    exact ⟨_, rfl, rankInit_isFresh, dictReset_cells (clearBlockCounters s), rfl⟩

/-! ### READ_CHUNK -/

theorem readChunk_of_unit {s t : State} (havail : 32 ≤ inAvail s) (hunit : processUnit s = .ok t) :
    readChunk s = .ok (.goto .checkSignatureState t) := by
  rw [readChunk, if_pos havail, hunit]
  rfl

theorem readChunk_of_step {s : State} (havail : inAvail s < 32) (hmode : s.latch.mode = .step) :
    readChunk s = .ok (.returned (raise .stallOnInput s)) := by
  rw [readChunk, if_neg (Nat.not_le.mpr havail), hmode]

theorem readChunk_of_flush {s : State} (havail : inAvail s < 32) (hmode : s.latch.mode = .flush) :
    readChunk s = .ok (.goto .flushTail s) := by
  rw [readChunk, if_neg (Nat.not_le.mpr havail), hmode]

/-- Settles O17: READ_CHUNK parks at once, where the session was parked before. -/
theorem stepWithoutAUnitStallsOnInput : Obligations.StepWithoutAUnitStallsOnInput := by
  intro s il ol hresume hlimit hshort
  have havail : inAvail (latchCommand s .step il ol) < 32 := by
    show il.toNat - s.inPtr.toNat < 32
    omega
  have hstall : handler .readChunk (latchCommand s .step il ol) =
      .ok (.returned (raise .stallOnInput (latchCommand s .step il ol))) := readChunk_of_step havail rfl
  rw [exec_step_eq (by rw [hresume]; decide) hlimit, hresume, show parkedPlace 1 = .readChunk from rfl,
    outcomeOf_drive_of_returned hstall]
  rfl

/-! ### CHECK_SIGNATURE_STATE -/

theorem checkSignatureState_of_full {s : State} (h : wordFull s = true) :
    checkSignatureState s = .ok (.goto .prepareNewBlock s) := if_pos h

theorem checkSignatureState_of_short {s : State} (hfull : wordFull s = false) (hshort : outputShort s = true) :
    checkSignatureState s = .ok (.returned (raise .stallOnOutputCheck s)) := by
  rw [checkSignatureState, hfull, hshort]
  rfl

theorem checkSignatureState_of_room {s : State} (hfull : wordFull s = false) (hroom : outputShort s = false) :
    checkSignatureState s = .ok (.goto .readChunk s) := by
  rw [checkSignatureState, hfull, hroom]
  rfl

/-! ### FLUSH_TAIL -/

/-- At a full word the loop makes no turn. -/
theorem tailChunks_of_full {s : State} (h : wordFull s = true) (n : Nat) : tailChunks n s = .ok s := by
  cases n with
  | zero => rfl
  | succ n => rw [tailChunks, if_pos h]

theorem flushTail_of_full {s : State} (hfull : wordFull s = true) (havail : 4 ≤ inAvail s) :
    flushTail s = .ok (.goto .prepareNewBlock s) := by
  rw [flushTail, tailChunks_of_full hfull, ok_bind, if_pos havail]

/-- After one turn of its loop FLUSH_TAIL stands where FLUSH_TAIL would begin: a turn takes 4 bytes. -/
theorem flushTail_of_turn {s t : State} (hfull : wordFull s = false) (havail : 4 ≤ inAvail s)
    (hchunk : tailChunk s = .ok t) : flushTail s = flushTail t := by
  have hleft := tailChunk_inAvail hchunk
  have hturns : inAvail s / 4 = inAvail t / 4 + 1 := by omega
  rw [flushTail, flushTail, hturns, tailChunks, hfull, if_neg Bool.false_ne_true,
    if_neg (Nat.not_lt.mpr havail), hchunk, ok_bind]

/-- With fewer than 4 bytes left FLUSH_TAIL is the completion of the stream. -/
theorem flushTail_of_short {s t u : State} (havail : inAvail s < 4) (hend : emitEnd s = .ok t)
    (htail : emitTail t = .ok u) : flushTail s = .ok (.returned (raise .flushReady u)) := by
  have hfinish := finishStream_eq_ok.mpr ⟨t, u, hend, htail, rfl⟩
  rw [flushTail, Nat.div_eq_of_lt havail, tailChunks, ok_bind, if_neg (Nat.not_le.mpr havail), hfinish, ok_bind]

/-- Four bytes of IN below the limit are a turn of the loop (rule R216). -/
theorem tailChunk_of_bytes {s t : State} {b0 b1 b2 b3 : Byte} (havail : 4 ≤ inAvail s)
    (hread : readBytes s.input s.inPtr.toNat 4 = some [b0, b1, b2, b3])
    (hchunk : processChunk (le32 b0 b1 b2 b3) { s with inPtr := s.inPtr + 4 } = .ok t) :
    tailChunk s = .ok t := by
  have hlimit : s.inPtr.toNat + 4 ≤ s.latch.inLimit.toNat := by unfold inAvail at havail; omega
  have hlt := s.latch.inLimit.isLt
  have hptr : s.inPtr + 4 = BitVec.ofNat 64 (s.inPtr.toNat + 4) := by bv_omega
  rw [hptr] at hchunk
  exact tailChunk_eq_ok.mpr ⟨_, memRead_eq_ok.mpr ⟨hlimit, hread⟩, by omega, hchunk⟩

/-- Handlers that end alike run on alike. -/
theorem drive_congr {p q : Place} {s t : State} (h : handler p s = handler q t) : drive p s = drive q t := by
  rw [drive_eq, drive_eq, h]

theorem outcomeOf_drive_of_goto {p q : Place} {s t : State} (h : handler p s = .ok (.goto q t)) :
    outcomeOf (drive p s) = outcomeOf (drive q t) := by
  rw [drive_of_goto h]

/-- Settles O18: each clause is the handler's own equation, followed by the driver (`drive_eq`). -/
theorem handlersFollowTheTransferTable : Obligations.HandlersFollowTheTransferTable := by
  intro s t
  refine ⟨fun hroom heff hblock hstart => ?_, fun havail hunit => ?_, fun havail hmode => ?_,
    fun havail hmode => ?_, fun hfull => ?_, fun hfull hshort => ?_, fun hfull hroom => ?_,
    fun hfull havail => ?_, fun hfull havail b0 b1 b2 b3 hread hchunk => ?_, fun havail u hend htail => ?_⟩
  · rw [← efficiencyCheckDue_iff, Bool.not_eq_true] at heff
    rw [ne_eq, ← blockEndDue_iff, Bool.not_eq_true] at hblock
    exact outcomeOf_drive_of_goto (prepareNewBlock_of_startSig (outputShort_eq_false.mpr hroom) heff hblock
      (outcomeOf_eq_next.mp hstart))
  · exact outcomeOf_drive_of_goto (readChunk_of_unit havail (outcomeOf_eq_next.mp hunit))
  · exact outcomeOf_drive_of_returned (readChunk_of_step havail hmode)
  · exact outcomeOf_drive_of_goto (readChunk_of_flush havail hmode)
  · exact outcomeOf_drive_of_goto (checkSignatureState_of_full (wordFull_iff.mpr hfull))
  · rw [ne_eq, ← wordFull_iff, Bool.not_eq_true] at hfull
    exact outcomeOf_drive_of_returned (checkSignatureState_of_short hfull (outputShort_iff.mpr hshort))
  · rw [ne_eq, ← wordFull_iff, Bool.not_eq_true] at hfull
    exact outcomeOf_drive_of_goto (checkSignatureState_of_room hfull (outputShort_eq_false.mpr hroom))
  · exact outcomeOf_drive_of_goto (flushTail_of_full (wordFull_iff.mpr hfull) havail)
  · rw [ne_eq, ← wordFull_iff, Bool.not_eq_true] at hfull
    have hturn := tailChunk_of_bytes havail hread (outcomeOf_eq_next.mp hchunk)
    exact congrArg outcomeOf (drive_congr (p := .flushTail) (q := .flushTail)
      (flushTail_of_turn hfull havail hturn))
  · exact outcomeOf_drive_of_returned (flushTail_of_short havail (outcomeOf_eq_next.mp hend)
      (outcomeOf_eq_next.mp htail))

end Sys2Proof.Machine
end

section
/-! Where a command leaves the session, and with which status (rules R207, R210, R215, R219, R253, R293). -/

namespace Sys2Proof.Machine

/-- The induction over a command's transfers, row by row of rule R218's table, where the driver answers. -/
theorem drive_rows {P : Place → State → Prop} {Q : State → Prop}
    (hgoto : ∀ p s q t, P p s → GoesTo p s q t → P q t) (hret : ∀ p s t, P p s → Returns p s t → Q t)
    {p : Place} {s t : State} (hs : P p s) (h : drive p s = .ok t) : Q t :=
  runDriver_induction (fun p s q t hp hh => hgoto p s q t hp (handler_goto hh))
    (fun p s t hp hh => hret p s t hp (handler_returned hh)) _ hs h

/-- STEP and FLUSH return `Error` where the session is over and are the driver elsewhere, which they enter at a
handler with a resume code. -/
theorem dispatch_drives {s t : State} (h : dispatch s = .ok t) :
    (s.resume = 3 ∧ t = raise .error s) ∨
      (s.resume ≠ 3 ∧ parkedPlace s.resume ≠ .flushTail ∧ drive (parkedPlace s.resume) s = .ok t) := by
  rcases dispatch_cases h with herror | ⟨hr, h⟩ | ⟨hr, h⟩ | ⟨hr, h⟩
  · exact .inl herror
  all_goals
    rw [hr]
    exact .inr ⟨by decide, by decide, h⟩

/-! ### The word at a park -/

/-- The word a handler finds (rules R210, R215): at PREPARE_NEW_BLOCK none or a full one, at READ_CHUNK and
FLUSH_TAIL one that is not full, at CHECK_SIGNATURE_STATE one that is not empty. -/
def parkAt (p : Place) (s : State) : Prop :=
  match p with
  | .prepareNewBlock => (s.outPtr = 0 ∧ s.bitPos = 0) ∨ (s.outPtr ≠ 0 ∧ s.bitPos = 64)
  | .readChunk | .flushTail => s.outPtr ≠ 0 ∧ s.bitPos ≠ 64
  | .checkSignatureState => s.outPtr ≠ 0 ∧ s.bitPos ≠ 0

theorem push_outPtr_ne_zero {c : Word64} {b : BitVec 8} {s t : State} (hs : s.outPtr ≠ 0)
    (h : push c b s = .ok t) : t.outPtr ≠ 0 := by
  obtain ⟨-, -, ⟨-, rfl⟩ | ⟨-, hroom, -, -, rfl⟩⟩ := push_eq_ok.mp h
  · exact hs
  · exact cursor_ne_zero hroom (by decide)

theorem keptByPrimitives_outPtr_ne_zero : KeptByPrimitives (fun s => s.outPtr ≠ 0) where
  push hs h := push_outPtr_ne_zero hs h
  startSig _ h := by obtain ⟨hroom, rfl⟩ := startSig_eq_ok.mp h; exact cursor_ne_zero hroom (by decide)
  emitHash16 _ h := by obtain ⟨hroom, rfl⟩ := emitHash16_eq_ok.mp h; exact cursor_ne_zero hroom (by decide)
  tailByte _ h := by obtain ⟨hroom, -, rfl⟩ := tailByte_eq_ok.mp h; exact cursor_ne_zero hroom (by decide)
  recordForm hs := hs
  recordLetter hs := hs
  dictUpdate hs := by rw [dictUpdate_outPtr]; exact hs
  setLastHash hs := hs
  consume hs := hs
  raise hs := by rw [raise_outPtr]; exact hs

/-- A PUSH leaves at least one bit of its field in the current word, whatever the cursor was. -/
theorem push_bitPos_ne_zero {c : Word64} {bits : BitVec 8} {s t : State} (h : push c bits s = .ok t) :
    t.bitPos ≠ 0 := by
  obtain ⟨hlegal, -, hcases⟩ := push_eq_ok.mp h
  obtain ⟨(hbits : 1 ≤ bits.toNat), -, -⟩ := (codeLegal_iff (c := ⟨c, bits⟩)).mp hlegal
  rw [← one_le_toNat_iff]
  rcases hcases with ⟨hfit, rfl⟩ | ⟨hover, -, hfit, -, rfl⟩
  · have hpos : (pushedFit c bits s).bitPos.toNat = s.bitPos.toNat + bits.toNat := bitCursor_toNat hfit
    omega
  · have hpos : (pushedSplit c bits s).bitPos.toNat = s.bitPos.toNat + bits.toNat - 64 :=
      bitCursor_toNat hfit
    omega

theorem emitPayload_bitPos_ne_zero {f : Form} {c : Chunk} {h : Hash} {s t : State} (hs : s.bitPos ≠ 0)
    (hok : emitPayload f c h s = .ok t) : t.bitPos ≠ 0 := by
  cases f with
  | literal =>
    obtain ⟨t0, t1, t2, -, -, -, hlast⟩ := emitLiteral_eq_ok.mp hok
    exact push_bitPos_ne_zero hlast
  | dictB =>
    obtain ⟨-, rfl⟩ := emitHash16_eq_ok.mp hok
    exact hs
  | dictA | predicted => cases hok; exact hs

/-- A chunk pushes its selector and nothing empties the word after it. -/
theorem processChunk_bitPos_ne_zero {c : Chunk} {s t : State} (h : processChunk c s = .ok t) :
    t.bitPos ≠ 0 := by
  obtain ⟨u, v, hsel, hpayload, rfl⟩ := processChunk_eq_ok.mp h
  rw [setLastHash_bitPos, dictUpdate_bitPos]
  exact emitPayload_bitPos_ne_zero (push_bitPos_ne_zero hsel) hpayload

theorem processChunks_bitPos_ne_zero (n : Nat) : ∀ {a : Nat} {s t : State},
    processChunks (n + 1) a s = .ok t → t.bitPos ≠ 0 := by
  induction n with
  | zero =>
    intro a s t h
    obtain ⟨b, u, -, hchunk, hrest⟩ := processChunks_succ_eq_ok.mp h
    cases hrest
    exact processChunk_bitPos_ne_zero hchunk
  | succ n ih =>
    intro a s t h
    obtain ⟨b, u, -, -, hrest⟩ := processChunks_succ_eq_ok.mp h
    exact ih hrest

theorem processUnit_bitPos_ne_zero {s t : State} (h : processUnit s = .ok t) : t.bitPos ≠ 0 := by
  obtain ⟨u, hloop, -, rfl⟩ := processUnit_eq_ok.mp h
  have hpos := processChunks_bitPos_ne_zero 7 hloop
  exact hpos

theorem wordFull_eq_false {s : State} : wordFull s = false ↔ s.bitPos ≠ 64 := by
  rw [← Bool.not_eq_true, wordFull_iff]

/-- Every transfer of control leaves the word as the handler it goes to needs it (rules R210, R215, R216). -/
theorem parkAt.goesTo {p q : Place} {s t : State} (hs : parkAt p s) (h : GoesTo p s q t) : parkAt q t := by
  cases h with
  | newWord _ _ _ hstart =>
    obtain ⟨hroom, rfl⟩ := startSig_eq_ok.mp hstart
    have hempty : (0 : BitVec 7) ≠ 64 := by decide
    exact ⟨cursor_ne_zero hroom (by decide), hempty⟩
  | unit _ hunit =>
    obtain ⟨hopen, -⟩ := hs
    exact ⟨keptByPrimitives_outPtr_ne_zero.processUnit hopen hunit, processUnit_bitPos_ne_zero hunit⟩
  | tail => exact hs
  | full hfull => exact .inr ⟨hs.1, wordFull_iff.mp hfull⟩
  | more hfull => exact ⟨hs.1, wordFull_eq_false.mp hfull⟩
  | fullTail hloop havail =>
    obtain ⟨hopen, -⟩ := hs
    exact .inr ⟨keptByPrimitives_outPtr_ne_zero.tailChunks _ hopen hloop,
      wordFull_iff.mp (tailChunks_wordFull hloop havail)⟩

theorem parkedSound_of_prepare {s : State} (hr : s.resume = 0) (hs : parkAt .prepareNewBlock s) :
    parkedSound s :=
  ⟨fun _ => hs, fun h => absurd (hr.symm.trans h) (by decide), fun h => absurd (hr.symm.trans h) (by decide)⟩

theorem parkedSound_of_read {s : State} (hr : s.resume = 1) (hs : parkAt .readChunk s) : parkedSound s :=
  ⟨fun h => absurd (hr.symm.trans h) (by decide), fun _ => hs, fun h => absurd (hr.symm.trans h) (by decide)⟩

theorem parkedSound_of_check {s : State} (hr : s.resume = 2) (hs : parkAt .checkSignatureState s)
    (hfull : s.bitPos ≠ 64) : parkedSound s :=
  ⟨fun h => absurd (hr.symm.trans h) (by decide), fun h => absurd (hr.symm.trans h) (by decide),
    fun _ => ⟨hs.1, hfull, hs.2⟩⟩

/-- A session that is over is parked nowhere. -/
theorem parkedSound_of_over {s : State} (hr : s.resume = 3) : parkedSound s :=
  ⟨fun h => absurd (hr.symm.trans h) (by decide), fun h => absurd (hr.symm.trans h) (by decide),
    fun h => absurd (hr.symm.trans h) (by decide)⟩

/-- Every return parks the session with the word its handler needs. -/
theorem parkAt.returns {p : Place} {s t : State} (hs : parkAt p s) (h : Returns p s t) : parkedSound t := by
  cases h with
  | outputStall => exact parkedSound_of_prepare rfl hs
  | efficiency => exact parkedSound_of_prepare rfl hs
  | blockEnd =>
    refine parkedSound_of_prepare rfl ?_
    unfold parkAt
    rwa [raise_outPtr, raise_bitPos]
  | inputStall => exact parkedSound_of_read rfl hs
  | checkStall hfull => exact parkedSound_of_check rfl hs (wordFull_eq_false.mp hfull)
  | finished => exact parkedSound_of_over rfl

theorem parkedSound.parkAt {s : State} (hs : parkedSound s) (hopen : s.resume ≠ 3) :
    parkAt (parkedPlace s.resume) s := by
  obtain ⟨hprepare, hread, hcheck⟩ := hs
  have hcodes : s.resume = 0 ∨ s.resume = 1 ∨ s.resume = 2 := by bv_omega
  rcases hcodes with hr | hr | hr <;> rw [hr]
  · exact hprepare hr
  · exact hread hr
  · obtain ⟨hne, -, hpos⟩ := hcheck hr
    exact ⟨hne, hpos⟩

theorem dispatch_parkedSound {s t : State} (hs : parkedSound s) (h : dispatch s = .ok t) : parkedSound t := by
  rcases dispatch_drives h with ⟨-, rfl⟩ | ⟨hopen, -, h⟩
  · exact hs
  · exact drive_rows (fun _ _ _ _ => parkAt.goesTo) (fun _ _ _ => parkAt.returns) (hs.parkAt hopen) h

/-- Settles O29: INIT parks at PREPARE_NEW_BLOCK with no word; a dispatch keeps `parkAt` along its transfers. -/
theorem stepKeepsTheParkSound : Obligations.StepKeepsTheParkSound := by
  intro s t hs hstep
  rcases step_cases hstep with ⟨-, rfl⟩ | ⟨c, cs, -, hexec⟩
  · exact hs
  · rcases exec_command_cases hexec with ⟨-, rfl⟩ | ⟨m, h⟩ | rfl
    · exact parkedSound_of_prepare rfl (.inl ⟨rfl, rfl⟩)
    · exact dispatch_parkedSound (s := latchCommand { s with commands := cs } m c.inLimit c.outLimit) hs h
    · exact hs

/-! ### The status returned -/

/-- The rows of rule R257 a handler returns for: never `Error`; `Ready` from FLUSH_TAIL alone, which ends the
session; `StallOnInput` in a STEP alone. -/
theorem Returns.cause {p : Place} {s t : State} (h : Returns p s t) :
    ∃ c u, t = raise c u ∧ c.status ≠ .error ∧ (c.status = .ready → p = .flushTail ∧ t.resume = 3) ∧
      (c.status = .stallOnInput → s.latch.mode = .step) := by
  cases h with
  | outputStall | efficiency | blockEnd | checkStall => exact ⟨_, _, rfl, by decide, nofun, nofun⟩
  | inputStall _ hmode => exact ⟨_, _, rfl, by decide, nofun, fun _ => hmode⟩
  | finished => exact ⟨_, _, rfl, by decide, fun _ => ⟨rfl, rfl⟩, nofun⟩

/-- FLUSH_TAIL is reached in a FLUSH, or where the driver was entered there (log entry 14). -/
theorem drive_cause {p : Place} {s t : State} (h : drive p s = .ok t) :
    ∃ c u, t = raise c u ∧ c.status ≠ .error ∧
      (c.status = .ready → (p = .flushTail ∨ s.latch.mode = .flush) ∧ t.resume = 3) ∧
      (c.status = .stallOnInput → s.latch.mode = .step) := by
  refine drive_rows (P := fun q u => u.latch = s.latch ∧ (q = .flushTail → p = .flushTail ∨ s.latch.mode = .flush))
    (Q := fun t => ∃ c u, t = raise c u ∧ c.status ≠ .error ∧
      (c.status = .ready → (p = .flushTail ∨ s.latch.mode = .flush) ∧ t.resume = 3) ∧
      (c.status = .stallOnInput → s.latch.mode = .step))
    (fun q u q' v ⟨hlatch, _⟩ hgo => ?_) (fun q u v ⟨hlatch, htail⟩ hret => ?_) ⟨rfl, .inl⟩ h
  · refine ⟨hgo.latch_eq.trans hlatch, ?_⟩
    cases hgo with
    | tail _ hmode => exact fun _ => .inr (hlatch ▸ hmode)
    | newWord | unit | full | more | fullTail => nofun
  · obtain ⟨c, w, hv, herror, hready, hstall⟩ := hret.cause
    exact ⟨c, w, hv, herror, fun hc => ⟨htail (hready hc).1, (hready hc).2⟩, fun hc => hlatch ▸ hstall hc⟩

/-- The statuses of STEP and FLUSH (rule R219), with the arguments latched. -/
theorem dispatch_status {s t : State} (h : dispatch s = .ok t) :
    t.status ≠ none ∧ (s.latch.mode = .step → t.status ≠ some .ready) ∧
      (s.latch.mode = .flush → t.status ≠ some .stallOnInput) ∧ (t.status = some .error ↔ s.resume = 3) ∧
      (t.status = some .ready → t.resume = 3) := by
  rcases dispatch_drives h with ⟨hr, rfl⟩ | ⟨hopen, hplace, h⟩
  · exact ⟨nofun, fun _ => nofun, fun _ => nofun, ⟨fun _ => hr, fun _ => rfl⟩, nofun⟩
  · obtain ⟨c, u, rfl, herror, hready, hstall⟩ := drive_cause h
    simp only [raise_status, ne_eq, Option.some.injEq]
    refine ⟨nofun, fun hmode hc => ?_, fun hmode hc => ?_, ⟨fun hc => absurd hc herror, fun hr => absurd hr hopen⟩,
      fun hc => (hready hc).2⟩
    · rw [hmode] at hready
      exact (hready hc).1.elim hplace nofun
    · rw [hmode] at hstall
      cases hstall hc

/-- Settles O20: INIT's one return is `Ready`; STEP and FLUSH by `dispatch_status`. -/
theorem statusesOfEachCommand : Obligations.StatusesOfEachCommand := by
  intro s t il ol
  refine ⟨fun hinit => ?_, fun hstep => ?_, fun hflush => ?_⟩
  · have haccepted : configAccepted s.cfg = true := by
      by_contra hbad
      rw [initRefusesABadConfiguration s (Bool.eq_false_of_not_eq_true hbad)] at hinit
      cases hinit
    rw [execInit_of_accepted haccepted] at hinit
    cases hinit
    rfl
  · obtain ⟨hsome, hready, -, herror, -⟩ := dispatch_status (outcomeOf_eq_next.mp hstep)
    exact ⟨hsome, hready rfl, herror⟩
  · obtain ⟨hsome, -, hstall, herror, hready⟩ := dispatch_status (outcomeOf_eq_next.mp hflush)
    exact ⟨hsome, hstall rfl, herror, hready⟩

/-! ### The efficiency check -/

/-- What STEP or FLUSH, answering `t` with the efficiency flag found as `flag`, may say of it: only test 2 of
PREPARE_NEW_BLOCK sets it, where it was clear and `sig_count` stands at `EFF_T`, and only a block end clears it. -/
def flagAccounted (flag : Bool) (t : State) : Prop :=
  (t.status = some .infoEfficiencyCheck → flag = false ∧ t.effChecked = true ∧ t.sigCount = t.cfg.effT) ∧
    (flag = true → t.effChecked = true ∨ t.status = some .infoNewBlock)

theorem Returns.flagAccounted {p : Place} {s t : State} (h : Returns p s t) :
    flagAccounted s.effChecked t := by
  cases h with
  | outputStall | inputStall | checkStall => exact ⟨nofun, .inl⟩
  | efficiency hdue =>
    obtain ⟨hcount, hclear⟩ := efficiencyCheckDue_iff.mp hdue
    exact ⟨fun _ => ⟨hclear, rfl, hcount⟩, fun _ => .inl rfl⟩
  | blockEnd => exact ⟨nofun, fun _ => .inr rfl⟩
  | @finished _ u v w hloop _ hend htail =>
    have hframe : Machine.commandFrame w = Machine.commandFrame s :=
      (tailBytes_commandFrame _ htail).trans ((push_commandFrame hend).trans (tailChunks_commandFrame _ hloop))
    obtain ⟨-, hflag, -, -⟩ := commandFrame_eq_iff.mp hframe
    exact ⟨nofun, fun hset => .inl (hflag.trans hset)⟩

theorem dispatch_flagAccounted {s t : State} (h : dispatch s = .ok t) : flagAccounted s.effChecked t := by
  rcases dispatch_drives h with ⟨-, rfl⟩ | ⟨-, -, h⟩
  · exact ⟨nofun, .inl⟩
  · refine drive_rows (P := fun _ u => u.effChecked = s.effChecked) (Q := flagAccounted s.effChecked)
      (fun p u q v hu hgo => ?_) (fun p u v hu hret => ?_) rfl h
    · obtain ⟨-, hflag, -, -⟩ := commandFrame_eq_iff.mp hgo.commandFrame
      exact hflag.trans hu
    · exact hu ▸ hret.flagAccounted

/-- Settles O21: no transfer touches the flag, so the return speaks of it as the command found it. -/
theorem efficiencyCheckFiresOncePerBlock : Obligations.EfficiencyCheckFiresOncePerBlock := by
  intro s t il ol hexec
  rcases hexec with h | h
  · exact dispatch_flagAccounted (s := latchCommand s .step il ol) (outcomeOf_eq_next.mp h)
  · exact dispatch_flagAccounted (s := latchCommand s .flush il ol) (outcomeOf_eq_next.mp h)

end Sys2Proof.Machine
end

section
/-! No handler stops where the host keeps its duties (rules R205, R211, R215, R216, R222). -/

namespace Sys2Proof.Machine

/-! ### The duties that every place has in common -/

/-- The part of `handlerReady` that does not depend on the place. -/
structure DutiesKept (s : State) : Prop where
  accepted : configAccepted s.cfg = true
  fixed : selectorCodesFixed s.cfg
  tables : tablesConsistent s
  packer : packerSound s
  supplied : inputSupplied s s.latch.inLimit.toNat

/-- The part of `handlerReady` that does. -/
def placeReady (p : Place) (s : State) : Prop :=
  match p with
  | .prepareNewBlock => True
  | .readChunk => s.outPtr ≠ 0 ∧ roomPromised s s.latch.outLimit.toNat
  | .checkSignatureState => s.outPtr ≠ 0
  | .flushTail => s.outPtr ≠ 0 ∧ roomPromised s s.latch.outLimit.toNat ∧ inAvail s < 32

theorem handlerReady_iff {p : Place} {s : State} : handlerReady p s ↔ DutiesKept s ∧ placeReady p s := by
  constructor
  · rintro ⟨haccepted, hfixed, htables, hpacker, hsupplied, hplace⟩
    exact ⟨⟨haccepted, hfixed, htables, hpacker, hsupplied⟩, hplace⟩
  · rintro ⟨⟨haccepted, hfixed, htables, hpacker, hsupplied⟩, hplace⟩
    exact ⟨haccepted, hfixed, htables, hpacker, hsupplied, hplace⟩

/-- Only PREPARE_NEW_BLOCK may be entered with no word open. -/
theorem placeReady.outPtr_ne_zero {p : Place} {s : State} (h : placeReady p s) (hp : p ≠ .prepareNewBlock) :
    s.outPtr ≠ 0 := by
  cases p with
  | prepareNewBlock => exact absurd rfl hp
  | readChunk => obtain ⟨hopen, -⟩ := h; exact hopen
  | checkSignatureState => exact h
  | flushTail => obtain ⟨hopen, -⟩ := h; exact hopen

theorem configAccepted_codebook {cfg : Config} (h : configAccepted cfg = true) :
    codebookAccepted cfg = true := by
  simp only [configAccepted, Bool.and_eq_true] at h
  obtain ⟨⟨⟨hbook, -⟩, -⟩, -⟩ := h
  exact hbook

/-- `MIN_LOOKAHEAD` covers the words, hashes and tail bytes of a unit or of a tail, and a new word (rule R222). -/
theorem configAccepted_lookahead {cfg : Config} (h : configAccepted cfg = true) :
    8 * unitWords cfg + 25 ≤ cfg.minLookahead.toNat := by
  simp only [configAccepted, Bool.and_eq_true] at h
  obtain ⟨⟨-, hlookahead⟩, -⟩ := h
  exact lookaheadAccepted_iff.mp hlookahead

/-- Input supplied stays so as the cursor moves on. -/
theorem inputSupplied_mono {s t : State} {limit : Nat} (h : inputSupplied s limit) (hinput : t.input = s.input)
    (hptr : s.inPtr.toNat ≤ t.inPtr.toNat) : inputSupplied t limit := by
  intro x hx hlt
  rw [hinput]
  exact h x (Nat.le_trans hptr hx) hlt

/-- A handler hands the duties on, with a word open. -/
theorem DutiesKept.goesTo {p q : Place} {s t : State} (hs : DutiesKept s) (hplace : placeReady p s)
    (h : handler p s = .ok (.goto q t)) : DutiesKept t ∧ t.outPtr ≠ 0 := by
  obtain ⟨hlatch, -, hcfg, hinput⟩ := commandFrame_eq_iff.mp (handler_goto h).commandFrame
  have hword : wordOpen t := by
    by_cases hp : p = .prepareNewBlock
    · subst hp
      cases handler_goto h with
      | newWord _ _ _ hstart => exact startSig_wordOpen hs.packer hstart
    · exact keptByPrimitives_wordOpen.handler_goto ⟨hs.packer, hplace.outPtr_ne_zero hp⟩ h
  obtain ⟨hpacker, hopen⟩ := hword
  refine ⟨⟨hcfg ▸ hs.accepted, hcfg ▸ hs.fixed, keptByPrimitives_tablesConsistent.handler_goto hs.tables h,
    hpacker, ?_⟩, hopen⟩
  rw [hlatch]
  exact inputSupplied_mono hs.supplied hinput (handler_inPtr_le h)

/-- A passed lookahead test is the room promised to what follows, a new word included. -/
theorem roomPromised_of_room {s t : State} (haccepted : configAccepted s.cfg = true)
    (hroom : outputShort s = false) (hcfg : t.cfg = s.cfg) (hptr : t.outPtr.toNat ≤ s.outPtr.toNat + 8) :
    roomPromised t s.latch.outLimit.toNat := by
  have hlookahead := configAccepted_lookahead haccepted
  have hroom := outputShort_eq_false.mp hroom
  unfold outAvail at hroom
  unfold roomPromised
  rw [hcfg]
  omega

theorem handlerReady_goesTo {p q : Place} {s t : State} (hs : handlerReady p s)
    (h : handler p s = .ok (.goto q t)) : handlerReady q t := by
  obtain ⟨hduties, hplace⟩ := handlerReady_iff.mp hs
  obtain ⟨hduties', hopen⟩ := hduties.goesTo hplace h
  refine handlerReady_iff.mpr ⟨hduties', ?_⟩
  cases handler_goto h with
  | newWord hroom _ _ hstart =>
    obtain ⟨hlimit, rfl⟩ := startSig_eq_ok.mp hstart
    exact ⟨hopen, roomPromised_of_room (s := s) hduties.accepted hroom rfl (cursor_toNat hlimit).le⟩
  | unit => exact hopen
  | tail havail =>
    obtain ⟨-, hpromised⟩ := hplace
    exact ⟨hopen, hpromised, havail⟩
  | full => trivial
  | more _ hroom => exact ⟨hopen, roomPromised_of_room hduties.accepted hroom rfl (Nat.le_add_right _ _)⟩
  | fullTail => trivial

/-! ### Each handler completes -/

theorem prepareNewBlock_completes {s : State} (hs : DutiesKept s) : ∃ r, prepareNewBlock s = .ok r := by
  cases hshort : outputShort s with
  | true => exact ⟨_, prepareNewBlock_of_short hshort⟩
  | false =>
    cases heff : efficiencyCheckDue s with
    | true => exact ⟨_, prepareNewBlock_of_efficiency hshort heff⟩
    | false =>
      cases hblock : blockEndDue s with
      | true => exact ⟨_, prepareNewBlock_of_blockEnd hshort heff hblock⟩
      | false =>
        have hlookahead := configAccepted_lookahead hs.accepted
        have hroom := outputShort_eq_false.mp hshort
        unfold outAvail at hroom
        exact ⟨_, prepareNewBlock_of_startSig hshort heff hblock (startSig_eq_ok.mpr ⟨by omega, rfl⟩)⟩

/-- The room promised to READ_CHUNK is that of a unit (rule R222). -/
theorem roomPromised.roomToPack {s : State} (hs : DutiesKept s) (hopen : s.outPtr ≠ 0)
    (hpromised : roomPromised s s.latch.outLimit.toNat) : roomToPack (unitWords s.cfg) 16 s := by
  have hlookahead := configAccepted_lookahead hs.accepted
  obtain ⟨hpos, -, hword, -⟩ := hs.packer
  obtain ⟨hbelow, -⟩ := hword hopen
  unfold roomPromised at hpromised
  exact ⟨hpos, hbelow, by omega⟩

theorem readChunk_completes {s : State} (hs : DutiesKept s) (hplace : placeReady .readChunk s) :
    ∃ r, readChunk s = .ok r := by
  by_cases havail : 32 ≤ inAvail s
  · obtain ⟨hopen, hpromised⟩ := hplace
    obtain ⟨t, hunit, -⟩ := processUnitStaysWithinItsBound s (configAccepted_codebook hs.accepted) hs.fixed
      hs.tables (hpromised.roomToPack hs hopen) havail hs.supplied
    exact ⟨_, readChunk_of_unit havail (outcomeOf_eq_next.mp hunit)⟩
  · cases hmode : s.latch.mode with
    | step => exact ⟨_, readChunk_of_step (Nat.not_le.mp havail) hmode⟩
    | flush => exact ⟨_, readChunk_of_flush (Nat.not_le.mp havail) hmode⟩

theorem checkSignatureState_completes (s : State) : ∃ r, checkSignatureState s = .ok r := by
  rcases checkSignatureState_cases s with ⟨-, h⟩ | ⟨-, -, h⟩ | ⟨-, -, h⟩ <;> exact ⟨_, h⟩

/-- One turn of FLUSH_TAIL's loop, with room for the bits and the hash of its chunk and for more. -/
theorem tailChunk_completes {n b : Nat} {s : State} (hbook : codebookAccepted s.cfg = true)
    (hfixed : selectorCodesFixed s.cfg) (htables : tablesConsistent s)
    (hsupplied : inputSupplied s s.latch.inLimit.toNat) (havail : 4 ≤ inAvail s)
    (hroom : roomForBits (chunkBits s.cfg + n) (2 + b) s) :
    ∃ t, tailChunk s = .ok t ∧ tablesConsistent t ∧ roomForBits n b t := by
  have hlimit : s.inPtr.toNat + 4 ≤ s.latch.inLimit.toNat := by unfold inAvail at havail; omega
  obtain ⟨bs, hread⟩ := (hsupplied.readable (Nat.le_refl _) hlimit).memRead_chunk
  have ⟨_, hform⟩ := htables
  have hroom' : roomForBits (chunkBits s.cfg + n) (2 + b)
      { s with inPtr := BitVec.ofNat 64 (s.inPtr.toNat + 4) } := hroom
  obtain ⟨t, hchunk, hpacked⟩ := processChunk_packsBits
    (s := { s with inPtr := BitVec.ofNat 64 (s.inPtr.toNat + 4) }) hbook hfixed hform
    (hroom'.mono (Nat.le_add_right _ _) (Nat.le_add_right _ _))
    (le32 (bs.getD 0 0) (bs.getD 1 0) (bs.getD 2 0) (bs.getD 3 0))
  exact ⟨t, tailChunk_eq_ok.mpr ⟨bs, hread, Nat.lt_of_le_of_lt hlimit s.latch.inLimit.isLt, hchunk⟩,
    keptByPrimitives_tablesConsistent.processChunk (s := { s with inPtr := BitVec.ofNat 64 (s.inPtr.toNat + 4) })
      htables hchunk, hpacked.room hroom'⟩

/-- `k` turns of FLUSH_TAIL's loop leave of the room what `k` chunks do not need. -/
theorem tailChunks_completes (k : Nat) {n b : Nat} : ∀ {s : State}, codebookAccepted s.cfg = true →
    selectorCodesFixed s.cfg → tablesConsistent s → inputSupplied s s.latch.inLimit.toNat →
    roomForBits (chunkBits s.cfg * k + n) (2 * k + b) s → ∃ t, tailChunks k s = .ok t ∧ roomForBits n b t := by
  induction k with
  | zero =>
    intro s _ _ _ _ hroom
    exact ⟨s, rfl, hroom.mono (Nat.le_add_left _ _) (Nat.le_add_left _ _)⟩
  | succ k ih =>
    intro s hbook hfixed htables hsupplied hroom
    by_cases hstop : wordFull s = true ∨ inAvail s < 4
    · exact ⟨s, tailChunks_succ_eq_ok.mpr (.inl ⟨hstop, rfl⟩),
        hroom.mono (Nat.le_add_left _ _) (Nat.le_add_left _ _)⟩
    · rw [not_or, Bool.not_eq_true, Nat.not_lt] at hstop
      obtain ⟨hfull, havail⟩ := hstop
      have hturnRoom : roomForBits (chunkBits s.cfg + (chunkBits s.cfg * k + n)) (2 + (2 * k + b)) s :=
        hroom.mono (by rw [Nat.mul_succ]; omega) (by omega)
      obtain ⟨u, hturn, htables', hroom'⟩ :=
        tailChunk_completes hbook hfixed htables hsupplied havail hturnRoom
      obtain ⟨hlatch, -, hcfg, hinput⟩ := commandFrame_eq_iff.mp (tailChunk_commandFrame hturn)
      have hptr := tailChunk_inPtr hturn
      rw [← hcfg] at hbook hfixed hroom'
      rw [← hlatch] at hsupplied
      obtain ⟨t, hrest, hleft⟩ := ih hbook hfixed htables' (inputSupplied_mono hsupplied hinput (by omega)) hroom'
      exact ⟨t, tailChunks_succ_eq_ok.mpr (.inr ⟨hfull, havail, u, hturn, hrest⟩), hleft⟩

/-- EMIT_TAIL completes with the bytes supplied and room for them, also where the cursor is past the limit. -/
theorem emitTail_completes {s : State} (hsupplied : inputSupplied s s.latch.inLimit.toNat)
    (hroom : s.outPtr.toNat + inAvail s ≤ s.latch.outLimit.toNat) : ∃ t, emitTail s = .ok t := by
  by_cases hle : s.inPtr.toNat ≤ s.latch.inLimit.toNat
  · obtain ⟨t, htail, -⟩ := emitTailCopiesTheRest s hsupplied hle hroom
    exact ⟨t, outcomeOf_eq_next.mp htail⟩
  · have hnone : inAvail s = 0 := Nat.sub_eq_zero_of_le (Nat.le_of_not_le hle)
    exact ⟨s, by rw [emitTail, hnone, tailBytes]⟩

/-- END and fewer than 4 bytes end the stream where there is room for them. -/
theorem finishStream_completes {s : State} (hfixed : selectorCodesFixed s.cfg)
    (hsupplied : inputSupplied s s.latch.inLimit.toNat) (havail : inAvail s < 4) (hroom : roomForBits 2 3 s) :
    ∃ t, finishStream s = .ok t := by
  obtain ⟨-, hend⟩ := hfixed
  obtain ⟨u, hpush, hpacked⟩ := pushCode_packsBits (c := s.cfg.endCode) (n := 2) (by rw [hend]; decide)
    (by rw [hend]; decide) (hroom.mono (Nat.le_refl _) (Nat.zero_le _))
  obtain ⟨-, -, hlimit⟩ := hpacked.room (m := 0) (d := 3) hroom
  obtain ⟨hlatch, -, -, hinput⟩ := commandFrame_eq_iff.mp (push_commandFrame hpush)
  have hptr := push_inPtr hpush
  have havail' : inAvail u < 4 := by rwa [inAvail, hlatch, hptr]
  rw [← hlatch] at hsupplied
  obtain ⟨v, htail⟩ := emitTail_completes (inputSupplied_mono hsupplied hinput (by rw [hptr])) (by omega)
  exact ⟨_, finishStream_eq_ok.mpr ⟨u, v, hpush, htail, rfl⟩⟩

/-- The room promised to FLUSH_TAIL is that of seven chunks, END and three bytes (rule R222). -/
theorem roomPromised.roomForTail {s : State} (hs : DutiesKept s) (hopen : s.outPtr ≠ 0)
    (hpromised : roomPromised s s.latch.outLimit.toNat) {k : Nat} (hk : k ≤ 7) :
    roomForBits (chunkBits s.cfg * k + 2) (2 * k + 3) s := by
  have hlookahead := configAccepted_lookahead hs.accepted
  obtain ⟨hpos, -, hword, -⟩ := hs.packer
  obtain ⟨hbelow, -⟩ := hword hopen
  have hchunks : chunkBits s.cfg * k ≤ chunkBits s.cfg * 7 := Nat.mul_le_mul_left _ hk
  have hselector : 4 ≤ chunkBits s.cfg := Nat.le_add_right _ _
  unfold roomPromised at hpromised
  rw [unitWords, unitBits_eq] at hlookahead
  exact ⟨hpos, hbelow, by omega⟩

theorem flushTail_completes {s : State} (hs : DutiesKept s) (hplace : placeReady .flushTail s) :
    ∃ r, flushTail s = .ok r := by
  obtain ⟨hopen, hpromised, havail⟩ := hplace
  obtain ⟨t, hloop, hroom⟩ := tailChunks_completes (inAvail s / 4) (configAccepted_codebook hs.accepted) hs.fixed
    hs.tables hs.supplied (hpromised.roomForTail hs hopen (by omega))
  rw [flushTail, hloop, ok_bind]
  split
  · exact ⟨_, rfl⟩
  · next hshort =>
    obtain ⟨hlatch, -, hcfg, hinput⟩ := commandFrame_eq_iff.mp (tailChunks_commandFrame _ hloop)
    have hsupplied := hs.supplied
    rw [← hlatch] at hsupplied
    obtain ⟨u, hfinish⟩ := finishStream_completes (hcfg ▸ hs.fixed)
      (inputSupplied_mono hsupplied hinput (tailChunks_inPtr_le _ hloop)) (Nat.not_le.mp hshort) hroom
    exact ⟨_, by rw [hfinish, ok_bind]⟩

theorem handler_completes {p : Place} {s : State} (hs : handlerReady p s) : ∃ r, handler p s = .ok r := by
  obtain ⟨hduties, hplace⟩ := handlerReady_iff.mp hs
  cases p with
  | prepareNewBlock => exact prepareNewBlock_completes hduties
  | readChunk => exact readChunk_completes hduties hplace
  | checkSignatureState => exact checkSignatureState_completes s
  | flushTail => exact flushTail_completes hduties hplace

/-- Every handler of the command completes, and the transfers do not run out. -/
theorem drive_completes {p : Place} {s : State} (hs : handlerReady p s) : ∃ t, drive p s = .ok t :=
  drive_induction (R := handlerReady) (Q := fun x => ∃ t, x = .ok t)
    (fun q u f hu hf => by obtain ⟨r, hr⟩ := handler_completes hu; rw [hr] at hf; cases hf)
    (fun _ _ t _ _ => ⟨t, rfl⟩) (fun _ _ _ _ hu h => handlerReady_goesTo hu h) hs

/-- Settles O24: the driver completes from every place; its status is some handler's, and packer and tables are
kept sound by every operation. -/
theorem handlersRunTheCommandToAStatus : Obligations.HandlersRunTheCommandToAStatus := by
  intro s
  have hplace (p : Place) (hs : handlerReady p s) : ∃ t st, outcomeOf (drive p s) = .next t ∧
      t.status = some st ∧ st ≠ .error ∧ t.latch = Latch.idle ∧ packerSound t ∧ tablesConsistent t := by
    obtain ⟨t, h⟩ := drive_completes hs
    obtain ⟨hduties, hready⟩ := handlerReady_iff.mp hs
    have hpacker := keptOnceOpened_packerSound.drive hduties.packer
      (fun hp => ⟨hduties.packer, hready.outPtr_ne_zero hp⟩) h
    have htables := keptByPrimitives_tablesConsistent.drive hduties.tables h
    obtain ⟨c, u, rfl, herror, -⟩ := drive_cause h
    exact ⟨_, _, outcomeOf_eq_next.mpr h, rfl, herror, rfl, hpacker, htables⟩
  exact ⟨hplace .prepareNewBlock, hplace .readChunk, hplace .checkSignatureState, hplace .flushTail⟩

end Sys2Proof.Machine
end

section
/-! STEP and FLUSH of a host that keeps its duties: what they consume, where they stop, and what they leave
(rules R203, R204, R211, R215 to R217, R219, R222). -/

namespace Sys2Proof.Machine

/-! ### Where the cursors may go -/

/-- Every write to OUT lies below `out_limit`, so `out_ptr` does not pass a bound on itself and on the limit. -/
def outPtrWithin (b : Nat) (s : State) : Prop := s.outPtr.toNat ≤ b ∧ s.latch.outLimit.toNat ≤ b

/-- Bytes appended below the limit. -/
theorem outPtrWithin.append {b n : Nat} {s : State} (h : outPtrWithin b s)
    (hroom : s.outPtr.toNat + n ≤ s.latch.outLimit.toNat) :
    (BitVec.ofNat 64 (s.outPtr.toNat + n)).toNat ≤ b ∧ s.latch.outLimit.toNat ≤ b := by
  obtain ⟨-, hlimit⟩ := h
  rw [cursor_toNat hroom]
  exact ⟨Nat.le_trans hroom hlimit, hlimit⟩

theorem keptByPrimitives_outPtrWithin (b : Nat) : KeptByPrimitives (outPtrWithin b) where
  push hs h := by
    obtain ⟨-, -, ⟨-, rfl⟩ | ⟨-, hroom, -, -, rfl⟩⟩ := push_eq_ok.mp h
    · exact hs
    · exact hs.append hroom
  startSig hs h := by obtain ⟨hroom, rfl⟩ := startSig_eq_ok.mp h; exact hs.append hroom
  emitHash16 hs h := by obtain ⟨hroom, rfl⟩ := emitHash16_eq_ok.mp h; exact hs.append hroom
  tailByte hs h := by obtain ⟨hroom, -, rfl⟩ := tailByte_eq_ok.mp h; exact hs.append hroom
  recordForm hs := hs
  recordLetter hs := hs
  dictUpdate hs := by unfold outPtrWithin; rw [dictUpdate_outPtr, dictUpdate_latch]; exact hs
  setLastHash hs := hs
  consume hs := hs
  raise hs := by unfold outPtrWithin; rw [raise_outPtr]; exact ⟨hs.1, Nat.zero_le _⟩

/-- FLUSH_TAIL's loop reads nothing beyond `in_limit`. -/
theorem tailChunks_inPtr_le_limit (n : Nat) : ∀ {s t : State}, tailChunks n s = .ok t →
    s.inPtr.toNat ≤ s.latch.inLimit.toNat → t.inPtr.toNat ≤ s.latch.inLimit.toNat := by
  induction n with
  | zero => intro s t h hle; cases h; exact hle
  | succ n ih =>
    intro s t h hle
    rcases tailChunks_succ_eq_ok.mp h with ⟨-, rfl⟩ | ⟨-, havail, u, hchunk, hrest⟩
    · exact hle
    · obtain ⟨hlatch, -⟩ := commandFrame_eq_iff.mp (tailChunk_commandFrame hchunk)
      have hptr := tailChunk_inPtr hchunk
      unfold inAvail at havail
      rw [← hlatch]
      exact ih hrest (by rw [hlatch]; omega)

/-! ### A command in progress -/

/-- A command with the arguments `m`, `il` and `ol`, entered with the input cursor at `a`, in progress at a place:
the cursor is not past the limit, a STEP has consumed whole units and is not in FLUSH_TAIL, and READ_CHUNK has been
promised its room. -/
structure InProgress (m : Mode) (il ol : Word64) (a : Nat) (p : Place) (s : State) : Prop where
  latch_eq : s.latch = ⟨m, il, ol⟩
  from_le : a ≤ s.inPtr.toNat
  le_limit : s.inPtr.toNat ≤ il.toNat
  units : m = .step → p ≠ .flushTail ∧ 32 ∣ s.inPtr.toNat - a
  promised : p = .readChunk → roomPromised s ol.toNat

theorem InProgress.inAvail_eq {m : Mode} {il ol : Word64} {a : Nat} {p : Place} {s : State}
    (h : InProgress m il ol a p s) : inAvail s = il.toNat - s.inPtr.toNat := by
  rw [inAvail, h.latch_eq]

/-- The rows that go on without touching the cursor or the limits. -/
theorem InProgress.move {m : Mode} {il ol : Word64} {a : Nat} {p q : Place} {s t : State}
    (h : InProgress m il ol a p s) (hlatch : t.latch = s.latch) (hptr : t.inPtr = s.inPtr)
    (htail : m = .step → q ≠ .flushTail) (hpromised : q = .readChunk → roomPromised t ol.toNat) :
    InProgress m il ol a q t where
  latch_eq := hlatch.trans h.latch_eq
  from_le := by rw [hptr]; exact h.from_le
  le_limit := by rw [hptr]; exact h.le_limit
  units hm := ⟨htail hm, by rw [hptr]; exact (h.units hm).2⟩
  promised := hpromised

/-- The room a passed test promises, with the limit named. -/
theorem InProgress.roomPromised {m : Mode} {il ol : Word64} {a : Nat} {p : Place} {s t : State}
    (h : InProgress m il ol a p s) (haccepted : configAccepted s.cfg = true) (hroom : outputShort s = false)
    (hcfg : t.cfg = s.cfg) (hptr : t.outPtr.toNat ≤ s.outPtr.toNat + 8) : roomPromised t ol.toNat := by
  have hpromised := roomPromised_of_room haccepted hroom hcfg hptr
  rwa [h.latch_eq] at hpromised

theorem InProgress.goesTo {m : Mode} {il ol : Word64} {a : Nat} {p q : Place} {s t : State}
    (hs : InProgress m il ol a p s) (haccepted : configAccepted s.cfg = true) (h : GoesTo p s q t) :
    InProgress m il ol a q t := by
  have hlatch := h.latch_eq
  cases h with
  | newWord hroom _ _ hstart =>
    have hptr : t.outPtr.toNat ≤ s.outPtr.toNat + 8 := by
      obtain ⟨hlimit, rfl⟩ := startSig_eq_ok.mp hstart
      exact (cursor_toNat hlimit).le
    obtain ⟨-, -, hcfg, -⟩ := commandFrame_eq_iff.mp (startSig_commandFrame hstart)
    exact hs.move hlatch (startSig_inPtr hstart) (fun _ => nofun)
      (fun _ => hs.roomPromised haccepted hroom hcfg hptr)
  | unit havail hunit =>
    have hptr := processUnit_inPtr hunit
    have hfrom := hs.from_le
    rw [hs.inAvail_eq] at havail
    refine ⟨hlatch.trans hs.latch_eq, by omega, by omega, fun hm => ⟨nofun, ?_⟩, nofun⟩
    obtain ⟨-, hunits⟩ := hs.units hm
    omega
  | tail _ hmode =>
    rw [hs.latch_eq] at hmode
    exact hs.move hlatch rfl (fun hm => by rw [hm] at hmode; cases hmode) nofun
  | full => exact hs.move hlatch rfl (fun _ => nofun) nofun
  | more _ hroom =>
    exact hs.move hlatch rfl (fun _ => nofun) (fun _ => hs.roomPromised haccepted hroom rfl (Nat.le_add_right _ _))
  | fullTail hloop =>
    have hge := tailChunks_inPtr_le _ hloop
    have hle := tailChunks_inPtr_le_limit _ hloop (by rw [hs.latch_eq]; exact hs.le_limit)
    rw [hs.latch_eq] at hle
    exact ⟨hlatch.trans hs.latch_eq, Nat.le_trans hs.from_le hge, hle, fun hm => absurd rfl (hs.units hm).1, nofun⟩

/-! ### The return -/

/-- Why a command with the arguments `m`, `il` and `ol` returned (rules R219, R251 to R256): a stall says which
limit was too near, and `Ready` that the input is consumed. -/
inductive ReturnReason (m : Mode) (il ol : Word64) (t : State) : Prop
  | inputStall : m = .step → t.status = some .stallOnInput → t.resume = 1 →
      il.toNat < t.inPtr.toNat + 32 → roomPromised t ol.toNat → ReturnReason m il ol t
  | outputStall : t.status = some .stallOnOutput → (t.resume = 0 ∨ t.resume = 2) →
      ol.toNat < t.outPtr.toNat + t.cfg.minLookahead.toNat → ReturnReason m il ol t
  | efficiency : t.status = some .infoEfficiencyCheck → t.resume = 0 → ReturnReason m il ol t
  | newBlock : t.status = some .infoNewBlock → t.resume = 0 → ReturnReason m il ol t
  | ready : m = .flush → t.status = some .ready → t.resume = 3 → t.inPtr = il → ReturnReason m il ol t

/-- The input a command has consumed when it returns. -/
def consumedWithin (m : Mode) (il : Word64) (a : Nat) (t : State) : Prop :=
  t.inPtr.toNat ≤ il.toNat ∧ (m = .step → 32 ∣ t.inPtr.toNat - a)

theorem InProgress.consumed {m : Mode} {il ol : Word64} {a : Nat} {p : Place} {s t : State}
    (h : InProgress m il ol a p s) (hptr : t.inPtr = s.inPtr) : consumedWithin m il a t := by
  unfold consumedWithin
  rw [hptr]
  exact ⟨h.le_limit, fun hm => (h.units hm).2⟩

/-- A failed lookahead test, with the limit named. -/
theorem InProgress.short {m : Mode} {il ol : Word64} {a : Nat} {p : Place} {s : State}
    (h : InProgress m il ol a p s) (hshort : outputShort s = true) :
    ol.toNat < s.outPtr.toNat + s.cfg.minLookahead.toNat := by
  have havail : ol.toNat - s.outPtr.toNat < s.cfg.minLookahead.toNat := by
    have hlt := outputShort_iff.mp hshort
    rwa [outAvail, h.latch_eq] at hlt
  omega

/-- FLUSH_TAIL's completion consumes what its loop has left (rules R181, R216). -/
theorem emitTail_inPtr {s t : State} (h : emitTail s = .ok t) (hle : s.inPtr.toNat ≤ s.latch.inLimit.toNat) :
    t.inPtr = s.latch.inLimit := by
  apply BitVec.eq_of_toNat_eq
  rw [tailBytes_inPtr _ h, inAvail]
  omega

theorem InProgress.returns {m : Mode} {il ol : Word64} {a : Nat} {p : Place} {s t : State}
    (hs : InProgress m il ol a p s) (h : Returns p s t) : consumedWithin m il a t ∧ ReturnReason m il ol t := by
  have hmode : s.latch.mode = m := congrArg Latch.mode hs.latch_eq
  cases h with
  | outputStall hshort => exact ⟨hs.consumed rfl, .outputStall rfl (.inl rfl) (hs.short hshort)⟩
  | efficiency => exact ⟨hs.consumed rfl, .efficiency rfl rfl⟩
  | blockEnd => exact ⟨hs.consumed (raise_inPtr _ _), .newBlock rfl rfl⟩
  | inputStall havail hstep =>
    rw [hs.inAvail_eq] at havail
    have hle := hs.le_limit
    exact ⟨hs.consumed rfl, .inputStall (hmode.symm.trans hstep) rfl rfl (by rw [raise_inPtr]; omega)
      (hs.promised rfl)⟩
  | checkStall _ hshort => exact ⟨hs.consumed rfl, .outputStall rfl (.inr rfl) (hs.short hshort)⟩
  | @finished _ u v w hloop _ hend htail =>
    have hflush : m ≠ .step := fun hm => (hs.units hm).1 rfl
    have hle := tailChunks_inPtr_le_limit _ hloop (by rw [hs.latch_eq]; exact hs.le_limit)
    obtain ⟨hlatch, -⟩ := commandFrame_eq_iff.mp ((push_commandFrame hend).trans (tailChunks_commandFrame _ hloop))
    have hptr := emitTail_inPtr htail (by rw [hlatch, push_inPtr hend]; exact hle)
    rw [hlatch, hs.latch_eq] at hptr
    refine ⟨⟨?_, fun hm => absurd hm hflush⟩, .ready ?_ rfl rfl hptr⟩
    · rw [raise_inPtr, hptr]
    · cases m with
      | step => exact absurd rfl hflush
      | flush => rfl

/-! ### The commands -/

/-- The host's duties, with the arguments latched, are those of the handler the session is parked at. -/
theorem commandReady.handlerReady {s : State} {il ol : Word64} (h : commandReady s il ol) (m : Mode) :
    handlerReady (parkedPlace s.resume) (latchCommand s m il ol) := by
  obtain ⟨⟨haccepted, hfixed, htables, hpacker, hpark⟩, hopen, -, hsupplied, hpromised⟩ := h
  refine handlerReady_iff.mpr ⟨⟨haccepted, hfixed, htables, hpacker, hsupplied⟩, ?_⟩
  have hcodes : s.resume = 0 ∨ s.resume = 1 ∨ s.resume = 2 := by bv_omega
  rcases hcodes with hr | hr | hr <;> rw [hr]
  · exact trivial
  · exact ⟨parkedSound_outPtr_ne_zero hpark (.inl hr), hpromised hr⟩
  · exact parkedSound_outPtr_ne_zero hpark (.inr hr)

theorem commandReady.inProgress {s : State} {il ol : Word64} (h : commandReady s il ol) (m : Mode) :
    InProgress m il ol s.inPtr.toNat (parkedPlace s.resume) (latchCommand s m il ol) := by
  obtain ⟨-, hopen, hlimit, -, hpromised⟩ := h
  have hcodes : s.resume = 0 ∨ s.resume = 1 ∨ s.resume = 2 := by bv_omega
  refine ⟨rfl, Nat.le_refl _, hlimit, fun _ => ⟨?_, by simp⟩, fun hp => hpromised ?_⟩
  · rcases hcodes with hr | hr | hr <;> rw [hr] <;> decide
  · rcases hcodes with hr | hr | hr <;> rw [hr] at hp ⊢ <;> revert hp <;> decide

/-- What every command keeps of a session: its configuration, its tables, its packer and its park. -/
theorem dispatch_sessionSound {s t : State} (hs : sessionSound s) (h : dispatch s = .ok t) : sessionSound t := by
  obtain ⟨haccepted, hfixed, htables, hpacker, hpark⟩ := hs
  obtain ⟨-, hcfg, -⟩ := environment_eq_iff.mp ((keptByPrimitives_environment s).dispatch rfl h)
  unfold sessionSound
  rw [hcfg]
  exact ⟨haccepted, hfixed, keptByPrimitives_tablesConsistent.dispatch htables h,
    keptOnceOpened_packerSound.dispatch hpacker (fun hr => ⟨hpacker, parkedSound_outPtr_ne_zero hpark hr⟩) h,
    dispatch_parkedSound hpark h⟩

/-- STEP and FLUSH alike: the driver completes, and its return is accounted for. -/
theorem commandReady.completes {s : State} {il ol : Word64} (h : commandReady s il ol) (m : Mode) :
    ∃ t, dispatch (latchCommand s m il ol) = .ok t ∧ consumedWithin m il s.inPtr.toNat t ∧
      ReturnReason m il ol t ∧ sessionSound t ∧ t.outPtr.toNat ≤ max s.outPtr.toNat ol.toNat := by
  obtain ⟨t, hdrive⟩ := drive_completes (h.handlerReady m)
  have ⟨hsound, hopen, hlimit, _⟩ := h
  have hdispatch : dispatch (latchCommand s m il ol) = .ok t :=
    (dispatch_eq_drive (s := latchCommand s m il ol) hopen hlimit).trans hdrive
  have ⟨haccepted, _⟩ := hsound
  obtain ⟨hconsumed, hreason⟩ := drive_rows
    (P := fun p u => u.cfg = s.cfg ∧ InProgress m il ol s.inPtr.toNat p u)
    (Q := fun t => consumedWithin m il s.inPtr.toNat t ∧ ReturnReason m il ol t)
    (fun p u q v ⟨hcfg, hu⟩ hgo => by
      obtain ⟨-, -, hcfg', -⟩ := commandFrame_eq_iff.mp hgo.commandFrame
      exact ⟨hcfg'.trans hcfg, hu.goesTo (hcfg ▸ haccepted) hgo⟩)
    (fun p u v ⟨_, hu⟩ hret => hu.returns hret) (s := latchCommand s m il ol) ⟨rfl, h.inProgress m⟩ hdrive
  obtain ⟨hout, -⟩ := (keptByPrimitives_outPtrWithin (max s.outPtr.toNat ol.toNat)).dispatch
    (s := latchCommand s m il ol) ⟨Nat.le_max_left _ _, Nat.le_max_right _ _⟩ hdispatch
  have hsound' := dispatch_sessionSound (s := latchCommand s m il ol) hsound hdispatch
  exact ⟨t, hdispatch, hconsumed, hreason, hsound', hout⟩

/-- Only `Ready` ends the session. -/
theorem ReturnReason.resume_ne_three {m : Mode} {il ol : Word64} {t : State} (h : ReturnReason m il ol t)
    (hst : t.status ≠ some .ready) : t.resume ≠ 3 := by
  cases h with
  | inputStall _ _ hr | efficiency _ hr | newBlock _ hr => rw [hr]; decide
  | outputStall _ hr _ => rcases hr with hr | hr <;> rw [hr] <;> decide
  | ready _ hready => exact absurd hready hst

/-- Parked at READ_CHUNK, the session keeps the room promised to it. -/
theorem ReturnReason.promised {m : Mode} {il ol : Word64} {t : State} (h : ReturnReason m il ol t)
    (hread : t.resume = 1) : roomPromised t ol.toNat := by
  cases h with
  | inputStall _ _ _ _ hpromised => exact hpromised
  | efficiency _ hr | newBlock _ hr => exact absurd (hread.symm.trans hr) (by decide)
  | outputStall _ hr _ => rcases hr with hr | hr <;> exact absurd (hread.symm.trans hr) (by decide)
  | ready _ _ hr => exact absurd (hread.symm.trans hr) (by decide)

/-- Settles O22: both commands are `commandReady.completes`; the reason of the return gives the rest. -/
theorem commandsCompleteUnderTheHostsDuties : Obligations.CommandsCompleteUnderTheHostsDuties := by
  intro s il ol h
  constructor
  · obtain ⟨t, hstep, ⟨hle, hunits⟩, hreason, hsound, hout⟩ := h.completes .step
    obtain ⟨-, hready, -⟩ := dispatch_status hstep
    refine ⟨t, outcomeOf_eq_next.mpr hstep, ?_, hunits rfl, hsound, hreason.resume_ne_three (hready rfl), hle, hout,
      hreason.promised⟩
    cases hreason with
    | inputStall _ hst _ hshort _ => exact .inl ⟨hst, hshort⟩
    | outputStall hst _ hshort => exact .inr (.inl ⟨hst, hshort⟩)
    | efficiency hst _ => exact .inr (.inr (.inl hst))
    | newBlock hst _ => exact .inr (.inr (.inr hst))
    | ready hm => cases hm
  · obtain ⟨t, hflush, ⟨hle, -⟩, hreason, hsound, hout⟩ := h.completes .flush
    have hgoing (st : Status) (hst : t.status = some st) (hne : st ≠ .ready) : t.resume ≠ 3 :=
      hreason.resume_ne_three (by rw [hst]; exact fun e => hne (Option.some.inj e))
    refine ⟨t, outcomeOf_eq_next.mpr hflush, ?_, hsound, hout⟩
    cases hreason with
    | inputStall hm => cases hm
    | outputStall hst _ hshort => exact .inr ⟨.inl ⟨hst, hshort⟩, hgoing _ hst nofun, hle⟩
    | efficiency hst _ => exact .inr ⟨.inr (.inl hst), hgoing _ hst nofun, hle⟩
    | newBlock hst _ => exact .inr ⟨.inr (.inr hst), hgoing _ hst nofun, hle⟩
    | ready _ hst hr hptr => exact .inl ⟨hst, hr, hptr⟩

end Sys2Proof.Machine
end

section
/-! A STEP with one unit to process, and the FLUSH of a stream with at most three bytes left (rules R203, R204,
R211, R215 to R217). -/

namespace Sys2Proof.Machine

/-! ### One unit -/

theorem outputShort_of_room {s : State} (h : s.outPtr.toNat + s.cfg.minLookahead.toNat ≤ s.latch.outLimit.toNat) :
    outputShort s = false := by
  rw [outputShort_eq_false, outAvail]
  omega

/-- In a STEP with no unit left and room for the test, PREPARE_NEW_BLOCK returns, or starts a word and stalls on
input; it consumes nothing. -/
theorem drive_prepareNewBlock_of_noUnit {s : State} (hs : DutiesKept s) (hroom : outputShort s = false)
    (hmode : s.latch.mode = .step) (havail : inAvail s < 32) :
    ∃ t, drive .prepareNewBlock s = .ok t ∧ t.inPtr = s.inPtr := by
  obtain ⟨r, hr⟩ := prepareNewBlock_completes hs
  rcases prepareNewBlock_cases hr with ⟨hshort, -⟩ | ⟨-, -, rfl⟩ | ⟨-, -, -, rfl⟩ | ⟨-, -, -, u, hstart, rfl⟩
  · rw [hroom] at hshort
    cases hshort
  · exact ⟨_, drive_of_returned (p := .prepareNewBlock) hr, rfl⟩
  · exact ⟨_, drive_of_returned (p := .prepareNewBlock) hr, raise_inPtr _ _⟩
  · obtain ⟨hlatch, -⟩ := commandFrame_eq_iff.mp (startSig_commandFrame hstart)
    have hstall := readChunk_of_step (startSig_inAvail hstart ▸ havail) (hlatch ▸ hmode)
    exact ⟨_, (drive_of_goto (p := .prepareNewBlock) hr).trans (drive_of_returned (p := .readChunk) hstall),
      (raise_inPtr _ _).trans (startSig_inPtr hstart)⟩

/-- A unit takes no more than its bound, so room for the test beyond the bound is left after it (rule R222). -/
theorem processUnit_leavesRoom {s : State} (hs : DutiesKept s) (hopen : s.outPtr ≠ 0) (havail : 32 ≤ inAvail s)
    (hroom : s.outPtr.toNat + 8 * unitWords s.cfg + 16 + s.cfg.minLookahead.toNat ≤ s.latch.outLimit.toNat) :
    ∃ t, processUnit s = .ok t ∧ DutiesKept t ∧ outputShort t = false := by
  obtain ⟨hpos, -, hword, -⟩ := hs.packer
  obtain ⟨hbelow, -⟩ := hword hopen
  obtain ⟨t, hexec, -, -, -, -, -, hout⟩ := processUnitStaysWithinItsBound s (configAccepted_codebook hs.accepted)
    hs.fixed hs.tables ⟨hpos, hbelow, by omega⟩ havail hs.supplied
  have hunit := outcomeOf_eq_next.mp hexec
  have hplace : placeReady .readChunk s := ⟨hopen, by unfold roomPromised; omega⟩
  obtain ⟨hduties, -⟩ := hs.goesTo hplace (p := .readChunk) (readChunk_of_unit havail hunit)
  obtain ⟨hlatch, -, hcfg, -⟩ := commandFrame_eq_iff.mp (processUnit_commandFrame hunit)
  exact ⟨t, hunit, hduties, outputShort_of_room (by rw [hcfg, hlatch]; omega)⟩

/-- In a STEP with no unit left and room for the test, CHECK_SIGNATURE_STATE stalls on input through READ_CHUNK, or
goes on as PREPARE_NEW_BLOCK where the word is full. -/
theorem drive_checkSignatureState_of_noUnit {s : State} (hs : DutiesKept s) (hroom : outputShort s = false)
    (hmode : s.latch.mode = .step) (havail : inAvail s < 32) :
    ∃ t, drive .checkSignatureState s = .ok t ∧ t.inPtr = s.inPtr ∧
      (s.bitPos ≠ 64 → t = raise .stallOnInput s) ∧ (s.bitPos = 64 → drive .prepareNewBlock s = .ok t) := by
  cases hfull : wordFull s with
  | true =>
    obtain ⟨t, hprepare, hptr⟩ := drive_prepareNewBlock_of_noUnit hs hroom hmode havail
    have hgoto := drive_of_goto (p := .checkSignatureState) (checkSignatureState_of_full hfull)
    exact ⟨t, hgoto.trans hprepare, hptr, fun hne => absurd (wordFull_iff.mp hfull) hne, fun _ => hprepare⟩
  | false =>
    have hgoto := drive_of_goto (p := .checkSignatureState) (checkSignatureState_of_room hfull hroom)
    have hstall := drive_of_returned (p := .readChunk) (readChunk_of_step havail hmode)
    exact ⟨_, hgoto.trans hstall, rfl, fun _ => rfl, fun heq => absurd heq (wordFull_eq_false.mp hfull)⟩

/-- Settles O23: what the unit leaves of the room passes the test of CHECK_SIGNATURE_STATE, and fewer than 32 bytes
are left for the READ_CHUNK after it. -/
theorem stepProcessesTheUnitItHas : Obligations.StepProcessesTheUnitItHas := by
  intro s il ol ⟨haccepted, hfixed, htables, hpacker, hpark⟩ hresume hsupplied hunit hshort hroom
  have hlatched : inAvail (latchCommand s .step il ol) = il.toNat - s.inPtr.toNat := rfl
  have havail : 32 ≤ inAvail (latchCommand s .step il ol) := by omega
  obtain ⟨u, hu, hduties, htest⟩ := processUnit_leavesRoom (s := latchCommand s .step il ol)
    ⟨haccepted, hfixed, htables, hpacker, hsupplied⟩ (parkedSound_outPtr_ne_zero hpark (.inl hresume)) havail hroom
  obtain ⟨hlatch, -⟩ := commandFrame_eq_iff.mp (processUnit_commandFrame hu)
  have hmode : u.latch.mode = .step := by rw [hlatch]; rfl
  have hleft : inAvail u < 32 := by rw [processUnit_inAvail hu]; omega
  obtain ⟨t, hcheck, hkept, hstall, hprepare⟩ := drive_checkSignatureState_of_noUnit hduties htest hmode hleft
  refine ⟨u, t, outcomeOf_eq_next.mpr hu, ?_, ?_, hstall, fun hfull => outcomeOf_eq_next.mpr (hprepare hfull)⟩
  · rw [exec_step_eq (by rw [hresume]; decide) (by omega), hresume]
    have hgoto := drive_of_goto (p := .readChunk) (readChunk_of_unit havail hu)
    exact outcomeOf_eq_next.mpr (hgoto.trans hcheck)
  · have hptr := processUnit_inPtr hu
    rw [hkept]
    exact hptr

/-! ### The end of a stream -/

/-- With fewer than 4 bytes left FLUSH_TAIL makes no turn: END is a PUSH and the bytes are EMIT_TAIL's. -/
theorem flushTail_finishes {s : State} (hend : s.cfg.endCode = fixedEndCode) (havail : inAvail s < 4)
    (hle : s.inPtr.toNat ≤ s.latch.inLimit.toNat) (hsupplied : inputSupplied s s.latch.inLimit.toNat)
    (hroom : roomToPack 1 (inAvail s) s) :
    ∃ u v, flushTail s = .ok (.returned (raise .flushReady v)) ∧ fieldPacked fixedEndCode s u ∧
      (∀ k, k < inAvail s → readByte v.output (u.outPtr.toNat + k) = readByte s.input (s.inPtr.toNat + k)) ∧
      sameOutside u.output v.output u.outPtr.toNat (inAvail s) ∧
      v = { u with
        output := v.output, inPtr := s.latch.inLimit
        outPtr := BitVec.ofNat 64 (u.outPtr.toNat + inAvail s) } := by
  obtain ⟨u, hpush, hpacked⟩ := pushCode_packs (s := s) fixedEndCode_legal (hroom.mono (by omega))
  have hemit : emitEnd s = .ok u := by rw [emitEnd, hend]; exact hpush
  obtain ⟨hlatch, -, -, hinput⟩ := commandFrame_eq_iff.mp (push_commandFrame hpush)
  have hptr := push_inPtr hpush
  have hleft : inAvail u = inAvail s := by rw [inAvail, inAvail, hlatch, hptr]
  obtain ⟨-, hbelow, hlimit⟩ := hroom
  have hout := (push_packedWithin hbelow hpush).outPtr_le
  rw [← hlatch] at hsupplied
  obtain ⟨v, htail, hbytes, hframe, hv⟩ := emitTailCopiesTheRest u
    (inputSupplied_mono hsupplied hinput (by rw [hptr])) (by rwa [hlatch, hptr]) (by rw [hlatch, hleft]; omega)
  have hin : u.latch.inLimit = s.latch.inLimit := by rw [hlatch]
  rw [hleft] at hframe hv
  rw [hleft, hinput, hptr] at hbytes
  rw [hin] at hv
  exact ⟨u, v, flushTail_of_short havail hemit (outcomeOf_eq_next.mp htail), hpacked, hbytes, hframe, hv⟩

/-- Settles O60: with fewer than 32 bytes left READ_CHUNK goes to FLUSH_TAIL, which finishes the stream. -/
theorem flushEndsTheStreamWithItsTail : Obligations.FlushEndsTheStreamWithItsTail := by
  intro s il ol hend ⟨hpos, _, hword, _⟩ hopen hresume hlimit hshort hsupplied hroom
  obtain ⟨hbelow, -⟩ := hword hopen
  have hlatched : inAvail (latchCommand s .flush il ol) = il.toNat - s.inPtr.toNat := rfl
  obtain ⟨u, v, hfinish, hpacked, hbytes, hframe, hv⟩ := flushTail_finishes (s := latchCommand s .flush il ol) hend
    (by omega) hlimit hsupplied ⟨hpos, hbelow, hroom⟩
  refine ⟨u, raise .flushReady v, ?_, hpacked, hbytes, hframe, ?_⟩
  · rw [exec_flush_eq (by rw [hresume]; decide) hlimit, hresume]
    have hgoto := drive_of_goto (p := .readChunk)
      (readChunk_of_flush (s := latchCommand s .flush il ol) (by omega) rfl)
    exact outcomeOf_eq_next.mpr (hgoto.trans (drive_of_returned (p := .flushTail) hfinish))
  · rw [hv]
    rfl

end Sys2Proof.Machine
end

section
/-! Limits decide when work is done and never what is written (rule R221): a command with larger limits, or entered
from another park, follows the same course. -/

namespace Sys2Proof.Machine

/-! ### States that differ in the command's arguments and in the park -/

/-- The state with other arguments latched, another park and another status presented. -/
def rebase (l : Latch) (r : BitVec 2) (st : Option Status) (s : State) : State :=
  { s with latch := l, resume := r, status := st }

/-- `s'` is `s` but for the park, the status presented and the arguments latched, which are `l` with limits at least
as large; under `same` they are those of `s`. -/
def Widened (same : Prop) (l : Latch) (s s' : State) : Prop :=
  s.latch.inLimit.toNat ≤ l.inLimit.toNat ∧ s.latch.outLimit.toNat ≤ l.outLimit.toNat ∧ (same → l = s.latch) ∧
    ∃ r st, s' = rebase l r st s

/-- An update that neither reads nor writes the park, the status and the arguments. -/
theorem Widened.update {same : Prop} {l : Latch} {s s' : State} (h : Widened same l s s') {g : State → State}
    (hg : ∀ r st, g (rebase l r st s) = rebase l r st (g s)) (hlatch : (g s).latch = s.latch) :
    Widened same l (g s) (g s') := by
  obtain ⟨hin, hout, hsame, r, st, rfl⟩ := h
  unfold Widened
  rw [hlatch]
  exact ⟨hin, hout, hsame, r, st, hg r st⟩

/-- `y` answers what `x` answers, up to `R`; and under `same` it also stops where `x` stops. -/
def Tracks (same : Prop) {α : Type} (R : α → α → Prop) (x y : Except Fault α) : Prop :=
  (∀ a, x = .ok a → ∃ b, y = .ok b ∧ R a b) ∧ (same → ∀ f, x = .error f → y = .error f)

section
variable {same : Prop} {l : Latch} {α β : Type} {R : α → α → Prop} {S : β → β → Prop}

theorem Tracks.ok {a b : α} (h : R a b) : Tracks same R (.ok a) (.ok b) :=
  ⟨fun _ e => ⟨b, rfl, Except.ok.inj e ▸ h⟩, nofun⟩

theorem Tracks.of_ok {x y : Except Fault α} {a : α} (h : Tracks same R x y) (hx : x = .ok a) :
    ∃ b, y = .ok b ∧ R a b := by
  obtain ⟨hok, -⟩ := h
  exact hok a hx

theorem Tracks.refl (x : Except Fault α) : Tracks same Eq x x :=
  ⟨fun a e => ⟨a, e, rfl⟩, fun _ _ e => e⟩

theorem Tracks.bind {x y : Except Fault α} {f g : α → Except Fault β} (h : Tracks same R x y)
    (hf : ∀ a b, R a b → Tracks same S (f a) (g b)) : Tracks same S (x >>= f) (y >>= g) := by
  obtain ⟨hok, herror⟩ := h
  cases x with
  | error e =>
    refine ⟨nofun, fun hs e' he => ?_⟩
    rw [herror hs e rfl]
    exact he
  | ok a =>
    obtain ⟨b, rfl, hab⟩ := hok a rfl
    exact hf a b hab

/-- The states are compared where both sides go on with the same pure value. -/
theorem Tracks.bind_eq {x y : Except Fault α} {f g : α → Except Fault β} (h : Tracks same Eq x y)
    (hf : ∀ a, Tracks same S (f a) (g a)) : Tracks same S (x >>= f) (y >>= g) :=
  h.bind fun a _ e => e ▸ hf a

/-! ### The operations -/

variable {s s' : State}

theorem memRead_tracks (h : Widened same l s s') (a n : Nat) :
    Tracks same Eq (memRead s a n) (memRead s' a n) := by
  obtain ⟨hin, -, hsame, r, st, rfl⟩ := h
  refine ⟨fun bs hread => ?_, fun hs f hf => ?_⟩
  · obtain ⟨hlimit, hbytes⟩ := memRead_eq_ok.mp hread
    exact ⟨bs, memRead_eq_ok.mpr ⟨Nat.le_trans hlimit hin, hbytes⟩, rfl⟩
  · rw [hsame hs]
    exact hf

theorem memWrite_tracks (h : Widened same l s s') (a n v : Nat) :
    Tracks same (Widened same l) (memWrite s a n v) (memWrite s' a n v) := by
  obtain ⟨hin, hout, hsame, r, st, rfl⟩ := h
  refine ⟨fun t hwrite => ?_, fun hs f hf => ?_⟩
  · obtain ⟨hlimit, rfl⟩ := memWrite_eq_ok.mp hwrite
    exact ⟨_, memWrite_eq_ok.mpr ⟨Nat.le_trans hlimit hout, rfl⟩, hin, hout, hsame, r, st, rfl⟩
  · rw [memWrite] at hf ⊢
    split at hf
    · next hover =>
      rw [if_pos (by rw [hsame hs]; exact hover)]
      exact hf
    · cases hf

theorem startSig_tracks (h : Widened same l s s') : Tracks same (Widened same l) (startSig s) (startSig s') := by
  have ⟨_, _, _, _, _, hs'⟩ := h
  subst hs'
  refine (memWrite_tracks h _ _ _).bind fun t t' ht => (Tracks.refl _).bind_eq fun p => Tracks.ok ?_
  obtain ⟨hin, hout, hsame, r, st, rfl⟩ := ht
  exact ⟨hin, hout, hsame, r, st, rfl⟩

theorem orIntoWord_tracks (h : Widened same l s s') (c : Word64) :
    Tracks same (Widened same l) (orIntoWord c s) (orIntoWord c s') := by
  have ⟨_, _, _, _, _, hs'⟩ := h
  subst hs'
  refine (memWrite_tracks h _ _ _).bind fun t t' ht => Tracks.ok ?_
  obtain ⟨hin, hout, hsame, r, st, rfl⟩ := ht
  exact ⟨hin, hout, hsame, r, st, rfl⟩

theorem setBitPos_widened (h : Widened same l s s') (n : BitVec 7) :
    Widened same l { s with bitPos := n } { s' with bitPos := n } :=
  h.update (g := fun s => { s with bitPos := n }) (fun _ _ => rfl) rfl

theorem pushRest_tracks (h : Widened same l s s') (c : Word64) (n : Nat) :
    Tracks same (Widened same l) (pushRest c n s) (pushRest c n s') := by
  unfold pushRest
  split
  · exact (orIntoWord_tracks h c).bind fun t t' ht => Tracks.ok (setBitPos_widened ht _)
  · exact ⟨nofun, fun _ _ e => e⟩

theorem push_tracks (h : Widened same l s s') (c : Word64) (bits : BitVec 8) :
    Tracks same (Widened same l) (push c bits s) (push c bits s') := by
  have hpos : s'.bitPos = s.bitPos := by obtain ⟨-, -, -, r, st, rfl⟩ := h; rfl
  unfold push
  rw [hpos]
  split
  · refine (orIntoWord_tracks h c).bind fun t t' ht => ?_
    dsimp only
    split
    · exact (startSig_tracks ht).bind fun u u' hu => pushRest_tracks hu _ _
    · exact Tracks.ok (setBitPos_widened ht _)
  · exact ⟨nofun, fun _ _ e => e⟩

theorem emitSelector_tracks (h : Widened same l s s') (f : Form) :
    Tracks same (Widened same l) (emitSelector f s) (emitSelector f s') := by
  have hrecord := h.update (g := fun s => recordForm s f) (fun _ _ => rfl) rfl
  obtain ⟨-, -, -, r, st, rfl⟩ := h
  exact push_tracks hrecord _ _

theorem emitLetter_tracks (h : Widened same l s s') (b : Byte) :
    Tracks same (Widened same l) (emitLetter b s) (emitLetter b s') := by
  have hrecord := h.update (g := fun s => recordLetter s b) (fun _ _ => rfl) rfl
  obtain ⟨-, -, -, r, st, rfl⟩ := h
  exact push_tracks hrecord _ _

theorem emitHash16_tracks (h : Widened same l s s') (x : Hash) :
    Tracks same (Widened same l) (emitHash16 x s) (emitHash16 x s') := by
  have ⟨_, _, _, _, _, hs'⟩ := h
  subst hs'
  refine (memWrite_tracks h _ _ _).bind fun t t' ht => (Tracks.refl _).bind_eq fun p => Tracks.ok ?_
  exact ht.update (g := fun s => { s with outPtr := p }) (fun _ _ => rfl) rfl

theorem emitLiteral_tracks (h : Widened same l s s') (c : Chunk) :
    Tracks same (Widened same l) (emitLiteral c s) (emitLiteral c s') :=
  (emitLetter_tracks h _).bind fun _ _ h0 => (emitLetter_tracks h0 _).bind fun _ _ h1 =>
    (emitLetter_tracks h1 _).bind fun _ _ h2 => emitLetter_tracks h2 _

theorem emitPayload_tracks (h : Widened same l s s') (f : Form) (c : Chunk) (x : Hash) :
    Tracks same (Widened same l) (emitPayload f c x s) (emitPayload f c x s') := by
  cases f with
  | literal => exact emitLiteral_tracks h c
  | dictB => exact emitHash16_tracks h x
  | dictA | predicted => exact Tracks.ok h

theorem dictUpdate_widened (h : Widened same l s s') (f : Form) (c : Chunk) (x y : Hash) :
    Widened same l (setLastHash (dictUpdate f c x s) y) (setLastHash (dictUpdate f c x s') y) :=
  h.update (g := fun s => setLastHash (dictUpdate f c x s) y) (fun _ _ => by cases f <;> rfl)
    (by rw [setLastHash_latch, dictUpdate_latch])

/-- The form and the hash are read from the tables and the configuration, which the two sides share. -/
theorem processChunk_tracks (h : Widened same l s s') (c : Chunk) :
    Tracks same (Widened same l) (processChunk c s) (processChunk c s') := by
  have ⟨_, _, _, _, _, hs'⟩ := h
  subst hs'
  exact (emitSelector_tracks h _).bind fun _ _ ht => (emitPayload_tracks ht _ _ _).bind fun _ _ hu =>
    Tracks.ok (dictUpdate_widened hu _ _ _ _)

theorem processChunks_tracks (n : Nat) : ∀ {a : Nat} {s s' : State}, Widened same l s s' →
    Tracks same (Widened same l) (processChunks n a s) (processChunks n a s') := by
  induction n with
  | zero => exact fun h => Tracks.ok h
  | succ n ih =>
    exact fun h => (memRead_tracks h _ _).bind_eq fun _ => (processChunk_tracks h _).bind fun _ _ ht => ih ht

theorem setInPtr_widened (h : Widened same l s s') (p : Word64) :
    Widened same l { s with inPtr := p } { s' with inPtr := p } :=
  h.update (g := fun s => { s with inPtr := p }) (fun _ _ => rfl) rfl

theorem Widened.inPtr_eq (h : Widened same l s s') : s'.inPtr = s.inPtr := by
  obtain ⟨-, -, -, r, st, rfl⟩ := h
  rfl

theorem processUnit_tracks (h : Widened same l s s') :
    Tracks same (Widened same l) (processUnit s) (processUnit s') := by
  unfold processUnit
  rw [h.inPtr_eq]
  refine (processChunks_tracks 8 h).bind fun t t' ht => ?_
  rw [ht.inPtr_eq]
  exact (Tracks.refl _).bind_eq fun p => Tracks.ok (setInPtr_widened ht p)

theorem tailChunk_tracks (h : Widened same l s s') :
    Tracks same (Widened same l) (tailChunk s) (tailChunk s') := by
  unfold tailChunk
  rw [h.inPtr_eq]
  exact (memRead_tracks h _ _).bind_eq fun _ => (Tracks.refl _).bind_eq fun p =>
    processChunk_tracks (setInPtr_widened h p) _

theorem tailByte_tracks (h : Widened same l s s') (b : Byte) :
    Tracks same (Widened same l) (tailByte b s) (tailByte b s') := by
  have ⟨_, _, _, _, _, hs'⟩ := h
  subst hs'
  refine (memWrite_tracks h _ _ _).bind fun t t' ht => (Tracks.refl _).bind_eq fun p =>
    (Tracks.refl _).bind_eq fun q => Tracks.ok ?_
  exact ht.update (g := fun s => { s with outPtr := p, inPtr := q }) (fun _ _ => rfl) rfl

theorem tailBytes_tracks (n : Nat) : ∀ {s s' : State}, Widened same l s s' →
    Tracks same (Widened same l) (tailBytes n s) (tailBytes n s') := by
  induction n with
  | zero => exact fun h => Tracks.ok h
  | succ n ih =>
    intro s s' h
    unfold tailBytes
    rw [h.inPtr_eq]
    exact (memRead_tracks h _ _).bind_eq fun _ => (tailByte_tracks h _).bind fun _ _ ht => ih ht

end

/-! ### The same arguments from another park -/

section
variable {l : Latch} {s s' : State}

theorem Widened.inAvail_eq (h : Widened True l s s') : inAvail s' = inAvail s := by
  obtain ⟨-, -, hsame, r, st, rfl⟩ := h
  rw [hsame trivial]
  rfl

theorem Widened.outputShort_eq (h : Widened True l s s') : outputShort s' = outputShort s := by
  obtain ⟨-, -, hsame, r, st, rfl⟩ := h
  rw [hsame trivial]
  rfl

theorem Widened.mode_eq (h : Widened True l s s') : s'.latch.mode = s.latch.mode := by
  obtain ⟨-, -, hsame, r, st, rfl⟩ := h
  rw [hsame trivial]
  rfl

theorem Widened.wordFull_eq {same : Prop} (h : Widened same l s s') : wordFull s' = wordFull s := by
  obtain ⟨-, -, -, r, st, rfl⟩ := h
  rfl

theorem Widened.efficiencyCheckDue_eq {same : Prop} (h : Widened same l s s') :
    efficiencyCheckDue s' = efficiencyCheckDue s := by
  obtain ⟨-, -, -, r, st, rfl⟩ := h
  rfl

theorem Widened.blockEndDue_eq {same : Prop} (h : Widened same l s s') : blockEndDue s' = blockEndDue s := by
  obtain ⟨-, -, -, r, st, rfl⟩ := h
  rfl

theorem endBlock_rebase (l : Latch) (r : BitVec 2) (st : Option Status) (s : State) :
    endBlock (rebase l r st s) = rebase l r st (endBlock s) := by
  have hcfg : (rebase l r st s).cfg = s.cfg := rfl
  have hcycle : (rebase l r st s).resetCycle = s.resetCycle := rfl
  unfold endBlock
  rw [hcfg, hcycle]
  dsimp only
  split_ifs <;> rfl

/-- Every return but `Error` writes the park, the status and the arguments. -/
theorem Widened.raise_eq {same : Prop} {c : Cause} (h : Widened same l s s') (hc : c ≠ .error) :
    raise c s' = raise c s := by
  obtain ⟨-, -, -, r, st, rfl⟩ := h
  cases c with
  | error => exact absurd rfl hc
  | newBlock =>
    rw [raise, raise, causeWrites, causeWrites, endBlock_rebase]
    rfl
  | _ => rfl

theorem tailChunks_tracks (n : Nat) : ∀ {s s' : State}, Widened True l s s' →
    Tracks True (Widened True l) (tailChunks n s) (tailChunks n s') := by
  induction n with
  | zero => exact fun h => Tracks.ok h
  | succ n ih =>
    intro s s' h
    unfold tailChunks
    rw [h.wordFull_eq, h.inAvail_eq]
    split
    · exact Tracks.ok h
    · split
      · exact Tracks.ok h
      · exact (tailChunk_tracks h).bind fun _ _ ht => ih ht

theorem finishStream_tracks (h : Widened True l s s') : Tracks True Eq (finishStream s) (finishStream s') := by
  have hend : Tracks True (Widened True l) (emitEnd s) (emitEnd s') := by
    have hpush := push_tracks h s.cfg.endCode.content s.cfg.endCode.bits
    obtain ⟨-, -, -, r, st, rfl⟩ := h
    exact hpush
  refine hend.bind fun t t' ht => ?_
  unfold emitTail
  rw [ht.inAvail_eq]
  exact (tailBytes_tracks _ ht).bind fun _ _ hu => Tracks.ok (hu.raise_eq (by decide)).symm

/-- Two handlers end alike: they go on at the same place in states that differ as before, or return the same
state. -/
inductive EndsAlike (l : Latch) : Transfer → Transfer → Prop
  | goto {q : Place} {t t' : State} : Widened True l t t' → EndsAlike l (.goto q t) (.goto q t')
  | returned (t : State) : EndsAlike l (.returned t) (.returned t)

theorem EndsAlike.raise (h : Widened True l s s') {c : Cause} (hc : c ≠ .error) :
    EndsAlike l (.returned (raise c s)) (.returned (raise c s')) := by
  rw [h.raise_eq hc]
  exact .returned _

theorem handler_tracks (h : Widened True l s s') (p : Place) :
    Tracks True (EndsAlike l) (handler p s) (handler p s') := by
  cases p with
  | prepareNewBlock =>
    show Tracks True _ (prepareNewBlock s) (prepareNewBlock s')
    unfold prepareNewBlock
    rw [h.outputShort_eq, h.efficiencyCheckDue_eq, h.blockEndDue_eq]
    split_ifs
    · exact Tracks.ok (.raise h (by decide))
    · exact Tracks.ok (.raise h (by decide))
    · exact Tracks.ok (.raise h (by decide))
    · exact (startSig_tracks h).bind fun _ _ ht => Tracks.ok (.goto ht)
  | readChunk =>
    show Tracks True _ (readChunk s) (readChunk s')
    unfold readChunk
    rw [h.inAvail_eq, h.mode_eq]
    split
    · exact (processUnit_tracks h).bind fun _ _ ht => Tracks.ok (.goto ht)
    · split
      · exact Tracks.ok (.raise h (by decide))
      · exact Tracks.ok (.goto h)
  | checkSignatureState =>
    show Tracks True _ (checkSignatureState s) (checkSignatureState s')
    unfold checkSignatureState
    rw [h.wordFull_eq, h.outputShort_eq]
    split_ifs
    · exact Tracks.ok (.goto h)
    · exact Tracks.ok (.raise h (by decide))
    · exact Tracks.ok (.goto h)
  | flushTail =>
    show Tracks True _ (flushTail s) (flushTail s')
    unfold flushTail
    rw [h.inAvail_eq]
    refine (tailChunks_tracks _ h).bind fun t t' ht => ?_
    rw [ht.inAvail_eq]
    split
    · exact Tracks.ok (.goto ht)
    · exact (finishStream_tracks ht).bind_eq fun u => Tracks.ok (.returned u)

/-- With the same arguments a command's outcome, a fault included, does not depend on the park it is entered from
nor on the status last presented, only on the handler entered. -/
theorem drive_eq_of_widened {p : Place} (h : Widened True l s s') : drive p s' = drive p s := by
  induction hn : transfersLeft p s using Nat.strong_induction_on generalizing p s s' with
  | _ n ih =>
    subst hn
    obtain ⟨hok, herror⟩ := handler_tracks h p
    rw [drive_eq p s, drive_eq p s']
    cases hh : handler p s with
    | error f => rw [herror trivial f hh]
    | ok r =>
      obtain ⟨r', hr', halike⟩ := hok r hh
      rw [hr', ok_bind, ok_bind]
      cases halike with
      | goto ht => exact ih _ (handler_goto hh).transfersLeft_lt ht rfl
      | returned t => rfl

end

/-! ### Larger limits -/

theorem outputShort_of_widened {l : Latch} {s s' : State} (h : Widened False l s s')
    (hroom : outputShort s = false) : outputShort s' = false := by
  obtain ⟨-, hout, -, r, st, rfl⟩ := h
  have hle := outputShort_eq_false.mp hroom
  unfold outAvail at hle
  apply outputShort_eq_false.mpr
  show s.cfg.minLookahead.toNat ≤ l.outLimit.toNat - s.outPtr.toNat
  omega

/-- Every transfer of a STEP is also made by a command with limits at least as large. -/
theorem GoesTo.widened {l : Latch} {p q : Place} {s t s' : State} (h : GoesTo p s q t)
    (hmode : s.latch.mode = .step) (hp : p ≠ .flushTail)
    (hs : Widened False l s s') : ∃ t', handler p s' = .ok (.goto q t') ∧ Widened False l t t' := by
  cases h with
  | newWord hroom heff hblock hstart =>
    obtain ⟨t', hstart', ht⟩ := (startSig_tracks hs).of_ok hstart
    exact ⟨t', prepareNewBlock_of_startSig (outputShort_of_widened hs hroom) (hs.efficiencyCheckDue_eq.trans heff)
      (hs.blockEndDue_eq.trans hblock) hstart', ht⟩
  | unit havail hunit =>
    obtain ⟨t', hunit', ht⟩ := (processUnit_tracks hs).of_ok hunit
    have havail' : 32 ≤ inAvail s' := by
      obtain ⟨hin, -, -, r, st, rfl⟩ := hs
      show 32 ≤ l.inLimit.toNat - s.inPtr.toNat
      unfold inAvail at havail
      omega
    exact ⟨t', readChunk_of_unit havail' hunit', ht⟩
  | tail _ hflush => rw [hmode] at hflush; cases hflush
  | full hfull => exact ⟨s', checkSignatureState_of_full (hs.wordFull_eq.trans hfull), hs⟩
  | more hfull hroom =>
    exact ⟨s', checkSignatureState_of_room (hs.wordFull_eq.trans hfull) (outputShort_of_widened hs hroom), hs⟩
  | fullTail => exact absurd rfl hp

end Sys2Proof.Machine
end

section
/-! A STEP that stalled may be taken up again by a command with larger limits (rules R221, R252). -/

namespace Sys2Proof.Machine

theorem drive_rebase_eq (p : Place) (l : Latch) (r r' : BitVec 2) (st st' : Option Status) (s : State) :
    drive p (rebase l r st s) = drive p (rebase l r' st' s) :=
  drive_eq_of_widened (s := rebase l r' st' s) ⟨Nat.le_refl _, Nat.le_refl _, fun _ => rfl, r, st, rfl⟩

/-- What a handler consumes before it hands control on lies below `in_limit`. -/
theorem GoesTo.inPtr_le_limit {p q : Place} {s t : State} (h : GoesTo p s q t)
    (hle : s.inPtr.toNat ≤ s.latch.inLimit.toNat) : t.inPtr.toNat ≤ s.latch.inLimit.toNat := by
  cases h with
  | newWord _ _ _ hstart => rwa [startSig_inPtr hstart]
  | unit havail hunit =>
    have hptr := processUnit_inPtr hunit
    unfold inAvail at havail
    omega
  | tail | full | more => exact hle
  | fullTail hloop => exact tailChunks_inPtr_le_limit _ hloop hle

/-- In a STEP no transfer leads to FLUSH_TAIL. -/
theorem GoesTo.ne_flushTail {p q : Place} {s t : State} (h : GoesTo p s q t) (hmode : s.latch.mode = .step) :
    q ≠ .flushTail := by
  cases h with
  | tail _ hflush => rw [hmode] at hflush; cases hflush
  | newWord | unit | full | more | fullTail => nofun

/-- What a stalled command left is resumed: `x`, the outcome of a command with the arguments `l`, is that of the
handler the session is parked at, entered under `l`. -/
def resumedBy (limit : Nat) (l : Latch) (x : Except Fault State) (t : State) : Prop :=
  t.status = some .stallOnInput ∨ t.status = some .stallOnOutput →
    t.resume ≠ 3 ∧ t.inPtr.toNat ≤ limit ∧ x = drive (parkedPlace t.resume) (rebase l t.resume t.status t)

/-- A stall writes nothing but the park, so the handler parked at finds what it found before. -/
theorem Returns.resumedBy {l : Latch} {p : Place} {s t s' : State} {x : Except Fault State} {limit : Nat}
    (h : Returns p s t) (hp : p ≠ .flushTail) (hle : s.inPtr.toNat ≤ limit) (hs : Widened False l s s')
    (hx : x = drive p s') : resumedBy limit l x t := by
  obtain ⟨-, -, -, r, st, rfl⟩ := hs
  cases h with
  | outputStall | inputStall | checkStall =>
    exact fun _ => ⟨nofun, hle, hx.trans (drive_rebase_eq _ l r _ st _ s)⟩
  | efficiency | blockEnd => exact fun hst => hst.elim nofun nofun
  | finished => exact absurd rfl hp

/-- A STEP's course up to its return is that of every command with limits at least as large. -/
theorem drive_resumedBy {l : Latch} {p : Place} {s t s' : State} (hmode : s.latch.mode = .step)
    (hp : p ≠ .flushTail) (hle : s.inPtr.toNat ≤ s.latch.inLimit.toNat) (hs : Widened False l s s')
    (h : drive p s = .ok t) : resumedBy s.latch.inLimit.toNat l (drive p s') t := by
  refine drive_rows
    (P := fun q u => u.latch = s.latch ∧ q ≠ .flushTail ∧ u.inPtr.toNat ≤ s.latch.inLimit.toNat ∧
      ∃ u', Widened False l u u' ∧ drive p s' = drive q u')
    (fun q u q' v ⟨hlatch, hq, hptr, u', hu, hdrive⟩ hgo => ?_)
    (fun q u v ⟨_, hq, hptr, u', hu, hdrive⟩ hret => hret.resumedBy hq hptr hu hdrive)
    ⟨rfl, hp, hle, s', hs, rfl⟩ h
  rw [← hlatch] at hmode hptr ⊢
  obtain ⟨v', hgo', hv⟩ := hgo.widened hmode hq hu
  exact ⟨hgo.latch_eq, hgo.ne_flushTail hmode, hgo.inPtr_le_limit hptr, v', hv,
    hdrive.trans (drive_of_goto hgo')⟩

/-- An open session's command that answers had an `in_limit` not below `in_ptr` (rule R298). -/
theorem dispatch_inPtr_le_limit {s t : State} (h : dispatch s = .ok t) (hopen : s.resume ≠ 3) :
    s.inPtr.toNat ≤ s.latch.inLimit.toNat := by
  by_contra hlow
  rw [dispatch, if_neg hopen, if_pos (Nat.not_le.mp hlow)] at h
  cases h

/-- Settles O31: the larger command from the start passes the handler at which the STEP stalled, and from there on
it is that command entered after the stall. -/
theorem stallingChangesNoOutput : Obligations.StallingChangesNoOutput := by
  intro s t il ol il' ol' hstep hst hil hol
  have hdispatch := outcomeOf_eq_next.mp hstep
  rcases dispatch_drives hdispatch with ⟨-, rfl⟩ | ⟨hopen, hp, hdrive⟩
  · exact hst.elim nofun nofun
  · have hlimit : s.inPtr.toNat ≤ il.toNat := dispatch_inPtr_le_limit hdispatch hopen
    have hcommand (m : Mode) :
        outcomeOf (dispatch (latchCommand t m il' ol')) = outcomeOf (dispatch (latchCommand s m il' ol')) := by
      have hwider : Widened False ⟨m, il', ol'⟩ (latchCommand s .step il ol) (latchCommand s m il' ol') :=
        ⟨hil, hol, False.elim, _, _, rfl⟩
      obtain ⟨hopen', hptr, hresumed⟩ := drive_resumedBy rfl hp hlimit hwider hdrive hst
      rw [dispatch_eq_drive (s := latchCommand t m il' ol') hopen' (Nat.le_trans hptr hil),
        dispatch_eq_drive (s := latchCommand s m il' ol') hopen (Nat.le_trans hlimit hil)]
      exact congrArg outcomeOf hresumed.symm
    exact ⟨hcommand .step, hcommand .flush⟩

end Sys2Proof.Machine
end

section
/-! The status rows with one cause or two: the park each leaves behind (rules R251 to R253, R256, R257). -/

namespace Sys2Proof.Machine

/-- `StallOnOutput` parks where its cause is raised: at PREPARE_NEW_BLOCK with the current word empty or full,
at CHECK_SIGNATURE_STATE inside a word. -/
theorem raise_stallOnOutputCause (s : State) :
    raise (stallOnOutputCause s) s =
      endCommand (setResume s (if s.bitPos = 0 ∨ s.bitPos = 64 then 0 else 2)) .stallOnOutput := by
  unfold stallOnOutputCause
  split
  next hprepare => rfl
  next hinside => rfl

/-- `Ready` leaves the session ended by a FLUSH and opened otherwise. -/
theorem raise_readyCause (s : State) :
    raise (readyCause s) s = endCommand (setResume s (if s.latch.mode = .flush then 3 else 0)) .ready := by
  unfold readyCause
  cases s.latch.mode with
  | flush => rfl
  | step => rfl

/-- Settles O16: `StallOnInput` and `InfoEfficiencyCheck` have one cause each, the other two are split by theirs. -/
theorem statusRowsWriteTheirPark : Obligations.StatusRowsWriteTheirPark := by
  intro s
  refine ⟨?stallOnInput, ?stallOnOutput, ?efficiencyCheck, ?ready⟩
  case stallOnInput => rfl
  case efficiencyCheck => rfl
  case stallOnOutput => exact congrArg Host.Outcome.next (raise_stallOnOutputCause s)
  case ready => exact congrArg Host.Outcome.next (raise_readyCause s)

end Sys2Proof.Machine
end

section
/-! Commands that find no session open or an `in_limit` that was lowered (rules R202, R255, R280, R298). -/

namespace Sys2Proof.Machine

/-- Hardware reset leaves no session open (rule R280). -/
theorem reset_resume_eq_three : State.reset.resume = 3 := rfl

/-- Hardware reset holds no command's arguments, so that an `Error`, which forgets them, changes nothing. -/
theorem reset_latch_eq_idle : State.reset.latch = Latch.idle := rfl

/-- Settles O6: with no session open STEP and FLUSH are the `Error` that forgets their arguments, and at reset
there are none to forget. -/
theorem afterResetStepAndFlushReturnError : Obligations.AfterResetStepAndFlushReturnError := by
  refine ⟨reset_resume_eq_three, fun il ol => ?_⟩
  obtain ⟨hcommands, -⟩ := errorChangesNoState State.reset il ol
  rw [← reset_latch_eq_idle] at hcommands
  exact hcommands reset_resume_eq_three

/-- In an open session an `in_limit` below `in_ptr` stops dispatch before any handler runs (rule R298). -/
theorem dispatch_of_limit_lt_inPtr {s : State} (hopen : s.resume ≠ 3)
    (hlow : s.latch.inLimit.toNat < s.inPtr.toNat) : dispatch s = .error .offsetOverflow := by
  rw [dispatch, if_neg hopen, if_pos hlow]

/-- Settles O13: both commands latch the lowered limit and dispatch, which stops in either mode. -/
theorem loweredInLimitStops : Obligations.LoweredInLimitStops := by
  intro s il ol hopen hlow
  have hstop (m : Mode) : outcomeOf (dispatch (latchCommand s m il ol)) = .fault .offsetOverflow :=
    outcomeOf_eq_fault.mpr (dispatch_of_limit_lt_inPtr (s := latchCommand s m il ol) hopen hlow)
  exact ⟨hstop .step, hstop .flush⟩

end Sys2Proof.Machine
end
